-- ==== Sys2Proof/Word.lean ====
section
/-! DEFINITION. The two widths of the machine (00_scope.md R5): bytes and 16-bit words. -/

namespace Sys2Proof

/-- An 8-bit value: a general register, a byte of memory (R20, R60). -/
abbrev Byte := BitVec 8

/-- A 16-bit value: a register pair, `sp`, `pc`, an address (R21, R24, R25, R60). -/
abbrev Word := BitVec 16

end Sys2Proof
end

