-- ==== Sys2Proof/Config.lean ====
section
/-! DEFINITION. What is fixed before a program runs (00_scope.md R5, R7): the parameters of the step
relation and the cartridge. No instruction changes any of it. The host's `step` takes the state alone,
so the state carries one `Config` (log entry 1). -/

namespace Sys2Proof

/-- ILLEGAL_POLICY (R5, R306, decision D3): what an undefined opcode does. -/
inductive IllegalPolicy where
  | fault
  | nop
  deriving DecidableEq, Repr

/-- MAPPER (20_memory.md R101, R102): which bank controller the cartridge has. -/
inductive MapperKind where
  | none
  | type1
  deriving DecidableEq, Repr

/-- The cartridge as loaded (R101 to R105). The image is `romLen` bytes long; `rom` lists its bytes that
are not 0x00, in rising order of offset. The default is the blank 32 KiB image (log entry 2). -/
structure Cartridge where
  mapper   : MapperKind := .none
  romBanks : Nat := 2
  eramSize : Nat := 0
  romLen   : Nat := 0x8000
  rom      : List (Nat × Byte) := []
  deriving DecidableEq, Repr

/-- The parameters of R5 with the spec's values as defaults, and the cartridge. -/
structure Config where
  /-- T_PER_M, clock cycles per machine cycle (D1). -/
  tPerM         : Nat := 4
  /-- SENTINEL, the byte read where nothing is mapped (R64, D2). -/
  sentinel      : Byte := 0xFF
  /-- HALT_IDLE_COST, machine cycles of an idle step (D4). -/
  haltIdleCost  : Nat := 1
  /-- ILLEGAL_POLICY (D3). -/
  illegalPolicy : IllegalPolicy := .fault
  /-- WRAM_BANKS, legal 2 to 8 (D16). -/
  wramBanks     : Nat := 8
  cart          : Cartridge := {}
  deriving DecidableEq, Repr

/-- The configurations the spec allows: 2 to 8 work-RAM banks (R5), positive costs (R5, D4), a bank
count of R104 and a RAM size of R105. -/
def Config.legal (c : Config) : Bool :=
  decide (0 < c.tPerM) && decide (0 < c.haltIdleCost) && decide (2 ≤ c.wramBanks) && decide (c.wramBanks ≤ 8)
    && (List.range 9).any (fun k => c.cart.romBanks == 2 * 2 ^ k)
    && [0, 2048, 8192, 32768, 131072, 65536].contains c.cart.eramSize

end Sys2Proof
end

