-- ==== Sys2Proof/Syntax.lean ====
section
/-! DEFINITION. The instructions: one constructor per row of spec/opcode_table.json (30_encoding.md R140),
and the operand code tables of R132 as inductive types. -/

namespace Sys2Proof

/-- An 8-bit register an instruction can name: the `r8` codes of R132 but for code 6, which is no
register. F has no code (10_state.md R20). -/
inductive Reg8 where
  | b | c | d | e | h | l | a
  deriving DecidableEq, Repr

/-- The `r16` codes of R132. -/
inductive Reg16 where
  | bc | de | hl | sp
  deriving DecidableEq, Repr

/-- The `r16stk` codes of R132 (`PUSH`, `POP`). -/
inductive Reg16Stk where
  | bc | de | hl | af
  deriving DecidableEq, Repr

/-- The condition codes of R132, R280. -/
inductive Cond where
  | nz | z | nc | c
  deriving DecidableEq, Repr

/-- The instruction set. Immediates are carried as the bytes or the word the encoding holds (R133): `n`
unsigned, `e` the raw displacement byte, `nn` the assembled word. -/
inductive Instr where
  -- 8-bit loads (40_load8.md)
  /-- LD r,r' (R160). -/
  | ldRR (dst src : Reg8)
  /-- LD r,n (R161). -/
  | ldRN (r : Reg8) (n : Byte)
  /-- LD r,(HL) (R162). -/
  | ldRHl (r : Reg8)
  /-- LD (HL),r (R163). -/
  | ldHlR (r : Reg8)
  /-- LD (HL),n (R164). -/
  | ldHlN (n : Byte)
  /-- LD A,(BC) (R165). -/
  | ldABc
  /-- LD A,(DE) (R166). -/
  | ldADe
  /-- LD (BC),A (R167). -/
  | ldBcA
  /-- LD (DE),A (R168). -/
  | ldDeA
  /-- LD A,(nn) (R169). -/
  | ldANn (nn : Word)
  /-- LD (nn),A (R170). -/
  | ldNnA (nn : Word)
  /-- LDH A,(C) (R171). -/
  | ldhAC
  /-- LDH (C),A (R172). -/
  | ldhCA
  /-- LDH A,(n) (R173). -/
  | ldhAN (n : Byte)
  /-- LDH (n),A (R174). -/
  | ldhNA (n : Byte)
  /-- LD A,(HL-) (R175). -/
  | ldAHld
  /-- LD (HL-),A (R176). -/
  | ldHldA
  /-- LD A,(HL+) (R177). -/
  | ldAHli
  /-- LD (HL+),A (R178). -/
  | ldHliA
  -- 16-bit loads and the stack (41_load16_stack.md)
  /-- LD rr,nn (R190). -/
  | ldRrNn (p : Reg16) (nn : Word)
  /-- LD (nn),SP (R191). -/
  | ldNnSp (nn : Word)
  /-- LD SP,HL (R192). -/
  | ldSpHl
  /-- LD HL,SP+e (R193). -/
  | ldHlSpE (e : Byte)
  /-- PUSH rr (R194). -/
  | pushRr (p : Reg16Stk)
  /-- POP rr (not AF: `Instr.wf`) (R195). -/
  | popRr (p : Reg16Stk)
  /-- POP AF (R196). -/
  | popAf
  -- 8-bit arithmetic and logic (42_alu8.md)
  /-- ADD A,r (R203). -/
  | addR (r : Reg8)
  /-- ADD A,(HL) (R204). -/
  | addHl
  /-- ADD A,n (R205). -/
  | addN (n : Byte)
  /-- ADC A,r (R206). -/
  | adcR (r : Reg8)
  /-- ADC A,(HL) (R207). -/
  | adcHl
  /-- ADC A,n (R208). -/
  | adcN (n : Byte)
  /-- SUB r (R209). -/
  | subR (r : Reg8)
  /-- SUB (HL) (R210). -/
  | subHl
  /-- SUB n (R211). -/
  | subN (n : Byte)
  /-- SBC A,r (R212). -/
  | sbcR (r : Reg8)
  /-- SBC A,(HL) (R213). -/
  | sbcHl
  /-- SBC A,n (R214). -/
  | sbcN (n : Byte)
  /-- AND r (R215). -/
  | andR (r : Reg8)
  /-- AND (HL) (R216). -/
  | andHl
  /-- AND n (R217). -/
  | andN (n : Byte)
  /-- XOR r (R218). -/
  | xorR (r : Reg8)
  /-- XOR (HL) (R219). -/
  | xorHl
  /-- XOR n (R220). -/
  | xorN (n : Byte)
  /-- OR r (R221). -/
  | orR (r : Reg8)
  /-- OR (HL) (R222). -/
  | orHl
  /-- OR n (R223). -/
  | orN (n : Byte)
  /-- CP r (R224). -/
  | cpR (r : Reg8)
  /-- CP (HL) (R225). -/
  | cpHl
  /-- CP n (R226). -/
  | cpN (n : Byte)
  /-- INC r (R227). -/
  | incR (r : Reg8)
  /-- INC (HL) (R228). -/
  | incHl
  /-- DEC r (R229). -/
  | decR (r : Reg8)
  /-- DEC (HL) (R230). -/
  | decHl
  /-- DAA (R231). -/
  | daa
  /-- CPL (R232). -/
  | cpl
  /-- SCF (R233). -/
  | scf
  /-- CCF (R234). -/
  | ccf
  -- 16-bit arithmetic (43_alu16.md)
  /-- ADD HL,rr (R241). -/
  | addHlRr (p : Reg16)
  /-- INC rr (R242). -/
  | incRr (p : Reg16)
  /-- DEC rr (R243). -/
  | decRr (p : Reg16)
  /-- ADD SP,e (R244). -/
  | addSpE (e : Byte)
  -- rotates, shifts, bits (44_rotate_shift_bit.md)
  /-- RLCA (R251). -/
  | rlca
  /-- RRCA (R252). -/
  | rrca
  /-- RLA (R253). -/
  | rla
  /-- RRA (R254). -/
  | rra
  /-- RLC r (R255). -/
  | rlcR (r : Reg8)
  /-- RLC (HL) (R256). -/
  | rlcHl
  /-- RRC r (R257). -/
  | rrcR (r : Reg8)
  /-- RRC (HL) (R258). -/
  | rrcHl
  /-- RL r (R259). -/
  | rlR (r : Reg8)
  /-- RL (HL) (R260). -/
  | rlHl
  /-- RR r (R261). -/
  | rrR (r : Reg8)
  /-- RR (HL) (R262). -/
  | rrHl
  /-- SLA r (R263). -/
  | slaR (r : Reg8)
  /-- SLA (HL) (R264). -/
  | slaHl
  /-- SRA r (R265). -/
  | sraR (r : Reg8)
  /-- SRA (HL) (R266). -/
  | sraHl
  /-- SWAP r (R267). -/
  | swapR (r : Reg8)
  /-- SWAP (HL) (R268). -/
  | swapHl
  /-- SRL r (R269). -/
  | srlR (r : Reg8)
  /-- SRL (HL) (R270). -/
  | srlHl
  /-- BIT b,r (R271). -/
  | bitR (b : BitVec 3) (r : Reg8)
  /-- BIT b,(HL) (R272). -/
  | bitHl (b : BitVec 3)
  /-- RES b,r (R273). -/
  | resR (b : BitVec 3) (r : Reg8)
  /-- RES b,(HL) (R274). -/
  | resHl (b : BitVec 3)
  /-- SET b,r (R275). -/
  | setR (b : BitVec 3) (r : Reg8)
  /-- SET b,(HL) (R276). -/
  | setHl (b : BitVec 3)
  -- control flow (45_control_flow.md)
  /-- JP nn (R281). -/
  | jpNn (nn : Word)
  /-- JP cc,nn (R282). -/
  | jpCcNn (cc : Cond) (nn : Word)
  /-- JP HL (R283). -/
  | jpHl
  /-- JR e (R284). -/
  | jrE (e : Byte)
  /-- JR cc,e (R285). -/
  | jrCcE (cc : Cond) (e : Byte)
  /-- CALL nn (R286). -/
  | callNn (nn : Word)
  /-- CALL cc,nn (R287). -/
  | callCcNn (cc : Cond) (nn : Word)
  /-- RET (R288). -/
  | ret
  /-- RET cc (R289). -/
  | retCc (cc : Cond)
  /-- RETI (R290). -/
  | reti
  /-- RST 8*t (R291). -/
  | rst (t : BitVec 3)
  -- CPU control and undefined opcodes (46_cpu_control.md)
  /-- NOP (R300). -/
  | nop
  /-- HALT (R301). -/
  | halt
  /-- STOP; `pad` is the second byte, read and discarded (R302). -/
  | stop (pad : Byte)
  /-- DI (R303). -/
  | di
  /-- EI (R304). -/
  | ei
  /-- PREFIX CB: the byte 0xCB alone; its meaning fetches the extended opcode (log entry 5) (R305). -/
  | prefixCb
  /-- undefined opcode 0xD3 (R306). -/
  | illegalD3
  /-- undefined opcode 0xDB (R306). -/
  | illegalDB
  /-- undefined opcode 0xDD (R306). -/
  | illegalDD
  /-- undefined opcode 0xE3 (R306). -/
  | illegalE3
  /-- undefined opcode 0xE4 (R306). -/
  | illegalE4
  /-- undefined opcode 0xEB (R306). -/
  | illegalEB
  /-- undefined opcode 0xEC (R306). -/
  | illegalEC
  /-- undefined opcode 0xED (R306). -/
  | illegalED
  /-- undefined opcode 0xF4 (R306). -/
  | illegalF4
  /-- undefined opcode 0xFC (R306). -/
  | illegalFC
  /-- undefined opcode 0xFD (R306). -/
  | illegalFD
  deriving DecidableEq, Repr

end Sys2Proof
end

