-- ==== Sys2Proof/WellFormed.lean ====
section
/-! DEFINITION. The terms of `Instr` that stand for an instruction of the table. The operand types leave
one ill-formed case: `POP AF` is a row of its own (41_load16_stack.md R195, R196), so the pair of `popRr`
is never AF. Register code 6 cannot be written at all (30_encoding.md R132). -/

namespace Sys2Proof

/-- Well-formedness: `POP rr` names BC, DE or HL (R195: "values 0 to 2"). -/
def Instr.wf : Instr → Bool
  | .popRr p => p != .af
  | _ => true

end Sys2Proof
end

