-- ==== Sys2Proof/Decode.lean ====
section
/-! DEFINITION. From bytes to instructions and back (30_encoding.md R130 to R139). The decoder follows the
field table of R135 and the extended table of R136; it is total and rejects only a list that is too short.
The encoder stands after it and is written from the bit patterns of the instruction rules. -/

namespace Sys2Proof

/-! ## Fields (R131) -/

/-- Field `x`, opcode bits 7:6 (R131). -/
def opX (op : Byte) : Nat := op.toNat / 64

/-- Field `y`, opcode bits 5:3 (R131). -/
def opY (op : Byte) : Nat := op.toNat / 8 % 8

/-- Field `z`, opcode bits 2:0 (R131). -/
def opZ (op : Byte) : Nat := op.toNat % 8

/-- Field `p`, opcode bits 5:4 (R131). -/
def opP (op : Byte) : Nat := opY op / 2

/-- Field `q`, opcode bit 3 (R131). -/
def opQ (op : Byte) : Nat := opY op % 2

/-- A 16-bit value from its two bytes (R96, R133: `{byte 3, byte 2}`). -/
def wordOf (hi lo : Byte) : Word := hi ++ lo

/-- Bits 15:8 of a word. -/
def hiByte (w : Word) : Byte := w.extractLsb' 8 8

/-- Bits 7:0 of a word. -/
def loByte (w : Word) : Byte := w.extractLsb' 0 8

/-! ## Operand codes (R132) -/

/-- The register with `r8` code `k`; code 6 is no register but the byte at HL. -/
def reg8OfCode : Nat → Option Reg8
  | 0 => some .b
  | 1 => some .c
  | 2 => some .d
  | 3 => some .e
  | 4 => some .h
  | 5 => some .l
  | 6 => none
  | _ => some .a

def reg16OfCode : Nat → Reg16
  | 0 => .bc
  | 1 => .de
  | 2 => .hl
  | _ => .sp

def reg16StkOfCode : Nat → Reg16Stk
  | 0 => .bc
  | 1 => .de
  | 2 => .hl
  | _ => .af

def condOfCode : Nat → Cond
  | 0 => .nz
  | 1 => .z
  | 2 => .nc
  | _ => .c

/-! ## The tables (R135, R136) -/

/-- An ALU row of R135 with `x` = 2: operation `y` on the operand of code `z`. -/
def decodeAlu (y : Nat) (r : Option Reg8) : Instr :=
  match y, r with
  | 0, some r => .addR r
  | 0, none   => .addHl
  | 1, some r => .adcR r
  | 1, none   => .adcHl
  | 2, some r => .subR r
  | 2, none   => .subHl
  | 3, some r => .sbcR r
  | 3, none   => .sbcHl
  | 4, some r => .andR r
  | 4, none   => .andHl
  | 5, some r => .xorR r
  | 5, none   => .xorHl
  | 6, some r => .orR r
  | 6, none   => .orHl
  | _, some r => .cpR r
  | _, none   => .cpHl

/-- An ALU row of R135 with `x` = 3, `z` = 6: operation `y` on the immediate. -/
def decodeAluImm (y : Nat) (n : Byte) : Instr :=
  match y with
  | 0 => .addN n
  | 1 => .adcN n
  | 2 => .subN n
  | 3 => .sbcN n
  | 4 => .andN n
  | 5 => .xorN n
  | 6 => .orN n
  | _ => .cpN n

/-- The rows of R135 with `x` = 0. `n` is byte 2, `nn` is bytes 2 and 3. -/
def decodeX0 (op n : Byte) (nn : Word) : Instr :=
  let p := opP op
  let q := opQ op
  match opZ op with
  | 0 =>
    match opY op with
    | 0 => .nop
    | 1 => .ldNnSp nn
    | 2 => .stop n
    | 3 => .jrE n
    | y => .jrCcE (condOfCode (y - 4)) n
  | 1 => if q = 0 then .ldRrNn (reg16OfCode p) nn else .addHlRr (reg16OfCode p)
  | 2 =>
    match q, p with
    | 0, 0 => .ldBcA
    | 0, 1 => .ldDeA
    | 0, 2 => .ldHliA
    | 0, _ => .ldHldA
    | _, 0 => .ldABc
    | _, 1 => .ldADe
    | _, 2 => .ldAHli
    | _, _ => .ldAHld
  | 3 => if q = 0 then .incRr (reg16OfCode p) else .decRr (reg16OfCode p)
  | 4 => match reg8OfCode (opY op) with | some r => .incR r | none => .incHl
  | 5 => match reg8OfCode (opY op) with | some r => .decR r | none => .decHl
  | 6 => match reg8OfCode (opY op) with | some r => .ldRN r n | none => .ldHlN n
  | _ =>
    match opY op with
    | 0 => .rlca
    | 1 => .rrca
    | 2 => .rla
    | 3 => .rra
    | 4 => .daa
    | 5 => .cpl
    | 6 => .scf
    | _ => .ccf

/-- The rows of R135 with `x` = 1. -/
def decodeX1 (op : Byte) : Instr :=
  match reg8OfCode (opY op), reg8OfCode (opZ op) with
  | some dst, some src => .ldRR dst src
  | some dst, none     => .ldRHl dst
  | none,     some src => .ldHlR src
  | none,     none     => .halt

/-- The rows of R135 with `x` = 3, the eleven undefined opcodes of R137 among them. The entry of 0xCB is
the bare prefix row. -/
def decodeX3 (op n : Byte) (nn : Word) : Instr :=
  let p := opP op
  let q := opQ op
  match opZ op with
  | 0 =>
    match opY op with
    | 4 => .ldhNA n
    | 5 => .addSpE n
    | 6 => .ldhAN n
    | 7 => .ldHlSpE n
    | y => .retCc (condOfCode y)
  | 1 =>
    match q, p with
    | 0, 3 => .popAf
    | 0, p => .popRr (reg16StkOfCode p)
    | _, 0 => .ret
    | _, 1 => .reti
    | _, 2 => .jpHl
    | _, _ => .ldSpHl
  | 2 =>
    match opY op with
    | 4 => .ldhCA
    | 5 => .ldNnA nn
    | 6 => .ldhAC
    | 7 => .ldANn nn
    | y => .jpCcNn (condOfCode y) nn
  | 3 =>
    match opY op with
    | 0 => .jpNn nn
    | 1 => .prefixCb
    | 2 => .illegalD3
    | 3 => .illegalDB
    | 4 => .illegalE3
    | 5 => .illegalEB
    | 6 => .di
    | _ => .ei
  | 4 =>
    match opY op with
    | 4 => .illegalE4
    | 5 => .illegalEC
    | 6 => .illegalF4
    | 7 => .illegalFC
    | y => .callCcNn (condOfCode y) nn
  | 5 =>
    match q, p with
    | 0, p => .pushRr (reg16StkOfCode p)
    | _, 0 => .callNn nn
    | _, 1 => .illegalDD
    | _, 2 => .illegalED
    | _, _ => .illegalFD
  | 6 => decodeAluImm (opY op) n
  | _ => .rst (BitVec.ofNat 3 (opY op))

/-- The primary table (R135): the entry of `op`, with the two bytes that follow it. -/
def decodePrimary (op n1 n2 : Byte) : Instr :=
  let nn := wordOf n2 n1
  match opX op with
  | 0 => decodeX0 op n1 nn
  | 1 => decodeX1 op
  | 2 => decodeAlu (opY op) (reg8OfCode (opZ op))
  | _ => decodeX3 op n1 nn

/-- The extended table (R136), indexed by the byte after 0xCB. -/
def decodeExt (op2 : Byte) : Instr :=
  let b := BitVec.ofNat 3 (opY op2)
  match opX op2, reg8OfCode (opZ op2) with
  | 0, some r =>
    match opY op2 with
    | 0 => .rlcR r
    | 1 => .rrcR r
    | 2 => .rlR r
    | 3 => .rrR r
    | 4 => .slaR r
    | 5 => .sraR r
    | 6 => .swapR r
    | _ => .srlR r
  | 0, none =>
    match opY op2 with
    | 0 => .rlcHl
    | 1 => .rrcHl
    | 2 => .rlHl
    | 3 => .rrHl
    | 4 => .slaHl
    | 5 => .sraHl
    | 6 => .swapHl
    | _ => .srlHl
  | 1, some r => .bitR b r
  | 1, none   => .bitHl b
  | 2, some r => .resR b r
  | 2, none   => .resHl b
  | _, some r => .setR b r
  | _, none   => .setHl b

/-- The instruction whose bytes begin `b0 b1 b2` (R134: prefix 0xCB selects the extended table). -/
def decodeBytes (b0 b1 b2 : Byte) : Instr :=
  if b0 = 0xCB then decodeExt b1 else decodePrimary b0 b1 b2

/-- The first bytes of the 3-byte instructions (R139). -/
def threeByteOpcodes : List Byte :=
  [0x01, 0x11, 0x21, 0x31, 0x08, 0xC2, 0xC3, 0xC4, 0xCA, 0xCC, 0xCD, 0xD2, 0xD4, 0xDA, 0xDC, 0xEA, 0xFA]

/-- The first bytes of the 2-byte instructions (R139). -/
def twoByteOpcodes : List Byte :=
  [0x06, 0x0E, 0x16, 0x1E, 0x26, 0x2E, 0x36, 0x3E, 0x10, 0x18, 0x20, 0x28, 0x30, 0x38,
    0xC6, 0xCE, 0xD6, 0xDE, 0xE6, 0xEE, 0xF6, 0xFE, 0xE0, 0xF0, 0xE8, 0xF8, 0xCB]

/-- The length of an instruction, by its first byte alone (R139). An undefined opcode counts the one byte
that is fetched; its meaning puts `pc` back (R306). -/
def opLength (op : Byte) : Nat :=
  if threeByteOpcodes.contains op then 3 else if twoByteOpcodes.contains op then 2 else 1

/-- Why a list of bytes is no instruction: it is empty or ends too early. Every complete byte sequence has
an entry (R140); the undefined opcodes are rows of the table. -/
inductive DecodeError where
  | noBytes
  | truncated (op : Byte)
  deriving DecidableEq, Repr

/-- The first instruction of a list of bytes, and the bytes after it. The byte 0xCB with nothing after it
is the bare prefix row (R305, log entry 5). -/
def decode (bs : List Byte) : Except DecodeError (Instr × List Byte) :=
  match bs with
  | [] => .error .noBytes
  | b0 :: rest =>
    if b0 = 0xCB ∧ rest = [] then .ok (.prefixCb, [])
    else if rest.length + 1 < opLength b0 then .error (.truncated b0)
    else .ok (decodeBytes b0 (rest.getD 0 0) (rest.getD 1 0), rest.drop (opLength b0 - 1))

/-- The host's question: the instruction read from the bits of `w`, the first byte in bits 7:0. The bytes
of the first `nbits` bits are the instruction if they are complete; else every bit from `nbits` up is 0. -/
def decodeTableWord (nbits w : Nat) : Option Instr :=
  let v := w % 2 ^ nbits
  let bs := [BitVec.ofNat 8 v, BitVec.ofNat 8 (v / 0x100), BitVec.ofNat 8 (v / 0x10000)]
  match decode (bs.take (nbits / 8)) with
  | .ok (i, _) => some i
  | .error _ =>
    match decode bs with
    | .ok (i, _) => some i
    | .error _   => none

/-! ## The encoder -/

def Reg8.code : Reg8 → BitVec 3
  | .b => 0
  | .c => 1
  | .d => 2
  | .e => 3
  | .h => 4
  | .l => 5
  | .a => 7

def Reg16.code : Reg16 → BitVec 2
  | .bc => 0
  | .de => 1
  | .hl => 2
  | .sp => 3

def Reg16Stk.code : Reg16Stk → BitVec 2
  | .bc => 0
  | .de => 1
  | .hl => 2
  | .af => 3

def Cond.code : Cond → BitVec 2
  | .nz => 0
  | .z  => 1
  | .nc => 2
  | .c  => 3

/-- The bytes of an instruction: the `encoding` pattern of its row, first byte first. -/
def encode : Instr → List Byte
  | .ldRR dst src => [0b01#2 ++ dst.code ++ src.code]
  | .ldRN r n => [0b00#2 ++ r.code ++ 0b110#3, n]
  | .ldRHl r => [0b01#2 ++ r.code ++ 0b110#3]
  | .ldHlR r => [0b01110#5 ++ r.code]
  | .ldHlN n => [0b00110110, n]
  | .ldABc => [0b00001010]
  | .ldADe => [0b00011010]
  | .ldBcA => [0b00000010]
  | .ldDeA => [0b00010010]
  | .ldANn nn => [0b11111010, loByte nn, hiByte nn]
  | .ldNnA nn => [0b11101010, loByte nn, hiByte nn]
  | .ldhAC => [0b11110010]
  | .ldhCA => [0b11100010]
  | .ldhAN n => [0b11110000, n]
  | .ldhNA n => [0b11100000, n]
  | .ldAHld => [0b00111010]
  | .ldHldA => [0b00110010]
  | .ldAHli => [0b00101010]
  | .ldHliA => [0b00100010]
  | .ldRrNn p nn => [0b00#2 ++ p.code ++ 0b0001#4, loByte nn, hiByte nn]
  | .ldNnSp nn => [0b00001000, loByte nn, hiByte nn]
  | .ldSpHl => [0b11111001]
  | .ldHlSpE e => [0b11111000, e]
  | .pushRr p => [0b11#2 ++ p.code ++ 0b0101#4]
  | .popRr p => [0b11#2 ++ p.code ++ 0b0001#4]
  | .popAf => [0b11110001]
  | .addR r => [0b10000#5 ++ r.code]
  | .addHl => [0b10000110]
  | .addN n => [0b11000110, n]
  | .adcR r => [0b10001#5 ++ r.code]
  | .adcHl => [0b10001110]
  | .adcN n => [0b11001110, n]
  | .subR r => [0b10010#5 ++ r.code]
  | .subHl => [0b10010110]
  | .subN n => [0b11010110, n]
  | .sbcR r => [0b10011#5 ++ r.code]
  | .sbcHl => [0b10011110]
  | .sbcN n => [0b11011110, n]
  | .andR r => [0b10100#5 ++ r.code]
  | .andHl => [0b10100110]
  | .andN n => [0b11100110, n]
  | .xorR r => [0b10101#5 ++ r.code]
  | .xorHl => [0b10101110]
  | .xorN n => [0b11101110, n]
  | .orR r => [0b10110#5 ++ r.code]
  | .orHl => [0b10110110]
  | .orN n => [0b11110110, n]
  | .cpR r => [0b10111#5 ++ r.code]
  | .cpHl => [0b10111110]
  | .cpN n => [0b11111110, n]
  | .incR r => [0b00#2 ++ r.code ++ 0b100#3]
  | .incHl => [0b00110100]
  | .decR r => [0b00#2 ++ r.code ++ 0b101#3]
  | .decHl => [0b00110101]
  | .daa => [0b00100111]
  | .cpl => [0b00101111]
  | .scf => [0b00110111]
  | .ccf => [0b00111111]
  | .addHlRr p => [0b00#2 ++ p.code ++ 0b1001#4]
  | .incRr p => [0b00#2 ++ p.code ++ 0b0011#4]
  | .decRr p => [0b00#2 ++ p.code ++ 0b1011#4]
  | .addSpE e => [0b11101000, e]
  | .rlca => [0b00000111]
  | .rrca => [0b00001111]
  | .rla => [0b00010111]
  | .rra => [0b00011111]
  | .rlcR r => [0b11001011, 0b00000#5 ++ r.code]
  | .rlcHl => [0b11001011, 0b00000110]
  | .rrcR r => [0b11001011, 0b00001#5 ++ r.code]
  | .rrcHl => [0b11001011, 0b00001110]
  | .rlR r => [0b11001011, 0b00010#5 ++ r.code]
  | .rlHl => [0b11001011, 0b00010110]
  | .rrR r => [0b11001011, 0b00011#5 ++ r.code]
  | .rrHl => [0b11001011, 0b00011110]
  | .slaR r => [0b11001011, 0b00100#5 ++ r.code]
  | .slaHl => [0b11001011, 0b00100110]
  | .sraR r => [0b11001011, 0b00101#5 ++ r.code]
  | .sraHl => [0b11001011, 0b00101110]
  | .swapR r => [0b11001011, 0b00110#5 ++ r.code]
  | .swapHl => [0b11001011, 0b00110110]
  | .srlR r => [0b11001011, 0b00111#5 ++ r.code]
  | .srlHl => [0b11001011, 0b00111110]
  | .bitR b r => [0b11001011, 0b01#2 ++ b ++ r.code]
  | .bitHl b => [0b11001011, 0b01#2 ++ b ++ 0b110#3]
  | .resR b r => [0b11001011, 0b10#2 ++ b ++ r.code]
  | .resHl b => [0b11001011, 0b10#2 ++ b ++ 0b110#3]
  | .setR b r => [0b11001011, 0b11#2 ++ b ++ r.code]
  | .setHl b => [0b11001011, 0b11#2 ++ b ++ 0b110#3]
  | .jpNn nn => [0b11000011, loByte nn, hiByte nn]
  | .jpCcNn cc nn => [0b110#3 ++ cc.code ++ 0b010#3, loByte nn, hiByte nn]
  | .jpHl => [0b11101001]
  | .jrE e => [0b00011000, e]
  | .jrCcE cc e => [0b001#3 ++ cc.code ++ 0b000#3, e]
  | .callNn nn => [0b11001101, loByte nn, hiByte nn]
  | .callCcNn cc nn => [0b110#3 ++ cc.code ++ 0b100#3, loByte nn, hiByte nn]
  | .ret => [0b11001001]
  | .retCc cc => [0b110#3 ++ cc.code ++ 0b000#3]
  | .reti => [0b11011001]
  | .rst t => [0b11#2 ++ t ++ 0b111#3]
  | .nop => [0b00000000]
  | .halt => [0b01110110]
  | .stop pad => [0b00010000, pad]
  | .di => [0b11110011]
  | .ei => [0b11111011]
  | .prefixCb => [0b11001011]
  | .illegalD3 => [0b11010011]
  | .illegalDB => [0b11011011]
  | .illegalDD => [0b11011101]
  | .illegalE3 => [0b11100011]
  | .illegalE4 => [0b11100100]
  | .illegalEB => [0b11101011]
  | .illegalEC => [0b11101100]
  | .illegalED => [0b11101101]
  | .illegalF4 => [0b11110100]
  | .illegalFC => [0b11111100]
  | .illegalFD => [0b11111101]

end Sys2Proof
end

