-- ==== Sys2Proof/Machine/State.lean ====
section
/-! DEFINITION. The state of the machine as plain data, the reasons a step can stop, and the state after
reset. Every cell is one of INVENTORY.md's list; layouts and reset values are 10_state.md R20 to R56. -/

namespace Sys2Proof.Machine

/-! ## Memories -/

/-- Sparse storage of `n`-bit values by number: entries in strictly rising order, none equal to 0, which
is what an unlisted number reads as (`Cells.wf` in Machine/Memory.lean). -/
abbrev Cells (n : Nat) := List (Nat × BitVec n)

/-- A memory of bytes. An unlisted byte reads 0x00 (log entry 3). -/
abbrev Memory := List Host.Cell

/-! ## The parts of the state -/

/-- The record kept by the one synchronous exception (R29, R320): the opcode byte and its address. -/
structure IllegalOpcode where
  op   : Byte
  addr : Word
  deriving DecidableEq, Repr

/-- The CPU's registers and control cells (R20 to R29). -/
structure Cpu where
  /-- The accumulator (R20). -/
  a : Byte
  /-- The flags Z N Hf Cf in bits 7 to 4; bits 3 to 0 are 0 (R22, R23). -/
  f : Byte
  b : Byte
  c : Byte
  d : Byte
  e : Byte
  h : Byte
  l : Byte
  /-- The stack pointer (R24). -/
  sp : Word
  /-- The program counter (R25). -/
  pc : Word
  /-- The interrupt master enable (R26). -/
  ime : Bool
  /-- An `EI` whose effect is due at the next opcode fetch (R27). -/
  eiPending : Bool
  /-- `HALT` is in effect (R28). -/
  halted : Bool
  /-- The sticky stop of an undefined opcode (R29). -/
  fault : Option IllegalOpcode
  deriving DecidableEq, Repr

/-- The interrupt registers: IE whole, and the five stored bits of IF (R30, R31). -/
structure Irq where
  ie    : Byte
  iflag : BitVec 5
  deriving DecidableEq, Repr

/-- The Timer's registers and hidden sub-cycle cells (R35, R36). -/
structure Timer where
  div     : Byte
  tima    : Byte
  tma     : Byte
  tac     : BitVec 3
  divSub  : Nat
  timaSub : Nat
  deriving DecidableEq, Repr

/-- The eight buttons, true = pressed (R38). -/
structure Buttons where
  right  : Bool := false
  left   : Bool := false
  up     : Bool := false
  down   : Bool := false
  a      : Bool := false
  b      : Bool := false
  select : Bool := false
  start  : Bool := false
  deriving DecidableEq, Repr

/-- The joypad: the select bits of P1 as stored, and the buttons (R37, R38). -/
structure Joypad where
  selAction : Bool
  selDir    : Bool
  buttons   : Buttons
  deriving DecidableEq, Repr

/-- The PPU's modes (R47). -/
inductive PpuMode where
  | hblank
  | vblank
  | oamScan
  | vramAccess
  deriving DecidableEq, Repr

/-- The PPU's registers, hidden cells and output (R39 to R48). `statEnable` is STAT[6:3], its bit 0 being
STAT bit 3. Pixel (x, y) of the frame buffer has number 160 y + x. -/
structure Ppu where
  lcdc        : Byte
  statEnable  : BitVec 4
  coincidence : Bool
  mode        : PpuMode
  modeClock   : Nat
  scy         : Byte
  scx         : Byte
  ly          : Byte
  lyc         : Byte
  bgp         : Byte
  obp0        : Byte
  obp1        : Byte
  wy          : Byte
  wx          : Byte
  framebuffer : Cells 2
  frameReady  : Bool
  deriving DecidableEq, Repr

/-- The registers of the type-1 mapper (R34). With MAPPER = none nothing reads or writes them. -/
structure Mapper where
  bank1     : BitVec 5
  bank2     : BitVec 2
  mode      : Bool
  ramEnable : Bool
  deriving DecidableEq, Repr

/-- The memories of the CORE and of the cartridge (R32, R33). Byte `i` of work-RAM bank `k` has number
4096 k + i in `wram`. -/
structure Ram where
  vram : Memory
  wram : Memory
  oam  : Memory
  hram : Memory
  eram : Memory
  deriving DecidableEq, Repr

/-- The buttons by name (R38). -/
inductive Button where
  | right | left | up | down | a | b | select | start
  deriving DecidableEq, Repr

/-- What the host can do to the running machine between two system steps (R6). -/
inductive HostAction where
  | setButton (button : Button) (pressed : Bool)
  | clearFrameReady
  deriving DecidableEq, Repr

/-- The state of the machine. `hostInput` is the model's own input oracle (R393, log entry 4): entry `k`
lists what the host does before the `k`-th system step from now. `cfg` never changes (R7, log entry 1). -/
structure State where
  cpu       : Cpu
  irq       : Irq
  timer     : Timer
  joypad    : Joypad
  ppu       : Ppu
  mapper    : Mapper
  /-- The OAM-DMA trigger register (R44). -/
  dma       : Byte
  /-- The work-RAM bank select (R52). -/
  svbk      : BitVec 3
  ram       : Ram
  hostInput : List (List HostAction)
  cfg       : Config
  deriving DecidableEq, Repr

/-- Why a step stops with a fault. -/
inductive Fault where
  /-- Raised by `step` alone, in a state whose `fault` cell is set: no system step exists (R8, R29, R306).
  Safe: the spec's own final condition. -/
  | stopped (op : Byte) (addr : Word)
  deriving DecidableEq, Repr

/-- Why a step has no meaning. -/
inductive Refusal where
  /-- Raised by an arm of `exec` whose instruction has no meaning in the model; no arm does. Safe. -/
  | notModelled (mnemonic : String)
  deriving DecidableEq, Repr

/-! ## Reset -/

/-- The RESET record (R55): every cell that a reset sets, the memories and the configuration apart. The
spec makes it a parameter. -/
structure ResetRecord where
  cpu    : Cpu
  irq    : Irq
  timer  : Timer
  joypad : Joypad
  ppu    : Ppu
  mapper : Mapper
  dma    : Byte
  svbk   : BitVec 3
  deriving DecidableEq, Repr

/-- The values of R55 (decisions D11, D40, D42). -/
def ResetRecord.default : ResetRecord where
  cpu := { a := 0x01, f := 0xB0, b := 0x00, c := 0x13, d := 0x00, e := 0xD8, h := 0x01, l := 0x4D,
           sp := 0xFFFE, pc := 0x0100, ime := false, eiPending := false, halted := false, fault := none }
  irq := { ie := 0x00, iflag := 0 }
  timer := { div := 0x00, tima := 0x00, tma := 0x00, tac := 0, divSub := 0, timaSub := 0 }
  joypad := { selAction := true, selDir := true, buttons := {} }
  ppu := { lcdc := 0x91, statEnable := 0, coincidence := true, mode := .oamScan, modeClock := 0,
           scy := 0x00, scx := 0x00, ly := 0x00, lyc := 0x00, bgp := 0xFC, obp0 := 0xFF, obp1 := 0xFF,
           wy := 0x00, wx := 0x00, framebuffer := [], frameReady := false }
  mapper := { bank1 := 1, bank2 := 0, mode := false, ramEnable := false }
  dma := 0xFF
  svbk := 0

/-- Steps 3 and 4 of `Reset(image)` (R431): the record's cells, the launch contents of the memories, which
R56 leaves unspecified, and the loaded configuration. -/
def State.ofReset (r : ResetRecord) (ram : Ram) (cfg : Config) : State where
  cpu := r.cpu
  irq := r.irq
  timer := r.timer
  joypad := r.joypad
  ppu := r.ppu
  mapper := r.mapper
  dma := r.dma
  svbk := r.svbk
  ram := ram
  hostInput := []
  cfg := cfg

/-- The memories with every byte 0x00 (log entry 3). -/
def Ram.blank : Ram where
  vram := []
  wram := []
  oam := []
  hram := []
  eram := []

/-- The machine right after reset: the record of R55, blank memories (log entry 3), the spec's parameters
and the blank 32 KiB cartridge (log entry 2). -/
def State.reset : State := State.ofReset ResetRecord.default Ram.blank {}

end Sys2Proof.Machine
end

