-- ==== Sys2Proof/Machine/Memory.lean ====
section
/-! DEFINITION. Sparse storage in canonical form: reading, writing, and the form itself. Every memory of
the machine and the frame buffer are kept this way, so equal contents are equal data. -/

namespace Sys2Proof.Machine

/-- The value of number `k`: the listed one, else 0. -/
def Cells.read {n : Nat} : Cells n → Nat → BitVec n
  | [], _ => 0#n
  | (j, v) :: rest, k => if k = j then v else if k < j then 0#n else Cells.read rest k

/-- Store `v` at number `k`, keeping the canonical form: storing 0 removes the entry. -/
def Cells.write {n : Nat} : Cells n → Nat → BitVec n → Cells n
  | [], k, v => if v = 0#n then [] else [(k, v)]
  | (j, w) :: rest, k, v =>
    if k < j then (if v = 0#n then (j, w) :: rest else (k, v) :: (j, w) :: rest)
    else if k = j then (if v = 0#n then rest else (k, v) :: rest)
    else (j, w) :: Cells.write rest k v

/-- The entries rise strictly from `lo` on and none is 0. -/
def Cells.wfFrom {n : Nat} (lo : Nat) : Cells n → Bool
  | [] => true
  | (j, v) :: rest => decide (lo ≤ j) && decide (v ≠ 0#n) && Cells.wfFrom (j + 1) rest

/-- The canonical form. -/
def Cells.wf {n : Nat} (m : Cells n) : Bool := Cells.wfFrom 0 m

/-- Every entry has a number below `size`. -/
def Cells.below {n : Nat} (size : Nat) (m : Cells n) : Bool := m.all (fun e => decide (e.1 < size))

/-- The canonical form of a memory: addresses strictly rising, no entry equal to what an unlisted address
reads as. -/
def Memory.wf (m : Memory) : Bool := Cells.wf (n := 8) m

def Memory.read (m : Memory) (k : Nat) : Byte := Cells.read (n := 8) m k

def Memory.write (m : Memory) (k : Nat) (v : Byte) : Memory := Cells.write (n := 8) m k v

end Sys2Proof.Machine
end

