-- ==== Sys2Proof/Machine/Cartridge.lean ====
section
/-! DEFINITION. The cartridge: loading an image (20_memory.md R101 to R105, 70_reset_and_hazards.md R431)
and the mapper's address translation and registers (20_memory.md R100, R106 to R114). -/

namespace Sys2Proof.Machine

/-! ## Loading -/

/-- Why an image is refused at load (R103, R104, R105, R431). -/
inductive LoadError where
  | imageTooShort
  | unsupportedMapper (code : Byte)
  | unsupportedRomSize (code : Byte)
  | unsupportedRamSize (code : Byte)
  deriving DecidableEq, Repr

/-- The type codes of R102: the mapper, and whether the cartridge has external RAM. -/
def mapperOfType (code : Byte) : Option (MapperKind × Bool) :=
  match code.toNat with
  | 0x00 => some (.none, false)
  | 0x08 => some (.none, true)
  | 0x09 => some (.none, true)
  | 0x01 => some (.type1, false)
  | 0x02 => some (.type1, true)
  | 0x03 => some (.type1, true)
  | _ => none

/-- ROM_BANKS from header byte 0x0148 (R104). -/
def romBanksOfCode (code : Byte) : Option Nat :=
  if code.toNat ≤ 8 then some (2 * 2 ^ code.toNat) else none

/-- ERAM_SIZE from header byte 0x0149 (R105). -/
def eramSizeOfCode (code : Byte) : Option Nat :=
  match code.toNat with
  | 0 => some 0
  | 1 => some 2048
  | 2 => some 8192
  | 3 => some 32768
  | 4 => some 131072
  | 5 => some 65536
  | _ => none

/-- The image's bytes that are not 0x00, numbered from `k`. -/
def imageCells : Nat → List Byte → Memory
  | _, [] => []
  | k, v :: rest => if v = 0 then imageCells (k + 1) rest else (k, v) :: imageCells (k + 1) rest

/-- Steps 1 and 2 of `Reset(image)` (R431), in its order of refusals. -/
def loadCartridge (image : List Byte) : Except LoadError Cartridge :=
  if image.length < 0x150 then .error .imageTooShort
  else
    match mapperOfType (image.getD 0x147 0), romBanksOfCode (image.getD 0x148 0), eramSizeOfCode (image.getD 0x149 0) with
    | none, _, _ => .error (.unsupportedMapper (image.getD 0x147 0))
    | some _, none, _ => .error (.unsupportedRomSize (image.getD 0x148 0))
    | some _, some _, none => .error (.unsupportedRamSize (image.getD 0x149 0))
    | some (kind, hasRam), some banks, some size =>
      .ok { mapper := kind
            romBanks := banks
            eramSize := if hasRam then size else 0
            romLen := image.length
            rom := imageCells 0 image }

/-- `Reset(image)` (R430, R431): a refusal, or the machine with the record's cells, the launch contents of
the memories (R56) and the loaded cartridge. -/
def resetWithImage (r : ResetRecord) (ram : Ram) (params : Config) (image : List Byte) : Except LoadError State :=
  match loadCartridge image with
  | .error e => .error e
  | .ok cart => .ok (State.ofReset r ram { params with cart := cart })

/-! ## Translation -/

/-- `ROM[off]`: SENTINEL at or beyond the end of the image (R104). -/
def romByte (cfg : Config) (off : Nat) : Byte :=
  if off < cfg.cart.romLen then Memory.read cfg.cart.rom off else cfg.sentinel

/-- The effective ROM bank of the type-1 mapper, before the reduction (R112). -/
def romBank (m : Mapper) : Nat :=
  if m.mode then m.bank1.toNat else m.bank2.toNat * 32 + m.bank1.toNat

/-- The ROM offset read at address `n` of 0x0000-0x7FFF (R106, R111, R112). -/
def romOffset (s : State) (n : Nat) : Nat :=
  match s.cfg.cart.mapper with
  | .none => n
  | .type1 =>
    if n < 0x4000 then n else (romBank s.mapper % s.cfg.cart.romBanks) * 0x4000 + (n - 0x4000)

/-- The external-RAM byte number for address 0xA000 + `n`; none while it is absent or disabled (R106,
R113). -/
def eramIndex (s : State) (n : Nat) : Option Nat :=
  let size := s.cfg.cart.eramSize
  if size = 0 then none
  else
    match s.cfg.cart.mapper with
    | .none => some (n % size)
    | .type1 =>
      if s.mapper.ramEnable then
        some (((if s.mapper.mode then s.mapper.bank2.toNat else 0) * 0x2000 + n) % size)
      else none

/-- The type-1 register a write to address `n` of 0x0000-0x7FFF reaches (R107 to R110). -/
def mapperRegWrite (n : Nat) (v : Byte) (m : Mapper) : Mapper :=
  if n < 0x2000 then { m with ramEnable := decide (v.toNat % 16 = 0xA) }
  else if n < 0x4000 then
    let k : BitVec 5 := v.extractLsb' 0 5
    { m with bank1 := if k = 0 then 1 else k }
  else if n < 0x6000 then { m with bank2 := v.extractLsb' 0 2 }
  else { m with mode := v.getLsbD 0 }

/-- `MapperWrite` to 0x0000-0x7FFF: ignored without a controller (R106), else a register write. -/
def mapperWrite (n : Nat) (v : Byte) (s : State) : State :=
  match s.cfg.cart.mapper with
  | .none => s
  | .type1 => { s with mapper := mapperRegWrite n v s.mapper }

end Sys2Proof.Machine
end

