-- ==== Sys2Proof/Machine/Bits.lean ====
section
/-! DEFINITION. Bit-field helpers used by the meanings and the devices (00_scope.md R9). -/

namespace Sys2Proof.Machine

/-- `sext_16` of a byte (R9, R133). -/
def sext16 (e : Byte) : Word := e.signExtend 16

/-- `0xFF00 + zext_16(n)`, the address of the `LDH` forms (R133, R171 to R174). -/
def highPage (n : Byte) : Word := wordOf 0xFF n

/-- One bit of a byte. -/
def bitOf (v : Byte) (i : Nat) : Bool := v.getLsbD i

/-- The byte with bit `b` set and no other (`1 << b`, R273 to R276). -/
def bitMask (b : BitVec 3) : Byte := 1#8 <<< b.toNat

/-- The number of the lowest set bit of a 5-bit value that is not 0 (R327). -/
def lowestSet (v : BitVec 5) : Nat :=
  if v.getLsbD 0 then 0
  else if v.getLsbD 1 then 1
  else if v.getLsbD 2 then 2
  else if v.getLsbD 3 then 3
  else 4

end Sys2Proof.Machine
end

