-- ==== Sys2Proof/Machine/Timer.lean ====
section
/-! DEFINITION. The interrupt request line and the Timer (60_exceptions.md R324, R340 to R347). -/

namespace Sys2Proof.Machine

/-- `RaiseInt(i)` (R324): `IF[i] <- 1`. -/
def raiseInt (i : Nat) (s : State) : State :=
  { s with irq := { s.irq with iflag := s.irq.iflag ||| (1#5 <<< i) } }

/-- `period(TAC)` in clock cycles (R342). -/
def timaPeriod (tac : BitVec 3) : Nat :=
  match tac.toNat % 4 with
  | 0 => 1024
  | 1 => 16
  | 2 => 64
  | _ => 256

/-- One tick of TIMA: past 0xFF it reloads from TMA and raises the Timer interrupt (R343). -/
def timaTick (s : State) : State :=
  if s.timer.tima = 0xFF then
    raiseInt 2 { s with timer := { s.timer with tima := s.timer.tma } }
  else { s with timer := { s.timer with tima := s.timer.tima + 1 } }

def timaTicks : Nat → State → State
  | 0, s => s
  | k + 1, s => timaTicks k (timaTick s)

/-- The divider's part of `TimerRun(t)` (R341, R343). The loop of R343 subtracts 256 as often as it fits;
so many increments DIV gets, and the remainder stays. -/
def divRun (t : Nat) (s : State) : State :=
  let sum := s.timer.divSub + t
  { s with timer := { s.timer with div := s.timer.div + BitVec.ofNat 8 (sum / 256), divSub := sum % 256 } }

/-- The counter's part of `TimerRun(t)` (R343): nothing while TAC bit 2 is 0; else one tick for each
period that fits, the remainder kept. -/
def timaRun (t : Nat) (s : State) : State :=
  if s.timer.tac.getLsbD 2 then
    let sum := s.timer.timaSub + t
    let p := timaPeriod s.timer.tac
    timaTicks (sum / p) { s with timer := { s.timer with timaSub := sum % p } }
  else s

/-- `TimerRun(t)` (R343). -/
def timerRun (t : Nat) (s : State) : State := timaRun t (divRun t s)

/-- A write to DIV clears DIV and its sub-cycle counter, whatever is written (R344). -/
def divWrite (s : State) : State :=
  { s with timer := { s.timer with div := 0, divSub := 0 } }

/-- A write to TAC (R346): new clock-select bits clear the accumulator; three bits are stored. -/
def tacWrite (v : Byte) (s : State) : State :=
  let tac : BitVec 3 := v.extractLsb' 0 3
  { s with timer :=
    { s.timer with
      timaSub := if tac.toNat % 4 = s.timer.tac.toNat % 4 then s.timer.timaSub else 0
      tac := tac } }

end Sys2Proof.Machine
end

