-- ==== Sys2Proof/Machine/HostInput.lean ====
section
/-! DEFINITION. The joypad register and what the host does between two system steps (60_exceptions.md
R377, R390 to R393; 00_scope.md R6). -/

namespace Sys2Proof.Machine

/-- One bit of the status nibble: 0 when a pressed button of a selected group stands on it (R392). -/
def nibbleBit (j : Joypad) (dir action : Bool) : Bool :=
  !((!j.selDir && dir) || (!j.selAction && action))

/-- The byte read from P1 (R392). -/
def p1Read (j : Joypad) : Byte :=
  let k := j.buttons
  0b11#2 ++ BitVec.ofBool j.selAction ++ BitVec.ofBool j.selDir
    ++ BitVec.ofBool (nibbleBit j k.down k.start) ++ BitVec.ofBool (nibbleBit j k.up k.select)
    ++ BitVec.ofBool (nibbleBit j k.left k.b) ++ BitVec.ofBool (nibbleBit j k.right k.a)

/-- A write to P1 stores the two select bits (R391). -/
def p1Write (v : Byte) (s : State) : State :=
  { s with joypad := { s.joypad with selAction := v.getLsbD 5, selDir := v.getLsbD 4 } }

def Buttons.get (k : Buttons) : Button → Bool
  | .right  => k.right
  | .left   => k.left
  | .up     => k.up
  | .down   => k.down
  | .a      => k.a
  | .b      => k.b
  | .select => k.select
  | .start  => k.start

def Buttons.set (k : Buttons) (button : Button) (pressed : Bool) : Buttons :=
  match button with
  | .right  => { k with right := pressed }
  | .left   => { k with left := pressed }
  | .up     => { k with up := pressed }
  | .down   => { k with down := pressed }
  | .a      => { k with a := pressed }
  | .b      => { k with b := pressed }
  | .select => { k with select := pressed }
  | .start  => { k with start := pressed }

/-- The host sets one button; a change from released to pressed requests the Joypad interrupt (R393). -/
def setButton (button : Button) (pressed : Bool) (s : State) : State :=
  let s1 := { s with joypad := { s.joypad with buttons := s.joypad.buttons.set button pressed } }
  if pressed && !s.joypad.buttons.get button then raiseInt 4 s1 else s1

/-- The host clears `frame_ready` (R377). -/
def clearFrameReady (s : State) : State := { s with ppu := { s.ppu with frameReady := false } }

def hostAct (act : HostAction) (s : State) : State :=
  match act with
  | .setButton button pressed => setButton button pressed s
  | .clearFrameReady => clearFrameReady s

/-- What the host does before this system step: the oracle's first entry, which is used up (log entry 4). -/
def hostPhase (s : State) : State :=
  match s.hostInput with
  | [] => s
  | acts :: rest => acts.foldl (fun t act => hostAct act t) { s with hostInput := rest }

end Sys2Proof.Machine
end

