-- ==== Sys2Proof/Machine/Render.lean ====
section
/-! DEFINITION. What the PPU draws (60_exceptions.md R372 to R376): tiles, background, window, sprites.
Rendering reads VRAM, OAM and the PPU's registers directly, not through the bus (20_memory.md R63). -/

namespace Sys2Proof.Machine

/-- LCD_W and LCD_H (00_scope.md R5). -/
def lcdW : Nat := 160
def lcdH : Nat := 144

/-- `framebuffer[y][x]` (R48). -/
def pixelAt (s : State) (y x : Nat) : BitVec 2 := Cells.read s.ppu.framebuffer (lcdW * y + x)

/-- `framebuffer[y][x] <- shade`; there is no pixel outside 160 x 144 (log entry 11). -/
def setPixel (y x : Nat) (shade : BitVec 2) (s : State) : State :=
  if y < lcdH ∧ x < lcdW then
    { s with ppu := { s.ppu with framebuffer := Cells.write s.ppu.framebuffer (lcdW * y + x) shade } }
  else s

/-- `V(a)`, the VRAM byte at CPU address `a` (section 8). -/
def vramAt (s : State) (a : Nat) : Byte := Memory.read s.ram.vram (a - 0x8000)

/-- Bit `i` of LCDC (R39). -/
def lcdcBit (s : State) (i : Nat) : Bool := bitOf s.ppu.lcdc i

/-- `TileRowColour` (R372): the 2-bit colour index of column `c` of row `r` of a tile. -/
def tileRowColour (s : State) (tileAddr r c : Nat) : BitVec 2 :=
  let lo := vramAt s (tileAddr + 2 * r)
  let hi := vramAt s (tileAddr + 2 * r + 1)
  BitVec.ofBool (bitOf hi (7 - c)) ++ BitVec.ofBool (bitOf lo (7 - c))

/-- `BgTileAddr` (R372): unsigned index from 0x8000, or signed index from 0x9000. -/
def bgTileAddr (s : State) (idx : Byte) : Nat :=
  if lcdcBit s 4 then 0x8000 + 16 * idx.toNat else ((0x9000 : Int) + 16 * idx.toInt).toNat

/-- `MapColour` (R372): the colour index of a point of the 256 x 256 map space. -/
def mapColour (s : State) (mapBase px py : Nat) : BitVec 2 :=
  let idx := vramAt s (mapBase + 32 * (py / 8) + px / 8)
  tileRowColour s (bgTileAddr s idx) (py % 8) (px % 8)

/-- `Shade(palette, colour)` (R372, R45). -/
def shade (palette : Byte) (colour : BitVec 2) : BitVec 2 :=
  (palette >>> (2 * colour.toNat)).extractLsb' 0 2

/-- `BgColour` (R373). -/
def bgColour (s : State) (x ly : Nat) : BitVec 2 :=
  mapColour s (if lcdcBit s 3 then 0x9C00 else 0x9800)
    ((s.ppu.scx.toNat + x) % 256) ((s.ppu.scy.toNat + ly) % 256)

/-- `WindowCovers` (R373). -/
def windowCovers (s : State) (x ly : Nat) : Bool :=
  lcdcBit s 5 && decide (ly ≥ s.ppu.wy.toNat) && decide (x + 7 ≥ s.ppu.wx.toNat)

/-- `WinColour` (R373), used only where the window covers the pixel. -/
def winColour (s : State) (x ly : Nat) : BitVec 2 :=
  mapColour s (if lcdcBit s 6 then 0x9C00 else 0x9800) (x + 7 - s.ppu.wx.toNat) (ly - s.ppu.wy.toNat)

/-- The shade `RenderScanline(ly)` gives pixel `x` (R374). -/
def scanlineShade (s : State) (x ly : Nat) : BitVec 2 :=
  if !lcdcBit s 0 then 0
  else if windowCovers s x ly then shade s.ppu.bgp (winColour s x ly)
  else shade s.ppu.bgp (bgColour s x ly)

/-- `RenderScanline(ly)` (R374): every pixel of the row, from the left. -/
def renderScanline (ly : Nat) (s : State) : State :=
  (List.range lcdW).foldl (fun t x => setPixel ly x (scanlineShade t x ly) t) s

/-- One OAM entry (R375). -/
structure Sprite where
  y    : Byte
  x    : Byte
  tile : Byte
  attr : Byte
  deriving DecidableEq, Repr

/-- OAM entry `i`: the four bytes at 4 i (R375). -/
def spriteAt (s : State) (i : Nat) : Sprite where
  y := Memory.read s.ram.oam (4 * i)
  x := Memory.read s.ram.oam (4 * i + 1)
  tile := Memory.read s.ram.oam (4 * i + 2)
  attr := Memory.read s.ram.oam (4 * i + 3)

/-- The height of a sprite: LCDC bit 2 (R375). -/
def spriteHeight (s : State) : Nat := if lcdcBit s 2 then 16 else 8

/-- The tile number used: bit 0 cleared for 8 x 16 sprites (R375). -/
def spriteTile (s : State) (sp : Sprite) : Nat :=
  if lcdcBit s 2 then (sp.tile &&& 0xFE).toNat else sp.tile.toNat

/-- The inner body of `RenderSprites` (R375): pixel (r, c) of a sprite. -/
def renderSpritePixel (sp : Sprite) (r c : Nat) (s : State) : State :=
  let h := spriteHeight s
  let sy : Int := (sp.y.toNat : Int) - 16 + r
  let sx : Int := (sp.x.toNat : Int) - 8 + c
  if sy < 0 ∨ sy ≥ 144 ∨ sx < 0 ∨ sx ≥ 160 then s
  else
    let tr := if bitOf sp.attr 6 then h - 1 - r else r
    let tc := if bitOf sp.attr 5 then 7 - c else c
    let colour := tileRowColour s (0x8000 + 16 * spriteTile s sp) tr tc
    if colour = 0 then s
    else if bitOf sp.attr 7 && decide (pixelAt s sy.toNat sx.toNat ≠ shade s.ppu.bgp 0) then s
    else
      let pal := if bitOf sp.attr 4 then s.ppu.obp1 else s.ppu.obp0
      setPixel sy.toNat sx.toNat (shade pal colour) s

/-- "skip if off-screen" (R375). -/
def spriteOffScreen (s : State) (sp : Sprite) : Bool :=
  let top : Int := (sp.y.toNat : Int) - 16
  let left : Int := (sp.x.toNat : Int) - 8
  decide (top + spriteHeight s ≤ 0) || decide (top ≥ 144) || decide (left + 8 ≤ 0) || decide (left ≥ 160)

/-- One sprite, row by row, each from the left (R375). -/
def renderSprite (sp : Sprite) (s : State) : State :=
  if spriteOffScreen s sp then s
  else (List.range (spriteHeight s)).foldl
    (fun t r => (List.range 8).foldl (fun u c => renderSpritePixel sp r c u) t) s

/-- `RenderSprites()` (R375, R376): entries 39 down to 0, so that entry 0 is on top. -/
def renderSprites (s : State) : State :=
  if lcdcBit s 1 then (List.range 40).foldl (fun t k => renderSprite (spriteAt t (39 - k)) t) s else s

end Sys2Proof.Machine
end

