-- ==== Sys2Proof/Machine/Ppu.lean ====
section
/-! DEFINITION. The PPU's timing state machine and the writes to LCDC and STAT (60_exceptions.md R360 to
R371). -/

namespace Sys2Proof.Machine

/-- The mode code of STAT bits 1:0 (R40, R361). -/
def PpuMode.code : PpuMode → BitVec 2
  | .hblank     => 0
  | .vblank     => 1
  | .oamScan    => 2
  | .vramAccess => 3

/-- The mode budgets in clock cycles; VBLANK counts by lines of 456 (R361, R362). -/
def PpuMode.budget : PpuMode → Nat
  | .hblank     => 204
  | .vblank     => 456
  | .oamScan    => 80
  | .vramAccess => 172

def setMode (m : PpuMode) (s : State) : State := { s with ppu := { s.ppu with mode := m } }

def setLy (v : Byte) (s : State) : State := { s with ppu := { s.ppu with ly := v } }

def setModeClock (k : Nat) (s : State) : State := { s with ppu := { s.ppu with modeClock := k } }

/-- `EvalStat()` (R367): the coincidence bit, and the STAT interrupt if STAT[3], or STAT[6] with
coincidence. -/
def evalStat (s : State) : State :=
  let co := decide (s.ppu.ly = s.ppu.lyc)
  let s1 := { s with ppu := { s.ppu with coincidence := co } }
  if s.ppu.statEnable.getLsbD 0 || (s.ppu.statEnable.getLsbD 3 && co) then raiseInt 1 s1 else s1

/-- `EndOfLine()` (R369). -/
def endOfLine (s : State) : State :=
  let s1 := renderScanline s.ppu.ly.toNat s
  let s2 := setLy (s1.ppu.ly + 1) s1
  if s2.ppu.ly = 144 then raiseInt 0 (setMode .vblank s2) else setMode .oamScan s2

/-- `VblankLine()` (R370). -/
def vblankLine (s : State) : State :=
  let s1 := setLy (s.ppu.ly + 1) s
  if s1.ppu.ly = 154 then
    let s2 := setLy 0 (renderSprites s1)
    setMode .oamScan { s2 with ppu := { s2.ppu with frameReady := true } }
  else s1

/-- The effect of leaving a mode (a VBLANK line) whose budget is used up (R362, R366). -/
def ppuTransition (s : State) : State :=
  match s.ppu.mode with
  | .oamScan    => setMode .vramAccess s
  | .vramAccess => evalStat (setMode .hblank s)
  | .hblank     => endOfLine s
  | .vblank     => vblankLine s

/-- The loop of `PpuRun` (R362), at most `fuel` transitions. -/
def ppuLoop : Nat → State → State
  | 0, s => s
  | k + 1, s =>
    if s.ppu.mode.budget ≤ s.ppu.modeClock then
      ppuLoop k (ppuTransition (setModeClock (s.ppu.modeClock - s.ppu.mode.budget) s))
    else s

/-- `PpuRun(t)` (R362, R363). Every budget is at least 80, so `modeClock / 80` transitions are enough
(log entry 9). -/
def ppuRun (t : Nat) (s : State) : State :=
  if lcdcBit s 7 then
    let s1 := setModeClock (s.ppu.modeClock + t) s
    ppuLoop (s1.ppu.modeClock / 80) s1
  else s

/-- A write to LCDC (R364): bit 7 going off or on restarts the timing machine. -/
def lcdcWrite (v : Byte) (s : State) : State :=
  let old := lcdcBit s 7
  let s1 := { s with ppu := { s.ppu with lcdc := v } }
  if old && !bitOf v 7 then setModeClock 0 (setMode .hblank (setLy 0 s1))
  else if !old && bitOf v 7 then setModeClock 0 (setMode .oamScan (setLy 0 s1))
  else s1

/-- The byte read from STAT (R365). -/
def statRead (s : State) : Byte :=
  0b1#1 ++ s.ppu.statEnable ++ BitVec.ofBool s.ppu.coincidence ++ s.ppu.mode.code

/-- A write to STAT stores bits 6:3 (R365). -/
def statWrite (v : Byte) (s : State) : State :=
  { s with ppu := { s.ppu with statEnable := v.extractLsb' 3 4 } }

end Sys2Proof.Machine
end

