-- ==== Sys2Proof/Machine/Bus.lean ====
section
/-! DEFINITION. The bus: one address decoder for every read and write (20_memory.md R60 to R99), the I/O
registers (R76) and the OAM-DMA copy (R90 to R92). -/

namespace Sys2Proof.Machine

/-- The registers of the I/O block 0xFF00-0xFF7F (10_state.md R53). -/
inductive IoReg where
  | p1 | div | tima | tma | tac | iflag | lcdc | stat | scy | scx | ly | lyc | dma | bgp | obp0 | obp1 | wy | wx | svbk
  deriving DecidableEq, Repr

/-- The register at address `n`, if there is one (R53, R85). -/
def ioReg (n : Nat) : Option IoReg :=
  match n with
  | 0xFF00 => some .p1
  | 0xFF04 => some .div
  | 0xFF05 => some .tima
  | 0xFF06 => some .tma
  | 0xFF07 => some .tac
  | 0xFF0F => some .iflag
  | 0xFF40 => some .lcdc
  | 0xFF41 => some .stat
  | 0xFF42 => some .scy
  | 0xFF43 => some .scx
  | 0xFF44 => some .ly
  | 0xFF45 => some .lyc
  | 0xFF46 => some .dma
  | 0xFF47 => some .bgp
  | 0xFF48 => some .obp0
  | 0xFF49 => some .obp1
  | 0xFF4A => some .wy
  | 0xFF4B => some .wx
  | 0xFF70 => some .svbk
  | _ => none

/-- What stands at an address: the one handler of R61 and the place in it. `openBus` has no backing
hardware (R64). -/
inductive Target where
  | rom (n : Nat)
  | vram (i : Nat)
  | eram (i : Nat)
  | wram (i : Nat)
  | oam (i : Nat)
  | hram (i : Nat)
  | io (r : IoReg)
  | ie
  | openBus
  deriving DecidableEq, Repr

/-- The work-RAM bank at 0xD000-0xDFFF (R52). -/
def wramBank (s : State) : Nat := (max s.svbk.toNat 1 - 1) % (s.cfg.wramBanks - 1) + 1

/-- The work-RAM byte number of address `n` of 0xC000-0xDFFF (R69, R72). -/
def wramIndex (s : State) (n : Nat) : Nat :=
  if n < 0xD000 then n - 0xC000 else wramBank s * 0x1000 + (n - 0xD000)

/-- The address decoder (R62): echo RAM is the work RAM 0x2000 lower (R73); disabled or absent external
RAM, 0xFEA0-0xFEFF and unlisted I/O addresses are unbacked (R75, R85, R113). -/
def target (s : State) (a : Word) : Target :=
  let n := a.toNat
  if n < 0x8000 then .rom n
  else if n < 0xA000 then .vram (n - 0x8000)
  else if n < 0xC000 then
    match eramIndex s (n - 0xA000) with
    | some i => .eram i
    | none => .openBus
  else if n < 0xE000 then .wram (wramIndex s n)
  else if n < 0xFE00 then .wram (wramIndex s (n - 0x2000))
  else if n < 0xFEA0 then .oam (n - 0xFE00)
  else if n < 0xFF00 then .openBus
  else if n < 0xFF80 then
    match ioReg n with
    | some r => .io r
    | none => .openBus
  else if n < 0xFFFF then .hram (n - 0xFF80)
  else .ie

/-- The read value of each I/O register (R76). -/
def readIo (s : State) : IoReg → Byte
  | .p1    => p1Read s.joypad
  | .div   => s.timer.div
  | .tima  => s.timer.tima
  | .tma   => s.timer.tma
  | .tac   => 0b11111#5 ++ s.timer.tac
  | .iflag => 0b111#3 ++ s.irq.iflag
  | .lcdc  => s.ppu.lcdc
  | .stat  => statRead s
  | .scy   => s.ppu.scy
  | .scx   => s.ppu.scx
  | .ly    => s.ppu.ly
  | .lyc   => s.ppu.lyc
  | .dma   => s.dma
  | .bgp   => s.ppu.bgp
  | .obp0  => s.ppu.obp0
  | .obp1  => s.ppu.obp1
  | .wy    => s.ppu.wy
  | .wx    => s.ppu.wx
  | .svbk  => 0b11111#5 ++ s.svbk

def readTarget (s : State) : Target → Byte
  | .rom n   => romByte s.cfg (romOffset s n)
  | .vram i  => Memory.read s.ram.vram i
  | .eram i  => Memory.read s.ram.eram i
  | .wram i  => Memory.read s.ram.wram i
  | .oam i   => Memory.read s.ram.oam i
  | .hram i  => Memory.read s.ram.hram i
  | .io r    => readIo s r
  | .ie      => s.irq.ie
  | .openBus => s.cfg.sentinel

/-- `BusRead(addr)` (R61): total, and with no side effect (R99). -/
def busRead (s : State) (a : Word) : Byte := readTarget s (target s a)

/-- `OAM[i] <- v`. -/
def oamStore (i : Nat) (v : Byte) (s : State) : State :=
  { s with ram := { s.ram with oam := Memory.write s.ram.oam i v } }

/-- The OAM-DMA copy (R91): the register, then 160 bytes in ascending order, read through the bus. -/
def dmaWrite (v : Byte) (s : State) : State :=
  (List.range 160).foldl (fun t i => oamStore i (busRead t (wordOf v 0 + BitVec.ofNat 16 i)) t)
    { s with dma := v }

/-- What a write to each I/O register does (R76). -/
def writeIo (r : IoReg) (v : Byte) (s : State) : State :=
  match r with
  | .p1    => p1Write v s
  | .div   => divWrite s
  | .tima  => { s with timer := { s.timer with tima := v } }
  | .tma   => { s with timer := { s.timer with tma := v } }
  | .tac   => tacWrite v s
  | .iflag => { s with irq := { s.irq with iflag := v.extractLsb' 0 5 } }
  | .lcdc  => lcdcWrite v s
  | .stat  => statWrite v s
  | .scy   => { s with ppu := { s.ppu with scy := v } }
  | .scx   => { s with ppu := { s.ppu with scx := v } }
  | .ly    => s
  | .lyc   => { s with ppu := { s.ppu with lyc := v } }
  | .dma   => dmaWrite v s
  | .bgp   => { s with ppu := { s.ppu with bgp := v } }
  | .obp0  => { s with ppu := { s.ppu with obp0 := v } }
  | .obp1  => { s with ppu := { s.ppu with obp1 := v } }
  | .wy    => { s with ppu := { s.ppu with wy := v } }
  | .wx    => { s with ppu := { s.ppu with wx := v } }
  | .svbk  => { s with svbk := v.extractLsb' 0 3 }

def writeTarget (x : Target) (v : Byte) (s : State) : State :=
  match x with
  | .rom n   => mapperWrite n v s
  | .vram i  => { s with ram := { s.ram with vram := Memory.write s.ram.vram i v } }
  | .eram i  => { s with ram := { s.ram with eram := Memory.write s.ram.eram i v } }
  | .wram i  => { s with ram := { s.ram with wram := Memory.write s.ram.wram i v } }
  | .oam i   => oamStore i v s
  | .hram i  => { s with ram := { s.ram with hram := Memory.write s.ram.hram i v } }
  | .io r    => writeIo r v s
  | .ie      => { s with irq := { s.irq with ie := v } }
  | .openBus => s

/-- `BusWrite(addr, v)` (R61): total. -/
def busWrite (a : Word) (v : Byte) (s : State) : State := writeTarget (target s a) v s

end Sys2Proof.Machine
end

