-- ==== Sys2Proof/Machine/Flags.lean ====
section
/-! DEFINITION. The flag computations: every adder, subtracter, rotate and adjustment the spec names
(42_alu8.md R200 to R202, R231; 43_alu16.md R240, R241; 44_rotate_shift_bit.md R250). -/

namespace Sys2Proof.Machine

/-- The four flags (10_state.md R23). -/
structure Flags where
  z : Bool
  n : Bool
  h : Bool
  c : Bool
  deriving DecidableEq, Repr

/-- F as a byte: Z N Hf Cf in bits 7 to 4, bits 3 to 0 zero (R22, R23). -/
def Flags.pack (fl : Flags) : Byte :=
  BitVec.ofBool fl.z ++ BitVec.ofBool fl.n ++ BitVec.ofBool fl.h ++ BitVec.ofBool fl.c ++ 0#4

/-- The flags a byte of F holds (R23). -/
def Flags.ofByte (f : Byte) : Flags where
  z := bitOf f 7
  n := bitOf f 6
  h := bitOf f 5
  c := bitOf f 4

/-- `Add8` (R200): 9-bit result space, half-carry out of bit 3, carry out of bit 7. -/
def add8 (a b : Byte) (cin : Bool) : Byte × Flags :=
  let s := a.toNat + b.toNat + cin.toNat
  let r := BitVec.ofNat 8 s
  (r, { z := decide (r = 0)
        n := false
        h := decide (a.toNat % 16 + b.toNat % 16 + cin.toNat > 0x0F)
        c := decide (s > 0xFF) })

/-- `Sub8` (R201): Hf and Cf are borrows into bit 4 and out of bit 7. -/
def sub8 (a b : Byte) (cin : Bool) : Byte × Flags :=
  let d : Int := (a.toNat : Int) - b.toNat - cin.toNat
  let r := BitVec.ofInt 8 d
  (r, { z := decide (r = 0)
        n := true
        h := decide ((a.toNat % 16 : Int) - (b.toNat % 16 : Nat) - cin.toNat < 0)
        c := decide (d < 0) })

/-- AND's result flags (R215). -/
def andFlags (r : Byte) : Flags := { z := decide (r = 0), n := false, h := true, c := false }

/-- XOR's and OR's result flags (R218, R221). -/
def orFlags (r : Byte) : Flags := { z := decide (r = 0), n := false, h := false, c := false }

/-- INC's result and flags; Cf is kept (R227). -/
def inc8 (v : Byte) (old : Flags) : Byte × Flags :=
  let r := v + 1
  (r, { z := decide (r = 0), n := false, h := decide (v.toNat % 16 = 0x0F), c := old.c })

/-- DEC's result and flags; Cf is kept (R229). -/
def dec8 (v : Byte) (old : Flags) : Byte × Flags :=
  let r := v - 1
  (r, { z := decide (r = 0), n := true, h := decide (v.toNat % 16 = 0x00), c := old.c })

/-- The adjustment byte of DAA (R231), from A and the flags before it. -/
def daaAdjust (a : Byte) (old : Flags) : Byte :=
  (if old.h then 0x06 else 0x00) ||| (if old.c then 0x60 else 0x00)
    ||| (if !old.n && decide (a.toNat % 16 > 0x09) then 0x06 else 0x00)
    ||| (if !old.n && decide (a.toNat > 0x99) then 0x60 else 0x00)

/-- DAA (R231): N is kept, Hf cleared. -/
def daa8 (a : Byte) (old : Flags) : Byte × Flags :=
  let adj := daaAdjust a old
  let r := if old.n then a - adj else a + adj
  (r, { z := decide (r = 0), n := old.n, h := false, c := decide (adj.toNat ≥ 0x60) })

/-- `AddSpE` (R240): the sum, and carries out of bits 3 and 7 of the unsigned low-byte addition. -/
def addSpE (s : Word) (e : Byte) : Word × Flags :=
  (s + sext16 e,
    { z := false
      n := false
      h := decide (s.toNat % 0x10 + e.toNat % 0x10 > 0x0F)
      c := decide (s.toNat % 0x100 + e.toNat > 0xFF) })

/-- The sum and flags of `ADD HL,rr` (R241): carries out of bits 11 and 15, Z kept. -/
def add16 (a b : Word) (old : Flags) : Word × Flags :=
  (a + b,
    { z := old.z
      n := false
      h := decide (a.toNat % 0x1000 + b.toNat % 0x1000 > 0x0FFF)
      c := decide (a.toNat + b.toNat > 0xFFFF) })

/-- The eight rotate and shift operations (R132, R250), in the order of their codes. -/
inductive RotKind where
  | rlc | rrc | rl | rr | sla | sra | swap | srl
  deriving DecidableEq, Repr

/-- `RotOp` (R250): the result byte and the carry out. -/
def rotOp (k : RotKind) (v : Byte) (cin : Bool) : Byte × Bool :=
  let v7 := bitOf v 7
  let v0 := bitOf v 0
  let low7 : BitVec 7 := v.extractLsb' 0 7
  let high7 : BitVec 7 := v.extractLsb' 1 7
  match k with
  | .rlc  => (low7 ++ BitVec.ofBool v7, v7)
  | .rrc  => (BitVec.ofBool v0 ++ high7, v0)
  | .rl   => (low7 ++ BitVec.ofBool cin, v7)
  | .rr   => (BitVec.ofBool cin ++ high7, v0)
  | .sla  => (low7 ++ 0#1, v7)
  | .sra  => (BitVec.ofBool v7 ++ high7, v0)
  | .swap => (v.extractLsb' 0 4 ++ v.extractLsb' 4 4, false)
  | .srl  => (0#1 ++ high7, v0)

/-- The flags of an extended rotate or shift (44_rotate_shift_bit.md section 3). -/
def rotFlags (r : Byte) (co : Bool) : Flags := { z := decide (r = 0), n := false, h := false, c := co }

/-- The flags of an accumulator rotate: Z is cleared (R251). -/
def rotAccFlags (co : Bool) : Flags := { z := false, n := false, h := false, c := co }

/-- The flags of BIT: Z is the complement of the tested bit, Cf is kept (R271). -/
def bitFlags (v : Byte) (b : BitVec 3) (old : Flags) : Flags :=
  { z := !bitOf v b.toNat, n := false, h := true, c := old.c }

end Sys2Proof.Machine
end

