-- ==== Sys2Proof/Machine/Ops.lean ====
section
/-! DEFINITION. The named operations on registers, stack and control cells, and the two ways the machine
leaves the instruction stream: interrupt dispatch and the illegal-opcode stop, with the return from an
interrupt (10_state.md R20 to R29; 41_load16_stack.md R185, R186; 60_exceptions.md R320, R325 to R331). -/

namespace Sys2Proof.Machine

/-! ## Registers -/

/-- `x[i]` (R10, R132). -/
def Cpu.reg8 (c : Cpu) : Reg8 → Byte
  | .b => c.b
  | .c => c.c
  | .d => c.d
  | .e => c.e
  | .h => c.h
  | .l => c.l
  | .a => c.a

/-- `x[i] <- v`. -/
def Cpu.setReg8 (c : Cpu) (r : Reg8) (v : Byte) : Cpu :=
  match r with
  | .b => { c with b := v }
  | .c => { c with c := v }
  | .d => { c with d := v }
  | .e => { c with e := v }
  | .h => { c with h := v }
  | .l => { c with l := v }
  | .a => { c with a := v }

def Cpu.bc (c : Cpu) : Word := wordOf c.b c.c
def Cpu.de (c : Cpu) : Word := wordOf c.d c.e
def Cpu.hl (c : Cpu) : Word := wordOf c.h c.l
def Cpu.af (c : Cpu) : Word := wordOf c.a c.f

/-- Every write to F stores `v & 0xF0` (R22). -/
def Cpu.setF (c : Cpu) (v : Byte) : Cpu := { c with f := v &&& 0xF0 }

def Cpu.setHl (c : Cpu) (v : Word) : Cpu := { c with h := hiByte v, l := loByte v }

/-- `xx[i]` with an `r16` code (R21, R132). -/
def Cpu.reg16 (c : Cpu) : Reg16 → Word
  | .bc => c.bc
  | .de => c.de
  | .hl => c.hl
  | .sp => c.sp

def Cpu.setReg16 (c : Cpu) (p : Reg16) (v : Word) : Cpu :=
  match p with
  | .bc => { c with b := hiByte v, c := loByte v }
  | .de => { c with d := hiByte v, e := loByte v }
  | .hl => c.setHl v
  | .sp => { c with sp := v }

/-- `xx[i]` with an `r16stk` code (R21, R132). -/
def Cpu.regStk (c : Cpu) : Reg16Stk → Word
  | .bc => c.bc
  | .de => c.de
  | .hl => c.hl
  | .af => c.af

/-- Writing a pair; for AF the write to F is masked (R21, R22, R196). -/
def Cpu.setRegStk (c : Cpu) (p : Reg16Stk) (v : Word) : Cpu :=
  match p with
  | .bc => { c with b := hiByte v, c := loByte v }
  | .de => { c with d := hiByte v, e := loByte v }
  | .hl => c.setHl v
  | .af => { c with a := hiByte v }.setF (loByte v)

/-- The four flags (R23). -/
def Cpu.flags (c : Cpu) : Flags := Flags.ofByte c.f

/-- `flags <- (z, n, h, c)` (R10). -/
def Cpu.setFlags (c : Cpu) (fl : Flags) : Cpu := { c with f := fl.pack }

/-- `A <- v` with the flags. -/
def Cpu.setAFlags (c : Cpu) (r : Byte × Flags) : Cpu := { c with a := r.1, f := r.2.pack }

/-- The state with another CPU part. -/
def State.withCpu (s : State) (c : Cpu) : State := { s with cpu := c }

def State.setPc (s : State) (v : Word) : State := s.withCpu { s.cpu with pc := v }

def State.setSp (s : State) (v : Word) : State := s.withCpu { s.cpu with sp := v }

def State.setIme (s : State) (v : Bool) : State := s.withCpu { s.cpu with ime := v }

def State.setEiPending (s : State) (v : Bool) : State := s.withCpu { s.cpu with eiPending := v }

def State.setHalted (s : State) (v : Bool) : State := s.withCpu { s.cpu with halted := v }

/-! ## Memory and stack -/

/-- `MemWrite(addr, 2, v)` (00_scope.md R11): low byte first, the high byte at the next address. -/
def memWrite16 (a : Word) (v : Word) (s : State) : State :=
  busWrite (a + 1) (hiByte v) (busWrite a (loByte v) s)

/-- `Push16(v)` (R185): high byte first, at the higher address. -/
def push16 (v : Word) (s : State) : State :=
  let s1 := busWrite (s.cpu.sp - 1) (hiByte v) (s.setSp (s.cpu.sp - 1))
  busWrite (s1.cpu.sp - 1) (loByte v) (s1.setSp (s1.cpu.sp - 1))

/-- The value `Pop16()` returns (R186). -/
def popValue (s : State) : Word := wordOf (busRead s (s.cpu.sp + 1)) (busRead s s.cpu.sp)

/-- The state after `Pop16()` (R186): `sp` is 2 higher, memory as before. -/
def popState (s : State) : State := s.setSp (s.cpu.sp + 2)

/-- `cond(cc)` (45_control_flow.md R280). -/
def condHolds (cc : Cond) (fl : Flags) : Bool :=
  match cc with
  | .nz => !fl.z
  | .z  => fl.z
  | .nc => !fl.c
  | .c  => fl.c

/-! ## Leaving the instruction stream -/

/-- `pending = IE & IF & 0x1F` (R325). -/
def pending (s : State) : BitVec 5 := s.irq.ie.extractLsb' 0 5 &&& s.irq.iflag

/-- `IF[i] <- 0`. -/
def clearInt (i : Nat) (s : State) : State :=
  { s with irq := { s.irq with iflag := s.irq.iflag &&& ~~~(1#5 <<< i) } }

/-- The fixed vector of interrupt `i` (R322, R329). -/
def vectorOf (i : Nat) : Word := BitVec.ofNat 16 (0x0040 + 8 * i)

/-- `Dispatch(i)`, the trap entry (R329), in its order: end of halt, push of `pc`, IME and `ei_pending`
cleared, jump to the vector, the request cleared. -/
def dispatch (i : Nat) (s : State) : State :=
  let s1 := push16 s.cpu.pc (s.setHalted false)
  clearInt i (((s1.setIme false).setEiPending false).setPc (vectorOf i))

/-- Return from an interrupt (R290, R331): `pc` is popped and IME set at once. -/
def returnFromInterrupt (s : State) : State := ((popState s).setPc (popValue s)).setIme true

/-- `IllegalOpcode(op, addr)` (R306, R320): `pc` goes back to the opcode, which stands one byte before the
fetched `pc`, and the sticky cell is set. With ILLEGAL_POLICY = nop nothing happens beyond the fetch. -/
def raiseIllegal (op : Byte) (s : State) : State :=
  match s.cfg.illegalPolicy with
  | .fault =>
    s.withCpu { s.cpu with pc := s.cpu.pc - 1, fault := some { op := op, addr := s.cpu.pc - 1 } }
  | .nop => s

end Sys2Proof.Machine
end

