-- ==== Sys2Proof/Machine/Operands.lean ====
section
/-! DEFINITION. The operand forms (30_encoding.md R132, R133, R141): what each reads, where each stores,
and the shared shapes of the instruction families over them. -/

namespace Sys2Proof.Machine

/-- The outcome of a meaning. -/
abbrev Result := Host.Outcome State Fault Refusal

/-! ## Memory operands -/

/-- `(HL)`: the byte at HL. -/
def atHl (s : State) : Byte := busRead s s.cpu.hl

/-- Store to `(HL)`. -/
def storeHl (v : Byte) (s : State) : State := busWrite s.cpu.hl v s

/-- `(C)`: the address 0xFF00 + C (R171). -/
def highC (s : State) : Word := highPage s.cpu.c

/-- `A <- MemRead(addr, 1)`. -/
def loadA (a : Word) (s : State) : State := s.withCpu { s.cpu with a := busRead s a }

/-- `MemWrite(addr, 1, A)`. -/
def storeA (a : Word) (s : State) : State := busWrite a s.cpu.a s

/-- HL plus one after the access of `(HL+)`. -/
def hlInc (s : State) : State := s.withCpu (s.cpu.setHl (s.cpu.hl + 1))

/-- HL minus one after the access of `(HL-)`. -/
def hlDec (s : State) : State := s.withCpu (s.cpu.setHl (s.cpu.hl - 1))

/-- `x[r] <- v`. -/
def setReg (r : Reg8) (v : Byte) (s : State) : State := s.withCpu (s.cpu.setReg8 r v)

/-! ## 8-bit ALU shapes (42_alu8.md) -/

/-- ADD, with operand `x` (R203). -/
def aluAdd (x : Byte) (s : State) : State := s.withCpu (s.cpu.setAFlags (add8 s.cpu.a x false))

/-- ADC: the carry flag before the instruction is the carry in (R206). -/
def aluAdc (x : Byte) (s : State) : State := s.withCpu (s.cpu.setAFlags (add8 s.cpu.a x s.cpu.flags.c))

/-- SUB (R209). -/
def aluSub (x : Byte) (s : State) : State := s.withCpu (s.cpu.setAFlags (sub8 s.cpu.a x false))

/-- SBC: the carry flag before the instruction is the borrow in (R212). -/
def aluSbc (x : Byte) (s : State) : State := s.withCpu (s.cpu.setAFlags (sub8 s.cpu.a x s.cpu.flags.c))

/-- AND (R215). -/
def aluAnd (x : Byte) (s : State) : State :=
  s.withCpu (s.cpu.setAFlags (s.cpu.a &&& x, andFlags (s.cpu.a &&& x)))

/-- XOR (R218). -/
def aluXor (x : Byte) (s : State) : State :=
  s.withCpu (s.cpu.setAFlags (s.cpu.a ^^^ x, orFlags (s.cpu.a ^^^ x)))

/-- OR (R221). -/
def aluOr (x : Byte) (s : State) : State :=
  s.withCpu (s.cpu.setAFlags (s.cpu.a ||| x, orFlags (s.cpu.a ||| x)))

/-- CP: SUB's flags, A not written (R224). -/
def aluCp (x : Byte) (s : State) : State := s.withCpu (s.cpu.setFlags (sub8 s.cpu.a x false).2)

/-! ## Rotate, shift and bit shapes (44_rotate_shift_bit.md) -/

/-- An accumulator rotate (R251 to R254). -/
def rotAcc (k : RotKind) (s : State) : State :=
  let r := rotOp k s.cpu.a s.cpu.flags.c
  s.withCpu (s.cpu.setAFlags (r.1, rotAccFlags r.2))

/-- The register form of an extended rotate or shift (section 3). -/
def rotReg (k : RotKind) (r : Reg8) (s : State) : State :=
  let v := rotOp k (s.cpu.reg8 r) s.cpu.flags.c
  s.withCpu ((s.cpu.setReg8 r v.1).setFlags (rotFlags v.1 v.2))

/-- The `(HL)` form of an extended rotate or shift: one read, one write, then the flags. -/
def rotHl (k : RotKind) (s : State) : State :=
  let v := rotOp k (atHl s) s.cpu.flags.c
  (storeHl v.1 s).withCpu (s.cpu.setFlags (rotFlags v.1 v.2))

/-! ## Control-flow shapes (45_control_flow.md) -/

/-- `pc <- pc + sext_16(e)` (R284). -/
def jumpRel (e : Byte) (s : State) : State := s.setPc (s.cpu.pc + sext16 e)

/-- `Push16(pc); pc <- target` (R286). -/
def callTo (dest : Word) (s : State) : State := (push16 s.cpu.pc s).setPc dest

/-- `pc <- Pop16()` (R288). -/
def returnTo (s : State) : State := (popState s).setPc (popValue s)

end Sys2Proof.Machine
end

