-- ==== Sys2Proof/Machine/Alu16.lean ====
section
/-! DEFINITION. The meanings of the 16-bit arithmetic (43_alu16.md R241 to R244). -/

namespace Sys2Proof.Machine

/-- `ADD HL,rr` (R241). -/
def execAddHlRr (p : Reg16) (s : State) : Result :=
  let r := add16 s.cpu.hl (s.cpu.reg16 p) s.cpu.flags
  .next (s.withCpu ((s.cpu.setHl r.1).setFlags r.2))

/-- `INC rr` (R242). -/
def execIncRr (p : Reg16) (s : State) : Result :=
  .next (s.withCpu (s.cpu.setReg16 p (s.cpu.reg16 p + 1)))

/-- `DEC rr` (R243). -/
def execDecRr (p : Reg16) (s : State) : Result :=
  .next (s.withCpu (s.cpu.setReg16 p (s.cpu.reg16 p - 1)))

/-- `ADD SP,e` (R244). -/
def execAddSpE (e : Byte) (s : State) : Result :=
  let r := addSpE s.cpu.sp e
  .next (s.withCpu { s.cpu with sp := r.1, f := r.2.pack })

end Sys2Proof.Machine
end

