-- ==== Sys2Proof/Machine/Alu8.lean ====
section
/-! DEFINITION. The meanings of the 8-bit arithmetic and logic (42_alu8.md R203 to R234). -/

namespace Sys2Proof.Machine

/-- `ADD A,r` (R203). -/
def execAddR (r : Reg8) (s : State) : Result :=
  .next (aluAdd (s.cpu.reg8 r) s)

/-- `ADD A,(HL)` (R204). -/
def execAddHl (s : State) : Result :=
  .next (aluAdd (atHl s) s)

/-- `ADD A,n` (R205). -/
def execAddN (n : Byte) (s : State) : Result :=
  .next (aluAdd n s)

/-- `ADC A,r` (R206). -/
def execAdcR (r : Reg8) (s : State) : Result :=
  .next (aluAdc (s.cpu.reg8 r) s)

/-- `ADC A,(HL)` (R207). -/
def execAdcHl (s : State) : Result :=
  .next (aluAdc (atHl s) s)

/-- `ADC A,n` (R208). -/
def execAdcN (n : Byte) (s : State) : Result :=
  .next (aluAdc n s)

/-- `SUB r` (R209). -/
def execSubR (r : Reg8) (s : State) : Result :=
  .next (aluSub (s.cpu.reg8 r) s)

/-- `SUB (HL)` (R210). -/
def execSubHl (s : State) : Result :=
  .next (aluSub (atHl s) s)

/-- `SUB n` (R211). -/
def execSubN (n : Byte) (s : State) : Result :=
  .next (aluSub n s)

/-- `SBC A,r` (R212). -/
def execSbcR (r : Reg8) (s : State) : Result :=
  .next (aluSbc (s.cpu.reg8 r) s)

/-- `SBC A,(HL)` (R213). -/
def execSbcHl (s : State) : Result :=
  .next (aluSbc (atHl s) s)

/-- `SBC A,n` (R214). -/
def execSbcN (n : Byte) (s : State) : Result :=
  .next (aluSbc n s)

/-- `AND r` (R215). -/
def execAndR (r : Reg8) (s : State) : Result :=
  .next (aluAnd (s.cpu.reg8 r) s)

/-- `AND (HL)` (R216). -/
def execAndHl (s : State) : Result :=
  .next (aluAnd (atHl s) s)

/-- `AND n` (R217). -/
def execAndN (n : Byte) (s : State) : Result :=
  .next (aluAnd n s)

/-- `XOR r` (R218). -/
def execXorR (r : Reg8) (s : State) : Result :=
  .next (aluXor (s.cpu.reg8 r) s)

/-- `XOR (HL)` (R219). -/
def execXorHl (s : State) : Result :=
  .next (aluXor (atHl s) s)

/-- `XOR n` (R220). -/
def execXorN (n : Byte) (s : State) : Result :=
  .next (aluXor n s)

/-- `OR r` (R221). -/
def execOrR (r : Reg8) (s : State) : Result :=
  .next (aluOr (s.cpu.reg8 r) s)

/-- `OR (HL)` (R222). -/
def execOrHl (s : State) : Result :=
  .next (aluOr (atHl s) s)

/-- `OR n` (R223). -/
def execOrN (n : Byte) (s : State) : Result :=
  .next (aluOr n s)

/-- `CP r` (R224). -/
def execCpR (r : Reg8) (s : State) : Result :=
  .next (aluCp (s.cpu.reg8 r) s)

/-- `CP (HL)` (R225). -/
def execCpHl (s : State) : Result :=
  .next (aluCp (atHl s) s)

/-- `CP n` (R226). -/
def execCpN (n : Byte) (s : State) : Result :=
  .next (aluCp n s)

/-- `INC r` (R227). -/
def execIncR (r : Reg8) (s : State) : Result :=
  let v := inc8 (s.cpu.reg8 r) s.cpu.flags
  .next (s.withCpu ((s.cpu.setReg8 r v.1).setFlags v.2))

/-- `INC (HL)` (R228). -/
def execIncHl (s : State) : Result :=
  let v := inc8 (atHl s) s.cpu.flags
  .next ((storeHl v.1 s).withCpu (s.cpu.setFlags v.2))

/-- `DEC r` (R229). -/
def execDecR (r : Reg8) (s : State) : Result :=
  let v := dec8 (s.cpu.reg8 r) s.cpu.flags
  .next (s.withCpu ((s.cpu.setReg8 r v.1).setFlags v.2))

/-- `DEC (HL)` (R230). -/
def execDecHl (s : State) : Result :=
  let v := dec8 (atHl s) s.cpu.flags
  .next ((storeHl v.1 s).withCpu (s.cpu.setFlags v.2))

/-- `DAA` (R231). -/
def execDaa (s : State) : Result :=
  .next (s.withCpu (s.cpu.setAFlags (daa8 s.cpu.a s.cpu.flags)))

/-- `CPL` (R232). -/
def execCpl (s : State) : Result :=
  .next (s.withCpu (s.cpu.setAFlags (~~~s.cpu.a, { s.cpu.flags with n := true, h := true })))

/-- `SCF` (R233). -/
def execScf (s : State) : Result :=
  .next (s.withCpu (s.cpu.setFlags { s.cpu.flags with n := false, h := false, c := true }))

/-- `CCF` (R234). -/
def execCcf (s : State) : Result :=
  .next (s.withCpu (s.cpu.setFlags { s.cpu.flags with n := false, h := false, c := !s.cpu.flags.c }))

end Sys2Proof.Machine
end

