-- ==== Sys2Proof/Machine/Control.lean ====
section
/-! DEFINITION. The meanings of the jumps, calls, returns and restarts (45_control_flow.md R281 to R291). -/

namespace Sys2Proof.Machine

/-- `JP nn` (R281). -/
def execJpNn (nn : Word) (s : State) : Result :=
  .next (s.setPc nn)

/-- `JP cc,nn` (R282). -/
def execJpCcNn (cc : Cond) (nn : Word) (s : State) : Result :=
  .next (if condHolds cc s.cpu.flags then s.setPc nn else s)

/-- `JP HL` (R283). -/
def execJpHl (s : State) : Result :=
  .next (s.setPc s.cpu.hl)

/-- `JR e` (R284). -/
def execJrE (e : Byte) (s : State) : Result :=
  .next (jumpRel e s)

/-- `JR cc,e` (R285). -/
def execJrCcE (cc : Cond) (e : Byte) (s : State) : Result :=
  .next (if condHolds cc s.cpu.flags then jumpRel e s else s)

/-- `CALL nn` (R286). -/
def execCallNn (nn : Word) (s : State) : Result :=
  .next (callTo nn s)

/-- `CALL cc,nn` (R287). -/
def execCallCcNn (cc : Cond) (nn : Word) (s : State) : Result :=
  .next (if condHolds cc s.cpu.flags then callTo nn s else s)

/-- `RET` (R288). -/
def execRet (s : State) : Result :=
  .next (returnTo s)

/-- `RET cc` (R289). -/
def execRetCc (cc : Cond) (s : State) : Result :=
  .next (if condHolds cc s.cpu.flags then returnTo s else s)

/-- `RETI` (R290). `pc <- Pop16(); IME <- 1`, at once. -/
def execReti (s : State) : Result :=
  .next (returnFromInterrupt s)

/-- `RST 8*t` (R291). -/
def execRst (t : BitVec 3) (s : State) : Result :=
  .next (callTo (BitVec.ofNat 16 (8 * t.toNat)) s)

end Sys2Proof.Machine
end

