-- ==== Sys2Proof/Machine/Rotate.lean ====
section
/-! DEFINITION. The meanings of the rotates, shifts and bit operations (44_rotate_shift_bit.md R251 to R276). -/

namespace Sys2Proof.Machine

/-- `RLCA` (R251). -/
def execRlca (s : State) : Result :=
  .next (rotAcc .rlc s)

/-- `RRCA` (R252). -/
def execRrca (s : State) : Result :=
  .next (rotAcc .rrc s)

/-- `RLA` (R253). -/
def execRla (s : State) : Result :=
  .next (rotAcc .rl s)

/-- `RRA` (R254). -/
def execRra (s : State) : Result :=
  .next (rotAcc .rr s)

/-- `RLC r` (R255). -/
def execRlcR (r : Reg8) (s : State) : Result :=
  .next (rotReg .rlc r s)

/-- `RLC (HL)` (R256). -/
def execRlcHl (s : State) : Result :=
  .next (rotHl .rlc s)

/-- `RRC r` (R257). -/
def execRrcR (r : Reg8) (s : State) : Result :=
  .next (rotReg .rrc r s)

/-- `RRC (HL)` (R258). -/
def execRrcHl (s : State) : Result :=
  .next (rotHl .rrc s)

/-- `RL r` (R259). -/
def execRlR (r : Reg8) (s : State) : Result :=
  .next (rotReg .rl r s)

/-- `RL (HL)` (R260). -/
def execRlHl (s : State) : Result :=
  .next (rotHl .rl s)

/-- `RR r` (R261). -/
def execRrR (r : Reg8) (s : State) : Result :=
  .next (rotReg .rr r s)

/-- `RR (HL)` (R262). -/
def execRrHl (s : State) : Result :=
  .next (rotHl .rr s)

/-- `SLA r` (R263). -/
def execSlaR (r : Reg8) (s : State) : Result :=
  .next (rotReg .sla r s)

/-- `SLA (HL)` (R264). -/
def execSlaHl (s : State) : Result :=
  .next (rotHl .sla s)

/-- `SRA r` (R265). -/
def execSraR (r : Reg8) (s : State) : Result :=
  .next (rotReg .sra r s)

/-- `SRA (HL)` (R266). -/
def execSraHl (s : State) : Result :=
  .next (rotHl .sra s)

/-- `SWAP r` (R267). -/
def execSwapR (r : Reg8) (s : State) : Result :=
  .next (rotReg .swap r s)

/-- `SWAP (HL)` (R268). -/
def execSwapHl (s : State) : Result :=
  .next (rotHl .swap s)

/-- `SRL r` (R269). -/
def execSrlR (r : Reg8) (s : State) : Result :=
  .next (rotReg .srl r s)

/-- `SRL (HL)` (R270). -/
def execSrlHl (s : State) : Result :=
  .next (rotHl .srl s)

/-- `BIT b,r` (R271). -/
def execBitR (b : BitVec 3) (r : Reg8) (s : State) : Result :=
  .next (s.withCpu (s.cpu.setFlags (bitFlags (s.cpu.reg8 r) b s.cpu.flags)))

/-- `BIT b,(HL)` (R272). -/
def execBitHl (b : BitVec 3) (s : State) : Result :=
  .next (s.withCpu (s.cpu.setFlags (bitFlags (atHl s) b s.cpu.flags)))

/-- `RES b,r` (R273). -/
def execResR (b : BitVec 3) (r : Reg8) (s : State) : Result :=
  .next (setReg r (s.cpu.reg8 r &&& ~~~bitMask b) s)

/-- `RES b,(HL)` (R274). -/
def execResHl (b : BitVec 3) (s : State) : Result :=
  .next (storeHl (atHl s &&& ~~~bitMask b) s)

/-- `SET b,r` (R275). -/
def execSetR (b : BitVec 3) (r : Reg8) (s : State) : Result :=
  .next (setReg r (s.cpu.reg8 r ||| bitMask b) s)

/-- `SET b,(HL)` (R276). -/
def execSetHl (b : BitVec 3) (s : State) : Result :=
  .next (storeHl (atHl s ||| bitMask b) s)

end Sys2Proof.Machine
end

