-- ==== Sys2Proof/Machine/CpuControl.lean ====
section
/-! DEFINITION. The meanings of the CPU control, the 0xCB prefix and the undefined opcodes (46_cpu_control.md R300 to R306). -/

namespace Sys2Proof.Machine

/-- `NOP` (R300). Nothing beyond the fetch. -/
def execNop (s : State) : Result :=
  .next s

/-- `HALT` (R301). `halted <- 1`. -/
def execHalt (s : State) : Result :=
  .next (s.setHalted true)

/-- `STOP` (R302). A two-byte no-operation (decision D7); the second byte was fetched and is discarded. -/
def execStop (_pad : Byte) (s : State) : Result :=
  .next s

/-- `DI` (R303). `IME <- 0; ei_pending <- 0`. -/
def execDi (s : State) : Result :=
  .next ((s.setIme false).setEiPending false)

/-- `EI` (R304). `ei_pending <- 1`; IME is not written. -/
def execEi (s : State) : Result :=
  .next (s.setEiPending true)

/-- The extended table (30_encoding.md R136) over the meanings of 44_rotate_shift_bit.md. -/
def execExtended (op2 : Byte) (s : State) : Result :=
  let b := BitVec.ofNat 3 (opY op2)
  match opX op2, reg8OfCode (opZ op2) with
  | 0, some r =>
    match opY op2 with
    | 0 => execRlcR r s
    | 1 => execRrcR r s
    | 2 => execRlR r s
    | 3 => execRrR r s
    | 4 => execSlaR r s
    | 5 => execSraR r s
    | 6 => execSwapR r s
    | _ => execSrlR r s
  | 0, none =>
    match opY op2 with
    | 0 => execRlcHl s
    | 1 => execRrcHl s
    | 2 => execRlHl s
    | 3 => execRrHl s
    | 4 => execSlaHl s
    | 5 => execSraHl s
    | 6 => execSwapHl s
    | _ => execSrlHl s
  | 1, some r => execBitR b r s
  | 1, none   => execBitHl b s
  | 2, some r => execResR b r s
  | 2, none   => execResHl b s
  | _, some r => execSetR b r s
  | _, none   => execSetHl b s

/-- PREFIX CB (R305): `op2 <- Fetch8()`, then the instruction `op2` selects in the extended table. A step
decodes both bytes at once and never runs this row (log entry 5). -/
def execPrefixCb (s : State) : Result :=
  execExtended (busRead s s.cpu.pc) (s.setPc (s.cpu.pc + 1))

/-- Undefined opcode 0xD3 (R306). -/
def execIllegalD3 (s : State) : Result :=
  .next (raiseIllegal 0xD3 s)

/-- Undefined opcode 0xDB (R306). -/
def execIllegalDB (s : State) : Result :=
  .next (raiseIllegal 0xDB s)

/-- Undefined opcode 0xDD (R306). -/
def execIllegalDD (s : State) : Result :=
  .next (raiseIllegal 0xDD s)

/-- Undefined opcode 0xE3 (R306). -/
def execIllegalE3 (s : State) : Result :=
  .next (raiseIllegal 0xE3 s)

/-- Undefined opcode 0xE4 (R306). -/
def execIllegalE4 (s : State) : Result :=
  .next (raiseIllegal 0xE4 s)

/-- Undefined opcode 0xEB (R306). -/
def execIllegalEB (s : State) : Result :=
  .next (raiseIllegal 0xEB s)

/-- Undefined opcode 0xEC (R306). -/
def execIllegalEC (s : State) : Result :=
  .next (raiseIllegal 0xEC s)

/-- Undefined opcode 0xED (R306). -/
def execIllegalED (s : State) : Result :=
  .next (raiseIllegal 0xED s)

/-- Undefined opcode 0xF4 (R306). -/
def execIllegalF4 (s : State) : Result :=
  .next (raiseIllegal 0xF4 s)

/-- Undefined opcode 0xFC (R306). -/
def execIllegalFC (s : State) : Result :=
  .next (raiseIllegal 0xFC s)

/-- Undefined opcode 0xFD (R306). -/
def execIllegalFD (s : State) : Result :=
  .next (raiseIllegal 0xFD s)

end Sys2Proof.Machine
end

