-- ==== Sys2Proof/Machine/Load16.lean ====
section
/-! DEFINITION. The meanings of the 16-bit loads and the stack (41_load16_stack.md R190 to R196). -/

namespace Sys2Proof.Machine

/-- `LD rr,nn` (R190). -/
def execLdRrNn (p : Reg16) (nn : Word) (s : State) : Result :=
  .next (s.withCpu (s.cpu.setReg16 p nn))

/-- `LD (nn),SP` (R191). -/
def execLdNnSp (nn : Word) (s : State) : Result :=
  .next (memWrite16 nn s.cpu.sp s)

/-- `LD SP,HL` (R192). -/
def execLdSpHl (s : State) : Result :=
  .next (s.setSp s.cpu.hl)

/-- `LD HL,SP+e` (R193). -/
def execLdHlSpE (e : Byte) (s : State) : Result :=
  let r := addSpE s.cpu.sp e
  .next (s.withCpu ((s.cpu.setHl r.1).setFlags r.2))

/-- `PUSH rr` (R194). -/
def execPushRr (p : Reg16Stk) (s : State) : Result :=
  .next (push16 (s.cpu.regStk p) s)

/-- `POP rr` (R195). -/
def execPopRr (p : Reg16Stk) (s : State) : Result :=
  let s1 := popState s
  .next (s1.withCpu (s1.cpu.setRegStk p (popValue s)))

/-- `POP AF` (R196). -/
def execPopAf (s : State) : Result :=
  let s1 := popState s
  .next (s1.withCpu (s1.cpu.setRegStk .af (popValue s)))

end Sys2Proof.Machine
end

