-- ==== Sys2Proof/Machine/Load8.lean ====
section
/-! DEFINITION. The meanings of the 8-bit loads (40_load8.md R160 to R178). No flag is written, nothing faults. -/

namespace Sys2Proof.Machine

/-- `LD r,r'` (R160). `x[ddd] <- x[sss]`. -/
def execLdRR (dst src : Reg8) (s : State) : Result :=
  .next (setReg dst (s.cpu.reg8 src) s)

/-- `LD r,n` (R161). `x[rrr] <- n`. -/
def execLdRN (r : Reg8) (n : Byte) (s : State) : Result :=
  .next (setReg r n s)

/-- `LD r,(HL)` (R162). The byte at the old HL, also for H and L. -/
def execLdRHl (r : Reg8) (s : State) : Result :=
  .next (setReg r (atHl s) s)

/-- `LD (HL),r` (R163). `MemWrite(HL, 1, x[rrr])`. -/
def execLdHlR (r : Reg8) (s : State) : Result :=
  .next (storeHl (s.cpu.reg8 r) s)

/-- `LD (HL),n` (R164). The immediate was fetched before the store. -/
def execLdHlN (n : Byte) (s : State) : Result :=
  .next (storeHl n s)

/-- `LD A,(BC)` (R165). -/
def execLdABc (s : State) : Result :=
  .next (loadA s.cpu.bc s)

/-- `LD A,(DE)` (R166). -/
def execLdADe (s : State) : Result :=
  .next (loadA s.cpu.de s)

/-- `LD (BC),A` (R167). -/
def execLdBcA (s : State) : Result :=
  .next (storeA s.cpu.bc s)

/-- `LD (DE),A` (R168). -/
def execLdDeA (s : State) : Result :=
  .next (storeA s.cpu.de s)

/-- `LD A,(nn)` (R169). -/
def execLdANn (nn : Word) (s : State) : Result :=
  .next (loadA nn s)

/-- `LD (nn),A` (R170). -/
def execLdNnA (nn : Word) (s : State) : Result :=
  .next (storeA nn s)

/-- `LDH A,(C)` (R171). -/
def execLdhAC (s : State) : Result :=
  .next (loadA (highC s) s)

/-- `LDH (C),A` (R172). -/
def execLdhCA (s : State) : Result :=
  .next (storeA (highC s) s)

/-- `LDH A,(n)` (R173). -/
def execLdhAN (n : Byte) (s : State) : Result :=
  .next (loadA (highPage n) s)

/-- `LDH (n),A` (R174). -/
def execLdhNA (n : Byte) (s : State) : Result :=
  .next (storeA (highPage n) s)

/-- `LD A,(HL-)` (R175). -/
def execLdAHld (s : State) : Result :=
  .next (hlDec (loadA s.cpu.hl s))

/-- `LD (HL-),A` (R176). -/
def execLdHldA (s : State) : Result :=
  .next (hlDec (storeA s.cpu.hl s))

/-- `LD A,(HL+)` (R177). -/
def execLdAHli (s : State) : Result :=
  .next (hlInc (loadA s.cpu.hl s))

/-- `LD (HL+),A` (R178). -/
def execLdHliA (s : State) : Result :=
  .next (hlInc (storeA s.cpu.hl s))

end Sys2Proof.Machine
end

