-- ==== Sys2Proof/Machine/Timing.lean ====
section
/-! DEFINITION. The cycle counts (70_reset_and_hazards.md R457), which drive the Timer and the PPU
(R456). -/

namespace Sys2Proof.Machine

/-- The count of the extended instruction `op2`: 2 on a register, 4 on `(HL)`, 3 for `BIT b,(HL)`. -/
def extCycles (op2 : Byte) : Nat :=
  match reg8OfCode (opZ op2) with
  | some _ => 2
  | none => if opX op2 = 1 then 3 else 4

/-- One of two counts, by the condition on the flags before the instruction. -/
def condCycles (cc : Cond) (s : State) (taken notTaken : Nat) : Option Nat :=
  some (if condHolds cc s.cpu.flags then taken else notTaken)

/-- An undefined opcode has no count when it stops the machine, and is a 1-cycle NOP otherwise (R306). -/
def illegalCycles (s : State) : Option Nat :=
  match s.cfg.illegalPolicy with
  | .fault => none
  | .nop => some 1

/-- The machine cycles of an instruction started in state `s` (after its fetch, before its effect). -/
def cycles (i : Instr) (s : State) : Option Nat :=
  match i with
  | .nop | .stop _ | .halt | .di | .ei | .ldRR _ _
  | .addR _ | .adcR _ | .subR _ | .sbcR _ | .andR _ | .xorR _ | .orR _ | .cpR _
  | .incR _ | .decR _ | .rlca | .rrca | .rla | .rra | .daa | .cpl | .scf | .ccf | .jpHl => some 1
  | .ldRN _ _ | .ldRHl _ | .ldHlR _ | .ldABc | .ldADe | .ldBcA | .ldDeA
  | .ldAHli | .ldAHld | .ldHliA | .ldHldA | .ldhAC | .ldhCA
  | .addHl | .adcHl | .subHl | .sbcHl | .andHl | .xorHl | .orHl | .cpHl
  | .addN _ | .adcN _ | .subN _ | .sbcN _ | .andN _ | .xorN _ | .orN _ | .cpN _
  | .incRr _ | .decRr _ | .addHlRr _ | .ldSpHl
  | .rlcR _ | .rrcR _ | .rlR _ | .rrR _ | .slaR _ | .sraR _ | .swapR _ | .srlR _
  | .bitR _ _ | .resR _ _ | .setR _ _ => some 2
  | .ldRrNn _ _ | .ldHlN _ | .incHl | .decHl | .ldhAN _ | .ldhNA _ | .ldHlSpE _
  | .popRr _ | .popAf | .jrE _ | .bitHl _ => some 3
  | .ldANn _ | .ldNnA _ | .addSpE _ | .pushRr _ | .jpNn _ | .ret | .reti | .rst _
  | .rlcHl | .rrcHl | .rlHl | .rrHl | .slaHl | .sraHl | .swapHl | .srlHl
  | .resHl _ | .setHl _ => some 4
  | .ldNnSp _ => some 5
  | .callNn _ => some 6
  | .jrCcE cc _ => condCycles cc s 3 2
  | .jpCcNn cc _ => condCycles cc s 4 3
  | .callCcNn cc _ => condCycles cc s 6 3
  | .retCc cc => condCycles cc s 5 2
  | .prefixCb => some (extCycles (busRead s s.cpu.pc))
  | .illegalD3 | .illegalDB | .illegalDD | .illegalE3 | .illegalE4 | .illegalEB | .illegalEC
  | .illegalED | .illegalF4 | .illegalFC | .illegalFD => illegalCycles s

end Sys2Proof.Machine
end

