-- ==== Sys2Proof/Machine/CpuStep.lean ====
section
/-! DEFINITION. Fetch, the CPU step and the system step (30_encoding.md R134; 60_exceptions.md R328;
00_scope.md R8). -/

namespace Sys2Proof.Machine

/-- The instruction at `pc`. Its bytes are read through the bus at the moment they are needed (20_memory.md
R123); reading bytes beyond a short instruction changes nothing (R99, log entry 7). -/
def fetchInstr (s : State) : Instr :=
  decodeBytes (busRead s s.cpu.pc) (busRead s (s.cpu.pc + 1)) (busRead s (s.cpu.pc + 2))

/-- The state after the fetch (R134): `pc` past the instruction, a pending `EI` moved into IME. -/
def afterFetch (s : State) : State :=
  s.withCpu { s.cpu with
    pc := s.cpu.pc + BitVec.ofNat 16 (opLength (busRead s s.cpu.pc))
    ime := s.cpu.ime || s.cpu.eiPending
    eiPending := false }

/-- The result of a CPU step: the state, and the machine cycles it cost, if it has a count. -/
abbrev CpuResult := Host.Outcome (State × Option Nat) Fault Refusal

/-- `FetchExecute` (R134). -/
def fetchExecute (s : State) : CpuResult :=
  let i := fetchInstr s
  let s1 := afterFetch s
  match exec i s1 with
  | .next t => .next (t, cycles i s1)
  | .fault r => .fault r
  | .refused r => .refused r

/-- `CpuStep` (R328): an interrupt dispatch of 5 machine cycles, an idle step of a halted CPU, or one
instruction. -/
def cpuStep (s : State) : CpuResult :=
  if s.cpu.ime ∧ pending s ≠ 0 then .next (dispatch (lowestSet (pending s)) s, some 5)
  else if s.cpu.halted then
    if pending s = 0 then .next (s, some s.cfg.haltIdleCost)
    else fetchExecute (s.setHalted false)
  else fetchExecute s

/-- The devices' part of a system step (R8): Timer, then PPU, by the clock cycles of the CPU step. A step
without a count advances neither (R306). -/
def advanceDevices (m : Option Nat) (s : State) : State :=
  match m with
  | none => s
  | some k => ppuRun (s.cfg.tPerM * k) (timerRun (s.cfg.tPerM * k) s)

/-- `SystemStep` from a machine that has not stopped (R8). -/
def systemStep (s : State) : Result :=
  match cpuStep s with
  | .next (t, m) => .next (advanceDevices m t)
  | .fault r => .fault r
  | .refused r => .refused r

/-! ## Loading a word from outside -/

/-- Put a byte into the storage behind a target; a ROM byte goes into the image, which grows if it is too
short. Registers and unbacked addresses hold no instruction byte and are left alone (log entry 10). -/
def pokeTarget (x : Target) (v : Byte) (s : State) : State :=
  match x with
  | .rom n =>
    let off := romOffset s n
    { s with cfg := { s.cfg with cart := { s.cfg.cart with
        rom := Memory.write s.cfg.cart.rom off v
        romLen := max s.cfg.cart.romLen (off + 1) } } }
  | .io _ => s
  | .openBus => s
  | .ie => writeTarget .ie v s
  | .vram i => writeTarget (.vram i) v s
  | .eram i => writeTarget (.eram i) v s
  | .wram i => writeTarget (.wram i) v s
  | .oam i => writeTarget (.oam i) v s
  | .hram i => writeTarget (.hram i) v s

def pokeByte (a : Word) (v : Byte) (s : State) : State := pokeTarget (target s a) v s

/-- What keeps the next step from fetching, taken away: the stop, the halt, a host action due now, and
IME while an enabled request is pending. -/
def readyToFetch (s : State) : State :=
  let s1 := s.withCpu { s.cpu with fault := none, halted := false }
  let s2 := { s1 with hostInput := match s1.hostInput with | [] => [] | _ :: rest => [] :: rest }
  if pending s2 = 0 then s2 else s2.setIme false

end Sys2Proof.Machine
end

