-- ==== Sys2Proof/Machine/Step.lean ====
section
/-! DEFINITION. One step of the machine, and how the host places an instruction where the next step
fetches. -/

namespace Sys2Proof.Machine

/-- One step: nothing once the machine has stopped (00_scope.md R8, 10_state.md R29); else the host's
actions between two system steps (R6), then `SystemStep`. -/
def step (s : State) : Host.Outcome State Fault Refusal :=
  match s.cpu.fault with
  | some x => .fault (.stopped x.op x.addr)
  | none => systemStep (hostPhase s)

/-- The three bytes of `w` below bit `nbits` at `pc`, `pc + 1`, `pc + 2`, and the machine ready to fetch
them (log entry 10). -/
def State.withFetchWord (s : State) (nbits w : Nat) : State :=
  let v := w % 2 ^ nbits
  let pc := s.cpu.pc
  readyToFetch
    (pokeByte (pc + 2) (BitVec.ofNat 8 (v / 0x10000))
      (pokeByte (pc + 1) (BitVec.ofNat 8 (v / 0x100))
        (pokeByte pc (BitVec.ofNat 8 v) s)))

end Sys2Proof.Machine
end

