-- ==== Sys2Proof/Safety.lean ====
section
/-! DEFINITION. The terms the claims are stated in: the invariant of the machine, what it means that an
instruction completes, and the spec's tables (flag columns, destinations, stores) as data. Nothing here is
part of the machine. -/

namespace Sys2Proof.Machine

/-! ## The invariant -/

/-- A memory in canonical form whose entries lie below its size. -/
def Memory.fits (m : Memory) (size : Nat) : Bool := m.wf && Cells.below (n := 8) size m

/-- The eleven undefined opcodes (30_encoding.md R137). -/
def undefinedOpcodes : List Byte := [0xD3, 0xDB, 0xDD, 0xE3, 0xE4, 0xEB, 0xEC, 0xED, 0xF4, 0xFC, 0xFD]

/-- F reads with bits 3:0 zero (10_state.md R22), and a set `fault` cell names an undefined opcode and the
address `pc` holds (46_cpu_control.md R306). -/
def Cpu.ok (c : Cpu) : Bool :=
  decide (c.f &&& 0x0F = 0)
    && match c.fault with
       | none => true
       | some x => undefinedOpcodes.contains x.op && decide (x.addr = c.pc)

/-- The hidden cells of the Timer between steps (R36). -/
def Timer.ok (t : Timer) : Bool := decide (t.divSub < 256) && decide (t.timaSub < timaPeriod t.tac)

/-- The lines a mode stands on (R361, R370): 144 to 153 in VBLANK, 0 to 143 otherwise. -/
def lineOk (m : PpuMode) (ly : Byte) : Bool :=
  match m with
  | .vblank => decide (144 ≤ ly.toNat) && decide (ly.toNat < 154)
  | _ => decide (ly.toNat < 144)

/-- The PPU between steps: the mode's budget is not used up (R362), LY fits the mode, a PPU switched off
stands at mode 0, line 0, clock 0 (R364), and the frame buffer is 160 x 144 (R48). -/
def Ppu.ok (p : Ppu) : Bool :=
  decide (p.modeClock < p.mode.budget) && lineOk p.mode p.ly
    && (bitOf p.lcdc 7 || (decide (p.mode = .hblank) && decide (p.ly = 0) && decide (p.modeClock = 0)))
    && Cells.wf p.framebuffer && Cells.below 23040 p.framebuffer

/-- The sizes of R32 and R33. -/
def Ram.ok (r : Ram) (cfg : Config) : Bool :=
  r.vram.fits 8192 && r.wram.fits (4096 * cfg.wramBanks) && r.oam.fits 160 && r.hram.fits 127
    && r.eram.fits cfg.cart.eramSize

/-- A legal configuration whose image is in canonical form. -/
def configOk (c : Config) : Bool := c.legal && Memory.fits c.cart.rom c.cart.romLen

/-- What holds between any two system steps. BANK1 never holds 0 (R34). -/
def State.inv (s : State) : Bool :=
  s.cpu.ok && s.timer.ok && s.ppu.ok && decide (s.mapper.bank1 ≠ 0) && s.ram.ok s.cfg && configOk s.cfg

/-! ## Completion -/

/-- Instruction `i` has the bytes `bytes`; run in state `s` (the state after its fetch) it completes, with
next state `t` and `m` machine cycles. -/
def Does (i : Instr) (bytes : List Byte) (s t : State) (m : Nat) : Prop :=
  encode i = bytes ∧ exec i s = .next t ∧ cycles i s = some m

/-- The byte of F with the given flags (10_state.md R23). -/
def flagByte (z n h c : Bool) : Byte :=
  (if z then 0x80 else 0x00) ||| (if n then 0x40 else 0x00) ||| (if h then 0x20 else 0x00)
    ||| (if c then 0x10 else 0x00)

def flagZ (s : State) : Bool := s.cpu.f.getLsbD 7
def flagN (s : State) : Bool := s.cpu.f.getLsbD 6
def flagH (s : State) : Bool := s.cpu.f.getLsbD 5
def flagC (s : State) : Bool := s.cpu.f.getLsbD 4

/-- The `r8` code of a register (30_encoding.md R132). -/
def r8Code : Reg8 → Nat
  | .b => 0
  | .c => 1
  | .d => 2
  | .e => 3
  | .h => 4
  | .l => 5
  | .a => 7

/-- The `r16` code of a pair (R132). -/
def r16Code : Reg16 → Nat
  | .bc => 0
  | .de => 1
  | .hl => 2
  | .sp => 3

/-- The condition's code (R132, R280). -/
def ccCode : Cond → Nat
  | .nz => 0
  | .z  => 1
  | .nc => 2
  | .c  => 3

/-- `cond(cc)` on the flags of a state (R280). -/
def condTrue (cc : Cond) (s : State) : Bool :=
  match cc with
  | .nz => flagZ s == false
  | .z  => flagZ s == true
  | .nc => flagC s == false
  | .c  => flagC s == true

/-- An opcode byte from its number. -/
def op8 (n : Nat) : Byte := BitVec.ofNat 8 n

/-- The state with F replaced. -/
def State.withF (s : State) (f : Byte) : State := s.withCpu { s.cpu with f := f }

/-- The state with A and F replaced. -/
def State.withAF (s : State) (a f : Byte) : State := s.withCpu { s.cpu with a := a, f := f }

/-- The state with one 8-bit register replaced. -/
def State.withReg (s : State) (r : Reg8) (v : Byte) : State := s.withCpu (s.cpu.setReg8 r v)

/-- The two bytes of a word stored at `a`, low byte first, the write at `a + 1` coming `second` (R11) or
first (41_load16_stack.md R185). -/
def storeWordUp (a v : Word) (s : State) : State := busWrite (a + 1) (hiByte v) (busWrite a (loByte v) s)

def storeWordDown (a v : Word) (s : State) : State := busWrite a (loByte v) (busWrite (a + 1) (hiByte v) s)

/-! ## The tables of the spec -/

/-- The instruction whose effect an instruction has: the prefix row runs the extended opcode that follows
(46_cpu_control.md R305); the ill-formed `popRr .af` stands for `POP AF`. -/
def resolve (s : State) : Instr → Instr
  | .prefixCb => decodeExt (busRead s s.cpu.pc)
  | .popRr .af => .popAf
  | i => i

/-- One entry of a flag column (42_alu8.md R202). -/
inductive FlagEffect where
  | keep
  | clear
  | set
  | flip
  | computed
  deriving DecidableEq, Repr

/-- What a flag may be after an instruction with this entry. -/
def FlagEffect.allows (e : FlagEffect) (old new : Bool) : Bool :=
  match e with
  | .keep => new == old
  | .clear => !new
  | .set => new
  | .flip => new != old
  | .computed => true

/-- The four columns Z N H C. -/
structure FlagColumns where
  z : FlagEffect
  n : FlagEffect
  h : FlagEffect
  c : FlagEffect
  deriving DecidableEq, Repr

/-- The table of R202; an instruction not in it writes no flag. -/
def flagColumns : Instr → FlagColumns
  | .addR _ | .addHl | .addN _ | .adcR _ | .adcHl | .adcN _ => ⟨.computed, .clear, .computed, .computed⟩
  | .subR _ | .subHl | .subN _ | .sbcR _ | .sbcHl | .sbcN _ | .cpR _ | .cpHl | .cpN _ =>
    ⟨.computed, .set, .computed, .computed⟩
  | .andR _ | .andHl | .andN _ => ⟨.computed, .clear, .set, .clear⟩
  | .xorR _ | .xorHl | .xorN _ | .orR _ | .orHl | .orN _ => ⟨.computed, .clear, .clear, .clear⟩
  | .incR _ | .incHl => ⟨.computed, .clear, .computed, .keep⟩
  | .decR _ | .decHl => ⟨.computed, .set, .computed, .keep⟩
  | .daa => ⟨.computed, .keep, .clear, .computed⟩
  | .cpl => ⟨.keep, .set, .set, .keep⟩
  | .scf => ⟨.keep, .clear, .clear, .set⟩
  | .ccf => ⟨.keep, .clear, .clear, .flip⟩
  | .addHlRr _ => ⟨.keep, .clear, .computed, .computed⟩
  | .addSpE _ | .ldHlSpE _ => ⟨.clear, .clear, .computed, .computed⟩
  | .rlca | .rrca | .rla | .rra => ⟨.clear, .clear, .clear, .computed⟩
  | .rlcR _ | .rlcHl | .rrcR _ | .rrcHl | .rlR _ | .rlHl | .rrR _ | .rrHl | .slaR _ | .slaHl
  | .sraR _ | .sraHl | .srlR _ | .srlHl => ⟨.computed, .clear, .clear, .computed⟩
  | .swapR _ | .swapHl => ⟨.computed, .clear, .clear, .clear⟩
  | .bitR _ _ | .bitHl _ => ⟨.computed, .clear, .set, .keep⟩
  | .popAf => ⟨.computed, .computed, .computed, .computed⟩
  | _ => ⟨.keep, .keep, .keep, .keep⟩

/-- The halves of a pair; `sp` is no 8-bit register. -/
def pairRegs : Reg16 → List Reg8
  | .bc => [.b, .c]
  | .de => [.d, .e]
  | .hl => [.h, .l]
  | .sp => []

def pairStkRegs : Reg16Stk → List Reg8
  | .bc => [.b, .c]
  | .de => [.d, .e]
  | .hl => [.h, .l]
  | .af => [.a]

/-- The 8-bit registers an instruction writes. Every other instruction writes none. -/
def destRegs : Instr → List Reg8
  | .ldRR dst _ => [dst]
  | .ldRN r _ | .ldRHl r | .incR r | .decR r => [r]
  | .rlcR r | .rrcR r | .rlR r | .rrR r | .slaR r | .sraR r | .swapR r | .srlR r | .resR _ r | .setR _ r => [r]
  | .ldABc | .ldADe | .ldANn _ | .ldhAC | .ldhAN _ => [.a]
  | .ldAHld | .ldAHli => [.a, .h, .l]
  | .ldHldA | .ldHliA | .ldHlSpE _ | .addHlRr _ => [.h, .l]
  | .ldRrNn p _ | .incRr p | .decRr p => pairRegs p
  | .popRr p => pairStkRegs p
  | .popAf | .daa | .cpl | .rlca | .rrca | .rla | .rra => [.a]
  | .addR _ | .addHl | .addN _ | .adcR _ | .adcHl | .adcN _ | .subR _ | .subHl | .subN _
  | .sbcR _ | .sbcHl | .sbcN _ | .andR _ | .andHl | .andN _ | .xorR _ | .xorHl | .xorN _
  | .orR _ | .orHl | .orN _ => [.a]
  | _ => []

/-- `sp` after an instruction: pushes and pops move it by 2 (R24, R185, R186), four rows set it (R190, R192,
R242 to R244), every other instruction keeps it. -/
def spAfter (i : Instr) (s : State) : Word :=
  match i with
  | .ldRrNn .sp nn => nn
  | .ldSpHl => s.cpu.hl
  | .incRr .sp => s.cpu.sp + 1
  | .decRr .sp => s.cpu.sp - 1
  | .addSpE e => s.cpu.sp + e.signExtend 16
  | .pushRr _ | .callNn _ | .rst _ => s.cpu.sp - 2
  | .callCcNn cc _ => if condTrue cc s then s.cpu.sp - 2 else s.cpu.sp
  | .popRr _ | .popAf | .ret | .reti => s.cpu.sp + 2
  | .retCc cc => if condTrue cc s then s.cpu.sp + 2 else s.cpu.sp
  | _ => s.cpu.sp

/-- The byte writes an instruction makes, in order: address and byte (20_memory.md R98). A push writes the
high byte first, at `sp - 1` (R185); a read-modify-write form writes back to HL. -/
def stores (i : Instr) (s : State) : List (Word × Byte) :=
  let push (v : Word) : List (Word × Byte) := [(s.cpu.sp - 1, hiByte v), (s.cpu.sp - 2, loByte v)]
  let m := busRead s s.cpu.hl
  let rot (k : RotKind) : List (Word × Byte) := [(s.cpu.hl, (rotOp k m (flagC s)).1)]
  match i with
  | .ldHlR r => [(s.cpu.hl, s.cpu.reg8 r)]
  | .ldHlN n => [(s.cpu.hl, n)]
  | .ldBcA => [(s.cpu.bc, s.cpu.a)]
  | .ldDeA => [(s.cpu.de, s.cpu.a)]
  | .ldNnA nn => [(nn, s.cpu.a)]
  | .ldhCA => [(0xFF00 + s.cpu.c.zeroExtend 16, s.cpu.a)]
  | .ldhNA n => [(0xFF00 + n.zeroExtend 16, s.cpu.a)]
  | .ldHldA | .ldHliA => [(s.cpu.hl, s.cpu.a)]
  | .ldNnSp nn => [(nn, loByte s.cpu.sp), (nn + 1, hiByte s.cpu.sp)]
  | .pushRr p => push (s.cpu.regStk p)
  | .incHl => [(s.cpu.hl, m + 1)]
  | .decHl => [(s.cpu.hl, m - 1)]
  | .rlcHl => rot .rlc
  | .rrcHl => rot .rrc
  | .rlHl => rot .rl
  | .rrHl => rot .rr
  | .slaHl => rot .sla
  | .sraHl => rot .sra
  | .swapHl => rot .swap
  | .srlHl => rot .srl
  | .resHl b => [(s.cpu.hl, m &&& ~~~(1#8 <<< b.toNat))]
  | .setHl b => [(s.cpu.hl, m ||| (1#8 <<< b.toNat))]
  | .callNn _ => push s.cpu.pc
  | .callCcNn cc _ => if condTrue cc s then push s.cpu.pc else []
  | .rst _ => push s.cpu.pc
  | _ => []

/-- The writes of a list, made in order through the bus. -/
def applyStores (l : List (Word × Byte)) (s : State) : State := l.foldl (fun t w => busWrite w.1 w.2 t) s

/-- The undefined opcode an instruction stands for. -/
def illegalOp : Instr → Option Byte
  | .illegalD3 => some 0xD3
  | .illegalDB => some 0xDB
  | .illegalDD => some 0xDD
  | .illegalE3 => some 0xE3
  | .illegalE4 => some 0xE4
  | .illegalEB => some 0xEB
  | .illegalEC => some 0xEC
  | .illegalED => some 0xED
  | .illegalF4 => some 0xF4
  | .illegalFC => some 0xFC
  | .illegalFD => some 0xFD
  | _ => none

/-- A place that only stores bytes: RAM of the CORE or of the cartridge. -/
def Target.isRam : Target → Bool
  | .vram _ | .eram _ | .wram _ | .oam _ | .hram _ => true
  | _ => false

/-- What a bus read of each kind of place may depend on: the parts of the state other than the CPU and the
host's oracle. -/
def State.sameBus (s t : State) : Prop :=
  s.irq = t.irq ∧ s.timer = t.timer ∧ s.joypad = t.joypad ∧ s.ppu = t.ppu ∧ s.mapper = t.mapper ∧ s.dma = t.dma
    ∧ s.svbk = t.svbk ∧ s.ram = t.ram ∧ s.cfg = t.cfg

/-! ## The picture, over the bytes of VRAM and OAM (60_exceptions.md R372, R373, R375) -/

/-- `V(a)`: the VRAM byte at CPU address `a`. -/
def vramByte (s : State) (a : Nat) : Byte := Memory.read s.ram.vram (a - 0x8000)

/-- The colour index, 0 to 3, of column `col` of the tile row whose low bit plane is the byte at `row` and
whose high one is the next; the leftmost column is bit 7 (R372). -/
def planeColour (s : State) (row col : Nat) : Nat :=
  let bit (v : Byte) : Nat := v.toNat / 2 ^ (7 - col) % 2
  2 * bit (vramByte s (row + 1)) + bit (vramByte s row)

/-- The address of the tile of a background or window index: unsigned from 0x8000 with LCDC bit 4 set, else
signed from 0x9000, so that 128 to 255 stand at 0x8800 to 0x8FFF (R372). -/
def tileAddress (s : State) (idx : Byte) : Nat :=
  if s.ppu.lcdc.getLsbD 4 = true ∨ 128 ≤ idx.toNat then 0x8000 + 16 * idx.toNat else 0x9000 + 16 * idx.toNat

/-- The colour index of point (px, py) of the 256 x 256 space of the tile map at `map` (R372). -/
def mapPoint (s : State) (map px py : Nat) : Nat :=
  planeColour s (tileAddress s (vramByte s (map + 32 * (py / 8) + px / 8)) + 2 * (py % 8)) (px % 8)

/-- Two bits of a palette register (R372, R45). -/
def paletteShade (palette : Byte) (colour : Nat) : BitVec 2 := BitVec.ofNat 2 (palette.toNat / 4 ^ colour % 4)

/-- Byte `j` of OAM entry `i`: Y, X, T, attr (R375). -/
def oamByte (s : State) (i j : Nat) : Byte := Memory.read s.ram.oam (4 * i + j)

/-- The colour index OAM entry `i` shows at screen point (y, x), 0 where it shows nothing (R375). -/
def spriteColourAt (s : State) (i y x : Nat) : Nat :=
  let h : Nat := if s.ppu.lcdc.getLsbD 2 then 16 else 8
  let top : Int := (oamByte s i 0).toNat - 16
  let left : Int := (oamByte s i 1).toNat - 8
  let t := (oamByte s i 2).toNat
  let tile := if s.ppu.lcdc.getLsbD 2 then t / 2 * 2 else t
  let attr := oamByte s i 3
  if top ≤ y ∧ (y : Int) < top + h ∧ left ≤ x ∧ (x : Int) < left + 8 then
    let r := ((y : Int) - top).toNat
    let c := ((x : Int) - left).toNat
    planeColour s (0x8000 + 16 * tile + 2 * (if attr.getLsbD 6 then h - 1 - r else r)) (if attr.getLsbD 5 then 7 - c else c)
  else 0

/-- The shade of a pixel after OAM entry `i` is drawn over the shade `p` (R375). -/
def overlay (s : State) (y x : Nat) (p : BitVec 2) (i : Nat) : BitVec 2 :=
  let attr := oamByte s i 3
  let colour := spriteColourAt s i y x
  if colour = 0 then p
  else if attr.getLsbD 7 = true ∧ p ≠ paletteShade s.ppu.bgp 0 then p
  else paletteShade (if attr.getLsbD 4 then s.ppu.obp1 else s.ppu.obp0) colour

end Sys2Proof.Machine
end

