-- ==== Sys2Proof/Certificates/Slice0/Obligations.lean ====
section
/-! DEFINITION. The statements for the provers, in the order of OBLIGATIONS.json. `exec i s` runs an
instruction in the state after its fetch: `pc` stands after the whole instruction (10_state.md R25). -/

open Sys2Proof Sys2Proof.Machine

/-! ## Encoding -/

/-- R131 to R137: for every well-formed instruction, with every operand and whatever bytes follow, decoding
its bytes gives it back and leaves the rest. The prefix row is read from the byte 0xCB alone (log entry 5). -/
def Obligations.DecodeInvertsEncode : Prop :=
  (∀ (i : Instr) (rest : List Byte), i.wf = true → i ≠ .prefixCb → decode (encode i ++ rest) = .ok (i, rest))
    ∧ decode (encode .prefixCb) = .ok (.prefixCb, [])

/-- R140: every three bytes begin with an instruction; and whatever list decodes, the bytes are the encoding
of a well-formed instruction followed by the rest, so no word has two meanings. -/
def Obligations.EncodeInvertsDecode : Prop :=
  (∀ b0 b1 b2 : Byte, ∃ i rest, decode [b0, b1, b2] = .ok (i, rest))
    ∧ ∀ (bs : List Byte) (i : Instr) (rest : List Byte), decode bs = .ok (i, rest) → i.wf = true ∧ bs = encode i ++ rest

/-- Words written out from the rules' `Encoding` lines decode to the instructions they stand for. -/
def Obligations.EncodedWordsDecode : Prop :=
  decode [0b01111000] = .ok (.ldRR .a .b, [])
    ∧ decode [0b00110110, 0x42] = .ok (.ldHlN 0x42, [])
    ∧ decode [0b11101010, 0x00, 0xC0] = .ok (.ldNnA 0xC000, [])
    ∧ decode [0b00001000, 0x00, 0xC1] = .ok (.ldNnSp 0xC100, [])
    ∧ decode [0b11010001] = .ok (.popRr .de, [])
    ∧ decode [0b10000111] = .ok (.addR .a, [])
    ∧ decode [0b10011100] = .ok (.sbcR .h, [])
    ∧ decode [0b00111001] = .ok (.addHlRr .sp, [])
    ∧ decode [0b11001011, 0b00110111] = .ok (.swapR .a, [])
    ∧ decode [0b11001011, 0b10011110] = .ok (.resHl 3, [])
    ∧ decode [0b11010100, 0x00, 0x20] = .ok (.callCcNn .nc 0x2000, [])
    ∧ decode [0b11101111] = .ok (.rst 5, [])
    ∧ decode [0b01110110] = .ok (.halt, [])
    ∧ decode [0b11011101] = .ok (.illegalDD, [])

/-- R136: all 256 bytes after 0xCB are instructions of 2 bytes, `x`, `y`, `z` selecting operation, bit number
and register as the table says; code 6 selects the `(HL)` form. -/
def Obligations.ExtendedTableIsTotal : Prop :=
  (∀ op2 : Byte, (decodeExt op2).wf = true ∧ encode (decodeExt op2) = [0xCB, op2])
    ∧ (∀ k r, k < 8 →
        [Instr.rlcR r, .rrcR r, .rlR r, .rrR r, .slaR r, .sraR r, .swapR r, .srlR r][k]?
          = some (decodeExt (op8 (8 * k + r8Code r))))
    ∧ (∀ k, k < 8 →
        [Instr.rlcHl, .rrcHl, .rlHl, .rrHl, .slaHl, .sraHl, .swapHl, .srlHl][k]? = some (decodeExt (op8 (8 * k + 6))))
    ∧ (∀ (b : BitVec 3) r, decodeExt (op8 (0x40 + 8 * b.toNat + r8Code r)) = .bitR b r
        ∧ decodeExt (op8 (0x80 + 8 * b.toNat + r8Code r)) = .resR b r
        ∧ decodeExt (op8 (0xC0 + 8 * b.toNat + r8Code r)) = .setR b r)
    ∧ (∀ b : BitVec 3, decodeExt (op8 (0x40 + 8 * b.toNat + 6)) = .bitHl b
        ∧ decodeExt (op8 (0x80 + 8 * b.toNat + 6)) = .resHl b
        ∧ decodeExt (op8 (0xC0 + 8 * b.toNat + 6)) = .setHl b)

/-! ## Loads -/

/-- R160 to R164. -/
def Obligations.LoadRegisterForms : Prop :=
  ∀ s : State,
    (∀ dst src, Does (.ldRR dst src) [op8 (0x40 + 8 * r8Code dst + r8Code src)] s (s.withReg dst (s.cpu.reg8 src)) 1)
    ∧ (∀ r n, Does (.ldRN r n) [op8 (0x06 + 8 * r8Code r), n] s (s.withReg r n) 2)
    ∧ (∀ r, Does (.ldRHl r) [op8 (0x46 + 8 * r8Code r)] s (s.withReg r (busRead s s.cpu.hl)) 2)
    ∧ (∀ r, Does (.ldHlR r) [op8 (0x70 + r8Code r)] s (busWrite s.cpu.hl (s.cpu.reg8 r) s) 2)
    ∧ (∀ n, Does (.ldHlN n) [0x36, n] s (busWrite s.cpu.hl n s) 3)

/-- R165 to R174: the accumulator loads and stores through BC, DE, an absolute address and the high page. -/
def Obligations.LoadAccumulatorForms : Prop :=
  ∀ s : State,
    let load (a : Word) : State := s.withCpu { s.cpu with a := busRead s a }
    let store (a : Word) : State := busWrite a s.cpu.a s
    Does .ldABc [0x0A] s (load (s.cpu.b ++ s.cpu.c)) 2
    ∧ Does .ldADe [0x1A] s (load (s.cpu.d ++ s.cpu.e)) 2
    ∧ Does .ldBcA [0x02] s (store (s.cpu.b ++ s.cpu.c)) 2
    ∧ Does .ldDeA [0x12] s (store (s.cpu.d ++ s.cpu.e)) 2
    ∧ (∀ lo hi : Byte, Does (.ldANn (hi ++ lo)) [0xFA, lo, hi] s (load (hi ++ lo)) 4)
    ∧ (∀ lo hi : Byte, Does (.ldNnA (hi ++ lo)) [0xEA, lo, hi] s (store (hi ++ lo)) 4)
    ∧ Does .ldhAC [0xF2] s (load (0xFF00 + s.cpu.c.zeroExtend 16)) 2
    ∧ Does .ldhCA [0xE2] s (store (0xFF00 + s.cpu.c.zeroExtend 16)) 2
    ∧ (∀ n, Does (.ldhAN n) [0xF0, n] s (load (0xFF00 + n.zeroExtend 16)) 3)
    ∧ (∀ n, Does (.ldhNA n) [0xE0, n] s (store (0xFF00 + n.zeroExtend 16)) 3)

/-- R175 to R178: the access at the old HL, then HL one higher or lower mod 2^16. -/
def Obligations.LoadAndStepHl : Prop :=
  ∀ s : State,
    let hl : Word := s.cpu.h ++ s.cpu.l
    let load (next : Word) : State :=
      s.withCpu { s.cpu with a := busRead s hl, h := next.extractLsb' 8 8, l := next.extractLsb' 0 8 }
    let store (next : Word) : State :=
      (busWrite hl s.cpu.a s).withCpu { s.cpu with h := next.extractLsb' 8 8, l := next.extractLsb' 0 8 }
    Does .ldAHld [0x3A] s (load (hl - 1)) 2
    ∧ Does .ldHldA [0x32] s (store (hl - 1)) 2
    ∧ Does .ldAHli [0x2A] s (load (hl + 1)) 2
    ∧ Does .ldHliA [0x22] s (store (hl + 1)) 2

/-- R190 to R193 (and the adder of R240). -/
def Obligations.LoadSixteenBit : Prop :=
  ∀ s : State,
    (∀ p (lo hi : Byte), Does (.ldRrNn p (hi ++ lo)) [op8 (0x01 + 16 * r16Code p), lo, hi] s
      (s.withCpu (s.cpu.setReg16 p (hi ++ lo))) 3)
    ∧ (∀ lo hi : Byte, Does (.ldNnSp (hi ++ lo)) [0x08, lo, hi] s (storeWordUp (hi ++ lo) s.cpu.sp s) 5)
    ∧ Does .ldSpHl [0xF9] s (s.withCpu { s.cpu with sp := s.cpu.h ++ s.cpu.l }) 2
    ∧ (∀ e : Byte,
        let r := s.cpu.sp + e.signExtend 16
        Does (.ldHlSpE e) [0xF8, e] s
          (s.withCpu { s.cpu with
            h := r.extractLsb' 8 8
            l := r.extractLsb' 0 8
            f := flagByte false false (decide (s.cpu.sp.toNat % 16 + e.toNat % 16 > 0x0F))
              (decide (s.cpu.sp.toNat % 256 + e.toNat > 0xFF)) }) 3)

/-- R185, R186, R194 to R196: a push writes the high byte at `sp - 1`, then the low byte at `sp - 2`; a pop
reads low, then high; F is masked. -/
def Obligations.PushAndPop : Prop :=
  ∀ s : State,
    let push (v : Word) : State := (storeWordDown (s.cpu.sp - 2) v s).withCpu { s.cpu with sp := s.cpu.sp - 2 }
    let lo := busRead s s.cpu.sp
    let hi := busRead s (s.cpu.sp + 1)
    let up := s.cpu.sp + 2
    Does (.pushRr .bc) [0xC5] s (push (s.cpu.b ++ s.cpu.c)) 4
    ∧ Does (.pushRr .de) [0xD5] s (push (s.cpu.d ++ s.cpu.e)) 4
    ∧ Does (.pushRr .hl) [0xE5] s (push (s.cpu.h ++ s.cpu.l)) 4
    ∧ Does (.pushRr .af) [0xF5] s (push (s.cpu.a ++ s.cpu.f)) 4
    ∧ Does (.popRr .bc) [0xC1] s (s.withCpu { s.cpu with b := hi, c := lo, sp := up }) 3
    ∧ Does (.popRr .de) [0xD1] s (s.withCpu { s.cpu with d := hi, e := lo, sp := up }) 3
    ∧ Does (.popRr .hl) [0xE1] s (s.withCpu { s.cpu with h := hi, l := lo, sp := up }) 3
    ∧ Does .popAf [0xF1] s (s.withCpu { s.cpu with a := hi, f := lo &&& 0xF0, sp := up }) 3

/-- R196, R22: where the two stack bytes stand on different places of RAM, `PUSH AF` then `POP AF` restores A,
F and `sp`. -/
def Obligations.PushAfPopAfRestores : Prop :=
  ∀ s : State, s.inv = true →
    (target s (s.cpu.sp - 1)).isRam = true → (target s (s.cpu.sp - 2)).isRam = true →
    target s (s.cpu.sp - 1) ≠ target s (s.cpu.sp - 2) →
    ∃ t u, exec (.pushRr .af) s = .next t ∧ exec .popAf t = .next u ∧ u.cpu = s.cpu

/-! ## 8-bit arithmetic and logic -/

/-- R200, R203 to R208. -/
def Obligations.AddAndAddWithCarry : Prop :=
  ∀ s : State,
    let a := s.cpu.a.toNat
    let res (x : Byte) (cin : Bool) : State :=
      let sum := a + x.toNat + cin.toNat
      s.withAF (BitVec.ofNat 8 (sum % 256))
        (flagByte (decide (sum % 256 = 0)) false (decide (a % 16 + x.toNat % 16 + cin.toNat > 0x0F)) (decide (sum > 0xFF)))
    let m := busRead s s.cpu.hl
    (∀ r, Does (.addR r) [op8 (0x80 + r8Code r)] s (res (s.cpu.reg8 r) false) 1)
    ∧ Does .addHl [0x86] s (res m false) 2
    ∧ (∀ n, Does (.addN n) [0xC6, n] s (res n false) 2)
    ∧ (∀ r, Does (.adcR r) [op8 (0x88 + r8Code r)] s (res (s.cpu.reg8 r) (flagC s)) 1)
    ∧ Does .adcHl [0x8E] s (res m (flagC s)) 2
    ∧ (∀ n, Does (.adcN n) [0xCE, n] s (res n (flagC s)) 2)

/-- R201, R209 to R214, R224 to R226: half-carry and carry are borrows; CP writes the flags alone. -/
def Obligations.SubtractAndCompare : Prop :=
  ∀ s : State,
    let a := s.cpu.a.toNat
    let diff (x : Byte) (cin : Bool) : Int := (a : Int) - x.toNat - cin.toNat
    let fl (x : Byte) (cin : Bool) : Byte :=
      flagByte (decide (diff x cin % 256 = 0)) true (decide (a % 16 < x.toNat % 16 + cin.toNat)) (decide (a < x.toNat + cin.toNat))
    let res (x : Byte) (cin : Bool) : State := s.withAF (BitVec.ofInt 8 (diff x cin)) (fl x cin)
    let m := busRead s s.cpu.hl
    (∀ r, Does (.subR r) [op8 (0x90 + r8Code r)] s (res (s.cpu.reg8 r) false) 1)
    ∧ Does .subHl [0x96] s (res m false) 2
    ∧ (∀ n, Does (.subN n) [0xD6, n] s (res n false) 2)
    ∧ (∀ r, Does (.sbcR r) [op8 (0x98 + r8Code r)] s (res (s.cpu.reg8 r) (flagC s)) 1)
    ∧ Does .sbcHl [0x9E] s (res m (flagC s)) 2
    ∧ (∀ n, Does (.sbcN n) [0xDE, n] s (res n (flagC s)) 2)
    ∧ (∀ r, Does (.cpR r) [op8 (0xB8 + r8Code r)] s (s.withF (fl (s.cpu.reg8 r) false)) 1)
    ∧ Does .cpHl [0xBE] s (s.withF (fl m false)) 2
    ∧ (∀ n, Does (.cpN n) [0xFE, n] s (s.withF (fl n false)) 2)

/-- R215 to R223. -/
def Obligations.AndXorOr : Prop :=
  ∀ s : State,
    let a := s.cpu.a
    let res (v : Byte) (h : Bool) : State := s.withAF v (flagByte (decide (v.toNat = 0)) false h false)
    let m := busRead s s.cpu.hl
    (∀ r, Does (.andR r) [op8 (0xA0 + r8Code r)] s (res (a &&& s.cpu.reg8 r) true) 1)
    ∧ Does .andHl [0xA6] s (res (a &&& m) true) 2
    ∧ (∀ n, Does (.andN n) [0xE6, n] s (res (a &&& n) true) 2)
    ∧ (∀ r, Does (.xorR r) [op8 (0xA8 + r8Code r)] s (res (a ^^^ s.cpu.reg8 r) false) 1)
    ∧ Does .xorHl [0xAE] s (res (a ^^^ m) false) 2
    ∧ (∀ n, Does (.xorN n) [0xEE, n] s (res (a ^^^ n) false) 2)
    ∧ (∀ r, Does (.orR r) [op8 (0xB0 + r8Code r)] s (res (a ||| s.cpu.reg8 r) false) 1)
    ∧ Does .orHl [0xB6] s (res (a ||| m) false) 2
    ∧ (∀ n, Does (.orN n) [0xF6, n] s (res (a ||| n) false) 2)

/-- R227 to R230: Cf is kept; the `(HL)` forms read once and write back once. -/
def Obligations.IncrementAndDecrement : Prop :=
  ∀ s : State,
    let incF (v : Byte) : Byte := flagByte (decide (v.toNat = 0xFF)) false (decide (v.toNat % 16 = 0x0F)) (flagC s)
    let decF (v : Byte) : Byte := flagByte (decide (v.toNat = 0x01)) true (decide (v.toNat % 16 = 0x00)) (flagC s)
    let m := busRead s s.cpu.hl
    (∀ r, Does (.incR r) [op8 (0x04 + 8 * r8Code r)] s ((s.withReg r (s.cpu.reg8 r + 1)).withF (incF (s.cpu.reg8 r))) 1)
    ∧ Does .incHl [0x34] s ((busWrite s.cpu.hl (m + 1) s).withF (incF m)) 3
    ∧ (∀ r, Does (.decR r) [op8 (0x05 + 8 * r8Code r)] s ((s.withReg r (s.cpu.reg8 r - 1)).withF (decF (s.cpu.reg8 r))) 1)
    ∧ Does .decHl [0x35] s ((busWrite s.cpu.hl (m - 1) s).withF (decF m)) 3

/-- R231 to R234. The adjustment of DAA is 0x06 where the low digit needs it and 0x60 where the high one
does. -/
def Obligations.AdjustAndCarryFlag : Prop :=
  ∀ s : State,
    let a := s.cpu.a
    let low : Bool := flagH s || (!flagN s && decide (a.toNat % 16 > 9))
    let high : Bool := flagC s || (!flagN s && decide (a.toNat > 0x99))
    let adj : Byte := (if low then 0x06 else 0x00) + (if high then 0x60 else 0x00)
    let r : Byte := if flagN s then a - adj else a + adj
    Does .daa [0x27] s (s.withAF r (flagByte (decide (r.toNat = 0)) (flagN s) false high)) 1
    ∧ Does .cpl [0x2F] s (s.withAF (~~~a) (flagByte (flagZ s) true true (flagC s))) 1
    ∧ Does .scf [0x37] s (s.withF (flagByte (flagZ s) false false true)) 1
    ∧ Does .ccf [0x3F] s (s.withF (flagByte (flagZ s) false false (!flagC s))) 1

/-- R231: after adding or subtracting two packed decimal bytes with the carry, DAA leaves the packed decimal
result, and in Cf the decimal carry or borrow. -/
def Obligations.DaaIsDecimal : Prop :=
  ∀ (s : State) (n : Byte), s.cpu.a.toNat % 16 < 10 → s.cpu.a.toNat / 16 < 10 → n.toNat % 16 < 10 → n.toNat / 16 < 10 →
    let x := 10 * (s.cpu.a.toNat / 16) + s.cpu.a.toNat % 16
    let y := 10 * (n.toNat / 16) + n.toNat % 16
    let c := (flagC s).toNat
    let packed (d : Nat) : Byte := BitVec.ofNat 8 (16 * (d / 10) + d % 10)
    (∃ t u, exec (.adcN n) s = .next t ∧ exec .daa t = .next u
      ∧ u.cpu.a = packed ((x + y + c) % 100) ∧ flagC u = decide (x + y + c ≥ 100)
      ∧ flagZ u = decide ((x + y + c) % 100 = 0))
    ∧ (∃ t u, exec (.sbcN n) s = .next t ∧ exec .daa t = .next u
      ∧ u.cpu.a = packed ((100 + x - y - c) % 100) ∧ flagC u = decide (x < y + c)
      ∧ flagZ u = decide ((100 + x - y - c) % 100 = 0))

/-! ## 16-bit arithmetic -/

/-- R240 to R244: `ADD HL,rr` keeps Z; `INC rr` and `DEC rr` write no flag; `ADD SP,e` takes its flags from the
unsigned low-byte addition. -/
def Obligations.SixteenBitArithmetic : Prop :=
  ∀ s : State,
    let hl : Word := s.cpu.h ++ s.cpu.l
    (∀ p,
        let b := s.cpu.reg16 p
        let r := hl + b
        Does (.addHlRr p) [op8 (0x09 + 16 * r16Code p)] s
          (s.withCpu { s.cpu with
            h := r.extractLsb' 8 8
            l := r.extractLsb' 0 8
            f := flagByte (flagZ s) false (decide (hl.toNat % 0x1000 + b.toNat % 0x1000 > 0x0FFF))
              (decide (hl.toNat + b.toNat > 0xFFFF)) }) 2)
    ∧ (∀ p, Does (.incRr p) [op8 (0x03 + 16 * r16Code p)] s (s.withCpu (s.cpu.setReg16 p (s.cpu.reg16 p + 1))) 2)
    ∧ (∀ p, Does (.decRr p) [op8 (0x0B + 16 * r16Code p)] s (s.withCpu (s.cpu.setReg16 p (s.cpu.reg16 p - 1))) 2)
    ∧ (∀ e : Byte, Does (.addSpE e) [0xE8, e] s
        (s.withCpu { s.cpu with
          sp := s.cpu.sp + e.signExtend 16
          f := flagByte false false (decide (s.cpu.sp.toNat % 16 + e.toNat % 16 > 0x0F))
            (decide (s.cpu.sp.toNat % 256 + e.toNat > 0xFF)) }) 4)

/-! ## Rotates, shifts, bits -/

/-- R251 to R254: Z, N and Hf are cleared. -/
def Obligations.AccumulatorRotates : Prop :=
  ∀ s : State,
    let a := s.cpu.a
    let res (v : Byte) (co : Bool) : State := s.withAF v (flagByte false false false co)
    Does .rlca [0x07] s (res (a.rotateLeft 1) (a.getLsbD 7)) 1
    ∧ Does .rrca [0x0F] s (res (a.rotateRight 1) (a.getLsbD 0)) 1
    ∧ Does .rla [0x17] s (res (a <<< 1 ||| (if flagC s then 0x01 else 0x00)) (a.getLsbD 7)) 1
    ∧ Does .rra [0x1F] s (res (a >>> 1 ||| (if flagC s then 0x80 else 0x00)) (a.getLsbD 0)) 1

/-- R250 and the register forms of R255 to R269. -/
def Obligations.RotateShiftRegister : Prop :=
  ∀ (s : State) (r : Reg8),
    let x := s.cpu.reg8 r
    let res (v : Byte) (co : Bool) : State := (s.withReg r v).withF (flagByte (decide (v.toNat = 0)) false false co)
    let op (n : Nat) : List Byte := [0xCB, op8 (n + r8Code r)]
    Does (.rlcR r) (op 0x00) s (res (x.rotateLeft 1) (x.getLsbD 7)) 2
    ∧ Does (.rrcR r) (op 0x08) s (res (x.rotateRight 1) (x.getLsbD 0)) 2
    ∧ Does (.rlR r) (op 0x10) s (res (x <<< 1 ||| (if flagC s then 0x01 else 0x00)) (x.getLsbD 7)) 2
    ∧ Does (.rrR r) (op 0x18) s (res (x >>> 1 ||| (if flagC s then 0x80 else 0x00)) (x.getLsbD 0)) 2
    ∧ Does (.slaR r) (op 0x20) s (res (x <<< 1) (x.getLsbD 7)) 2
    ∧ Does (.sraR r) (op 0x28) s (res (x.sshiftRight 1) (x.getLsbD 0)) 2
    ∧ Does (.swapR r) (op 0x30) s (res (x <<< 4 ||| x >>> 4) false) 2
    ∧ Does (.srlR r) (op 0x38) s (res (x >>> 1) (x.getLsbD 0)) 2

/-- The `(HL)` forms of R256 to R270: one read, one write of the same address, then the flags. -/
def Obligations.RotateShiftMemory : Prop :=
  ∀ s : State,
    let x := busRead s s.cpu.hl
    let res (v : Byte) (co : Bool) : State :=
      (busWrite s.cpu.hl v s).withF (flagByte (decide (v.toNat = 0)) false false co)
    Does .rlcHl [0xCB, 0x06] s (res (x.rotateLeft 1) (x.getLsbD 7)) 4
    ∧ Does .rrcHl [0xCB, 0x0E] s (res (x.rotateRight 1) (x.getLsbD 0)) 4
    ∧ Does .rlHl [0xCB, 0x16] s (res (x <<< 1 ||| (if flagC s then 0x01 else 0x00)) (x.getLsbD 7)) 4
    ∧ Does .rrHl [0xCB, 0x1E] s (res (x >>> 1 ||| (if flagC s then 0x80 else 0x00)) (x.getLsbD 0)) 4
    ∧ Does .slaHl [0xCB, 0x26] s (res (x <<< 1) (x.getLsbD 7)) 4
    ∧ Does .sraHl [0xCB, 0x2E] s (res (x.sshiftRight 1) (x.getLsbD 0)) 4
    ∧ Does .swapHl [0xCB, 0x36] s (res (x <<< 4 ||| x >>> 4) false) 4
    ∧ Does .srlHl [0xCB, 0x3E] s (res (x >>> 1) (x.getLsbD 0)) 4

/-- R271 to R276. -/
def Obligations.BitTestResetSet : Prop :=
  ∀ (s : State) (b : BitVec 3),
    let m := busRead s s.cpu.hl
    let bitF (v : Byte) : Byte := flagByte (decide (v.toNat / 2 ^ b.toNat % 2 = 0)) false true (flagC s)
    (∀ r, Does (.bitR b r) [0xCB, op8 (0x40 + 8 * b.toNat + r8Code r)] s (s.withF (bitF (s.cpu.reg8 r))) 2)
    ∧ Does (.bitHl b) [0xCB, op8 (0x46 + 8 * b.toNat)] s (s.withF (bitF m)) 3
    ∧ (∀ r, Does (.resR b r) [0xCB, op8 (0x80 + 8 * b.toNat + r8Code r)] s
        (s.withReg r (s.cpu.reg8 r &&& ~~~(1#8 <<< b.toNat))) 2)
    ∧ Does (.resHl b) [0xCB, op8 (0x86 + 8 * b.toNat)] s (busWrite s.cpu.hl (m &&& ~~~(1#8 <<< b.toNat)) s) 4
    ∧ (∀ r, Does (.setR b r) [0xCB, op8 (0xC0 + 8 * b.toNat + r8Code r)] s
        (s.withReg r (s.cpu.reg8 r ||| (1#8 <<< b.toNat))) 2)
    ∧ Does (.setHl b) [0xCB, op8 (0xC6 + 8 * b.toNat)] s (busWrite s.cpu.hl (m ||| (1#8 <<< b.toNat)) s) 4

/-! ## Control flow -/

/-- R280 to R285. -/
def Obligations.Jumps : Prop :=
  ∀ s : State,
    let jump (a : Word) : State := s.withCpu { s.cpu with pc := a }
    (∀ lo hi : Byte, Does (.jpNn (hi ++ lo)) [0xC3, lo, hi] s (jump (hi ++ lo)) 4)
    ∧ (∀ cc (lo hi : Byte), Does (.jpCcNn cc (hi ++ lo)) [op8 (0xC2 + 8 * ccCode cc), lo, hi] s
        (if condTrue cc s then jump (hi ++ lo) else s) (if condTrue cc s then 4 else 3))
    ∧ Does .jpHl [0xE9] s (jump (s.cpu.h ++ s.cpu.l)) 1
    ∧ (∀ e : Byte, Does (.jrE e) [0x18, e] s (jump (BitVec.ofInt 16 (s.cpu.pc.toNat + e.toInt))) 3)
    ∧ (∀ cc (e : Byte), Does (.jrCcE cc e) [op8 (0x20 + 8 * ccCode cc), e] s
        (if condTrue cc s then jump (BitVec.ofInt 16 (s.cpu.pc.toNat + e.toInt)) else s) (if condTrue cc s then 3 else 2))

/-- R286, R287, R291: the return address is the `pc` after the instruction. -/
def Obligations.CallsAndRestarts : Prop :=
  ∀ s : State,
    let call (a : Word) : State :=
      (storeWordDown (s.cpu.sp - 2) s.cpu.pc s).withCpu { s.cpu with sp := s.cpu.sp - 2, pc := a }
    (∀ lo hi : Byte, Does (.callNn (hi ++ lo)) [0xCD, lo, hi] s (call (hi ++ lo)) 6)
    ∧ (∀ cc (lo hi : Byte), Does (.callCcNn cc (hi ++ lo)) [op8 (0xC4 + 8 * ccCode cc), lo, hi] s
        (if condTrue cc s then call (hi ++ lo) else s) (if condTrue cc s then 6 else 3))
    ∧ (∀ t : BitVec 3, Does (.rst t) [op8 (0xC7 + 8 * t.toNat)] s (call (BitVec.ofNat 16 (8 * t.toNat))) 4)

/-- R288 to R290: `RETI` sets IME at once. -/
def Obligations.Returns : Prop :=
  ∀ s : State,
    let back : Cpu := { s.cpu with pc := busRead s (s.cpu.sp + 1) ++ busRead s s.cpu.sp, sp := s.cpu.sp + 2 }
    Does .ret [0xC9] s (s.withCpu back) 4
    ∧ (∀ cc, Does (.retCc cc) [op8 (0xC0 + 8 * ccCode cc)] s
        (if condTrue cc s then s.withCpu back else s) (if condTrue cc s then 5 else 2))
    ∧ Does .reti [0xD9] s (s.withCpu { back with ime := true }) 4

/-! ## CPU control -/

/-- R300 to R304. -/
def Obligations.CpuControl : Prop :=
  ∀ s : State,
    Does .nop [0x00] s s 1
    ∧ Does .halt [0x76] s (s.withCpu { s.cpu with halted := true }) 1
    ∧ (∀ pad, Does (.stop pad) [0x10, pad] s s 1)
    ∧ Does .di [0xF3] s (s.withCpu { s.cpu with ime := false, eiPending := false }) 1
    ∧ Does .ei [0xFB] s (s.withCpu { s.cpu with eiPending := true }) 1

/-- R305: the prefix row fetches one more byte and completes as the instruction that byte selects, with that
instruction's effect and count. -/
def Obligations.PrefixRunsExtended : Prop :=
  ∀ s : State,
    let i := decodeExt (busRead s s.cpu.pc)
    let s' := s.withCpu { s.cpu with pc := s.cpu.pc + 1 }
    encode .prefixCb = [0xCB] ∧ exec .prefixCb s = exec i s' ∧ cycles .prefixCb s = cycles i s'
      ∧ ∃ t m, exec .prefixCb s = .next t ∧ cycles .prefixCb s = some m

/-- R306, R320: an undefined opcode puts `pc` back on itself, records itself in the `fault` cell and changes
nothing else; it has no count. With ILLEGAL_POLICY = nop it is a 1-cycle NOP. -/
def Obligations.UndefinedOpcodes : Prop :=
  ∀ (s : State) (i : Instr) (op : Byte), illegalOp i = some op →
    encode i = [op] ∧ op ∈ undefinedOpcodes
    ∧ (s.cfg.illegalPolicy = .fault →
        exec i s = .next (s.withCpu { s.cpu with pc := s.cpu.pc - 1, fault := some ⟨op, s.cpu.pc - 1⟩ }) ∧ cycles i s = none)
    ∧ (s.cfg.illegalPolicy = .nop → exec i s = .next s ∧ cycles i s = some 1)

/-! ## Frames over all instructions -/

/-- R202: every instruction obeys its row of the table, and an instruction whose four columns keep the flags
leaves F as it is. -/
def Obligations.FlagColumnsHold : Prop :=
  ∀ (i : Instr) (s t : State), exec i s = .next t →
    let k := flagColumns (resolve s i)
    k.z.allows (flagZ s) (flagZ t) = true ∧ k.n.allows (flagN s) (flagN t) = true
      ∧ k.h.allows (flagH s) (flagH t) = true ∧ k.c.allows (flagC s) (flagC t) = true
      ∧ (k = ⟨.keep, .keep, .keep, .keep⟩ → t.cpu.f = s.cpu.f)

/-- The registers: an instruction leaves every 8-bit register alone but its destinations (`destRegs`), and
`sp` is what `spAfter` says. -/
def Obligations.RegisterFrame : Prop :=
  ∀ (i : Instr) (s t : State), exec i s = .next t →
    (∀ r, r ∉ destRegs (resolve s i) → t.cpu.reg8 r = s.cpu.reg8 r) ∧ t.cpu.sp = spAfter (resolve s i) s

/-- The control cells: IME is written by `DI` and `RETI` alone, `ei_pending` by `DI` and `EI`, `halted` by
`HALT`, the `fault` cell by the undefined opcodes (10_state.md R26 to R29); no instruction changes the
configuration (R7) or uses up host input. -/
def Obligations.ControlCellFrame : Prop :=
  ∀ (i : Instr) (s t : State), exec i s = .next t →
    t.cpu.ime = (if i = .di then false else if i = .reti then true else s.cpu.ime)
      ∧ t.cpu.eiPending = (if i = .di then false else if i = .ei then true else s.cpu.eiPending)
      ∧ t.cpu.halted = (if i = .halt then true else s.cpu.halted)
      ∧ t.cpu.fault = (match illegalOp i with
          | some op => if s.cfg.illegalPolicy = .fault then some ⟨op, s.cpu.pc - 1⟩ else s.cpu.fault
          | none => s.cpu.fault)
      ∧ t.cfg = s.cfg ∧ t.hostInput = s.hostInput

/-- Memory and devices: outside the CPU an instruction does exactly its byte writes (`stores`), in order.
Where they all stand on RAM, every other address reads as before, and the last written byte reads back. -/
def Obligations.MemoryFrame : Prop :=
  ∀ (i : Instr) (s t : State), s.inv = true → exec i s = .next t →
    let l := stores (resolve s i) s
    t = (applyStores l s).withCpu t.cpu
      ∧ ((∀ w ∈ l, (target s w.1).isRam = true) →
          (∀ a, (∀ w ∈ l, target s a ≠ target s w.1) → busRead t a = busRead s a)
          ∧ (∀ w, l.getLast? = some w → busRead t w.1 = w.2))

/-! ## The bus -/

/-- R67, R69, R72, R74, R77 and the RAM of R68: a write to an address that stands on RAM is read back at every
address that stands on the same byte, and nothing else the bus shows changes. A write elsewhere changes no
memory, but for the OAM-DMA register, which changes OAM alone. -/
def Obligations.BusWriteFrame : Prop :=
  ∀ (s : State) (a : Word) (v : Byte), s.inv = true →
    ((target s a).isRam = true → ∀ b, busRead (busWrite a v s) b = if target s b = target s a then v else busRead s b)
    ∧ ((target s a).isRam = false → a.toNat ≠ 0xFF46 → (busWrite a v s).ram = s.ram)
    ∧ (a.toNat = 0xFF46 → (busWrite a v s).ram = { s.ram with oam := (busWrite a v s).ram.oam })

/-- R64, R73, R75, R85: echo RAM is the work RAM 0x2000 lower, for reads and writes; where nothing is mapped a
read gives SENTINEL and a write is ignored. -/
def Obligations.EchoAndOpenBus : Prop :=
  ∀ (s : State) (a : Word) (v : Byte),
    (0xE000 ≤ a.toNat → a.toNat < 0xFE00 →
      busRead s a = busRead s (a - 0x2000) ∧ busWrite a v s = busWrite (a - 0x2000) v s)
    ∧ (0xFEA0 ≤ a.toNat → a.toNat < 0xFF00 → busRead s a = s.cfg.sentinel ∧ busWrite a v s = s)
    ∧ (0xFF00 ≤ a.toNat → a.toNat < 0xFF80 →
        a.toNat ∉ [0xFF00, 0xFF04, 0xFF05, 0xFF06, 0xFF07, 0xFF0F, 0xFF40, 0xFF41, 0xFF42, 0xFF43, 0xFF44, 0xFF45,
          0xFF46, 0xFF47, 0xFF48, 0xFF49, 0xFF4A, 0xFF4B, 0xFF70] →
        busRead s a = s.cfg.sentinel ∧ busWrite a v s = s)

/-- The registers of R76 but P1, LCDC and DMA: what a read returns and what a write does (R323, R344 to R346,
R365, R41 to R46, R52, R78). -/
def Obligations.IoRegisters : Prop :=
  ∀ (s : State) (v : Byte),
    (busRead s 0xFF04 = s.timer.div ∧ busWrite 0xFF04 v s = { s with timer := { s.timer with div := 0, divSub := 0 } })
    ∧ (busRead s 0xFF05 = s.timer.tima ∧ busWrite 0xFF05 v s = { s with timer := { s.timer with tima := v } })
    ∧ (busRead s 0xFF06 = s.timer.tma ∧ busWrite 0xFF06 v s = { s with timer := { s.timer with tma := v } })
    ∧ (busRead s 0xFF07 = 0xF8 ||| s.timer.tac.zeroExtend 8
        ∧ busWrite 0xFF07 v s = { s with timer := { s.timer with
            tac := v.extractLsb' 0 3
            timaSub := if v.extractLsb' 0 2 = s.timer.tac.extractLsb' 0 2 then s.timer.timaSub else 0 } })
    ∧ (busRead s 0xFF0F = 0xE0 ||| s.irq.iflag.zeroExtend 8
        ∧ busWrite 0xFF0F v s = { s with irq := { s.irq with iflag := v.extractLsb' 0 5 } })
    ∧ (busRead s 0xFF41 = 0x80 ||| (s.ppu.statEnable.zeroExtend 8 <<< 3) ||| (if s.ppu.coincidence then 0x04 else 0x00)
          ||| (match s.ppu.mode with | .hblank => 0x00 | .vblank => 0x01 | .oamScan => 0x02 | .vramAccess => 0x03)
        ∧ busWrite 0xFF41 v s = { s with ppu := { s.ppu with statEnable := v.extractLsb' 3 4 } })
    ∧ (busRead s 0xFF42 = s.ppu.scy ∧ busWrite 0xFF42 v s = { s with ppu := { s.ppu with scy := v } })
    ∧ (busRead s 0xFF43 = s.ppu.scx ∧ busWrite 0xFF43 v s = { s with ppu := { s.ppu with scx := v } })
    ∧ (busRead s 0xFF44 = s.ppu.ly ∧ busWrite 0xFF44 v s = s)
    ∧ (busRead s 0xFF45 = s.ppu.lyc ∧ busWrite 0xFF45 v s = { s with ppu := { s.ppu with lyc := v } })
    ∧ (busRead s 0xFF47 = s.ppu.bgp ∧ busWrite 0xFF47 v s = { s with ppu := { s.ppu with bgp := v } })
    ∧ (busRead s 0xFF48 = s.ppu.obp0 ∧ busWrite 0xFF48 v s = { s with ppu := { s.ppu with obp0 := v } })
    ∧ (busRead s 0xFF49 = s.ppu.obp1 ∧ busWrite 0xFF49 v s = { s with ppu := { s.ppu with obp1 := v } })
    ∧ (busRead s 0xFF4A = s.ppu.wy ∧ busWrite 0xFF4A v s = { s with ppu := { s.ppu with wy := v } })
    ∧ (busRead s 0xFF4B = s.ppu.wx ∧ busWrite 0xFF4B v s = { s with ppu := { s.ppu with wx := v } })
    ∧ (busRead s 0xFF70 = 0xF8 ||| s.svbk.zeroExtend 8 ∧ busWrite 0xFF70 v s = { s with svbk := v.extractLsb' 0 3 })
    ∧ (busRead s 0xFFFF = s.irq.ie ∧ busWrite 0xFFFF v s = { s with irq := { s.irq with ie := v } })

/-- R364: LCDC reads back; switching the PPU off or on puts LY and the mode clock to 0. -/
def Obligations.LcdcWrite : Prop :=
  ∀ (s : State) (v : Byte),
    busRead s 0xFF40 = s.ppu.lcdc
    ∧ busWrite 0xFF40 v s = { s with ppu :=
        if s.ppu.lcdc.toNat ≥ 0x80 ∧ v.toNat < 0x80 then { s.ppu with lcdc := v, ly := 0, mode := .hblank, modeClock := 0 }
        else if s.ppu.lcdc.toNat < 0x80 ∧ v.toNat ≥ 0x80 then
          { s.ppu with lcdc := v, ly := 0, mode := .oamScan, modeClock := 0 }
        else { s.ppu with lcdc := v } }

/-- R44, R91, R92: a write to DMA stores the value and fills OAM with the 160 bytes the bus reads from
`v << 8` on; nothing else changes. -/
def Obligations.OamDmaCopies : Prop :=
  ∀ (s : State) (v : Byte), s.inv = true →
    let t := busWrite 0xFF46 v s
    (∀ i, i < 160 → Memory.read t.ram.oam i = busRead { s with dma := v } (BitVec.ofNat 16 (256 * v.toNat + i)))
      ∧ busRead t 0xFF46 = v
      ∧ t = { s with dma := v, ram := { s.ram with oam := t.ram.oam } }
      ∧ (v.toNat = 0xFE → t.ram.oam = s.ram.oam)

/-- R106, R111, R112: what 0x0000-0x7FFF reads with each mapper; the bank before the reduction is never a
multiple of 32. -/
def Obligations.RomReads : Prop :=
  ∀ (s : State) (a : Word), a.toNat < 0x8000 →
    let rom (off : Nat) : Byte := if off < s.cfg.cart.romLen then Memory.read s.cfg.cart.rom off else s.cfg.sentinel
    let bank := if s.mapper.mode then s.mapper.bank1.toNat else 32 * s.mapper.bank2.toNat + s.mapper.bank1.toNat
    (s.cfg.cart.mapper = .none → busRead s a = rom a.toNat)
    ∧ (s.cfg.cart.mapper = .type1 → a.toNat < 0x4000 → busRead s a = rom a.toNat)
    ∧ (s.cfg.cart.mapper = .type1 → 0x4000 ≤ a.toNat →
        busRead s a = rom (bank % s.cfg.cart.romBanks * 0x4000 + (a.toNat - 0x4000)))
    ∧ (s.mapper.bank1 ≠ 0 → bank % 32 ≠ 0)

/-- R106 to R110, R114: writes to 0x0000-0x7FFF set the type-1 registers by range and nothing else; without a
controller they are ignored. With MODE 0, the bank written as 0x00, 0x20, 0x40 or 0x60 is the next one. -/
def Obligations.MapperWrites : Prop :=
  ∀ (s : State) (a : Word) (v : Byte), a.toNat < 0x8000 →
    (s.cfg.cart.mapper = .none → busWrite a v s = s)
    ∧ (s.cfg.cart.mapper = .type1 →
        (a.toNat < 0x2000 → busWrite a v s = { s with mapper := { s.mapper with ramEnable := decide (v.toNat % 16 = 0xA) } })
        ∧ (0x2000 ≤ a.toNat → a.toNat < 0x4000 →
            busWrite a v s = { s with mapper := { s.mapper with
              bank1 := if v.toNat % 32 = 0 then 1 else BitVec.ofNat 5 (v.toNat % 32) } })
        ∧ (0x4000 ≤ a.toNat → a.toNat < 0x6000 →
            busWrite a v s = { s with mapper := { s.mapper with bank2 := BitVec.ofNat 2 (v.toNat % 4) } })
        ∧ (0x6000 ≤ a.toNat →
            busWrite a v s = { s with mapper := { s.mapper with mode := decide (v.toNat % 2 = 1) } })
        ∧ (0x2000 ≤ a.toNat → a.toNat < 0x4000 → s.mapper.mode = false → v.toNat % 32 = 0 →
            romBank (busWrite a v s).mapper = 32 * s.mapper.bank2.toNat + 1))

/-- R106, R113: external RAM is read and written at the banked offset; absent, or on type 1 disabled, it reads
SENTINEL and ignores writes. -/
def Obligations.ExternalRam : Prop :=
  ∀ (s : State) (a : Word) (v : Byte), 0xA000 ≤ a.toNat → a.toNat < 0xC000 →
    let size := s.cfg.cart.eramSize
    let bank := if s.cfg.cart.mapper = .type1 ∧ s.mapper.mode = true then s.mapper.bank2.toNat else 0
    let off := (bank * 0x2000 + (a.toNat - 0xA000)) % size
    if size = 0 ∨ (s.cfg.cart.mapper = .type1 ∧ s.mapper.ramEnable = false) then
      busRead s a = s.cfg.sentinel ∧ busWrite a v s = s
    else
      busRead s a = Memory.read s.ram.eram off
        ∧ busWrite a v s = { s with ram := { s.ram with eram := Memory.write s.ram.eram off v } }

/-- R392, R391: the joypad nibble, and what a write to P1 stores. -/
def Obligations.JoypadRegister : Prop :=
  ∀ (s : State) (v : Byte),
    let k := s.joypad.buttons
    let on (b : Bool) (n : Nat) : Byte := if b then BitVec.ofNat 8 n else 0
    let dirs := on k.right 1 ||| on k.left 2 ||| on k.up 4 ||| on k.down 8
    let acts := on k.a 1 ||| on k.b 2 ||| on k.select 4 ||| on k.start 8
    let n0 : Byte := 0x0F
    let n1 := if s.joypad.selDir then n0 else n0 &&& ~~~dirs
    let n2 := if s.joypad.selAction then n1 else n1 &&& ~~~acts
    busRead s 0xFF00 = 0xC0 ||| on s.joypad.selAction 0x20 ||| on s.joypad.selDir 0x10 ||| n2
      ∧ busWrite 0xFF00 v s = { s with joypad := { s.joypad with selAction := v.getLsbD 5, selDir := v.getLsbD 4 } }

/-! ## The devices -/

/-- R343: the Timer loses no clock cycle: running it for `a` and then `b` cycles is running it for `a + b`. -/
def Obligations.TimerAdditive : Prop :=
  ∀ (s : State) (a b : Nat), timerRun (a + b) s = timerRun b (timerRun a s)

/-- R341, R343, R347: DIV counts every 256 cycles; an enabled TIMA counts every period, and the count past
0xFF reloads it from TMA and requests interrupt 2, exactly when the cycles reach `period * (256 - TIMA)`; a
disabled one keeps still. -/
def Obligations.TimerOverflow : Prop :=
  ∀ (s : State) (t : Nat),
    let p := [1024, 16, 64, 256].getD (s.timer.tac.toNat % 4) 0
    let sum := s.timer.timaSub + t
    let u := timerRun t s
    (u.timer.div = BitVec.ofNat 8 (s.timer.div.toNat + (s.timer.divSub + t) / 256)
      ∧ u.timer.divSub = (s.timer.divSub + t) % 256)
    ∧ (s.timer.tac.getLsbD 2 = false →
        u.timer.tima = s.timer.tima ∧ u.timer.timaSub = s.timer.timaSub ∧ u.irq = s.irq)
    ∧ (s.timer.tac.getLsbD 2 = true → u.timer.timaSub = sum % p
        ∧ (sum < p * (256 - s.timer.tima.toNat) →
            u.timer.tima = BitVec.ofNat 8 (s.timer.tima.toNat + sum / p) ∧ u.irq = s.irq)
        ∧ (p * (256 - s.timer.tima.toNat) ≤ sum → sum < p * (257 - s.timer.tima.toNat) →
            u.timer.tima = s.timer.tma ∧ u.irq = { s.irq with iflag := s.irq.iflag ||| 0b00100 }))

/-- R362, R363: the PPU carries every excess cycle: running it for `a` and then `b` cycles is running it for
`a + b`, so the sum of the budgets and not the size of the CPU's steps fixes the frame. Switched off, it
keeps still. -/
def Obligations.PpuAdditive : Prop :=
  (∀ (s : State) (a b : Nat), ppuRun (a + b) s = ppuRun b (ppuRun a s))
    ∧ ∀ (s : State) (t : Nat), s.ppu.lcdc.getLsbD 7 = false → ppuRun t s = s

/-- R366, R367, R369, R371: a visible line from its start: VRAM-access at 80, HBLANK with the STAT evaluation
at 252, the next line at 456, VBLANK and its interrupt after line 143. The row is drawn at the end of the
line, from the state of that moment, and no other pixel changes. -/
def Obligations.PpuVisibleLine : Prop :=
  ∀ s : State, s.ppu.lcdc.getLsbD 7 = true → s.ppu.mode = .oamScan → s.ppu.modeClock = 0 → s.ppu.ly.toNat < 144 →
    let ly := s.ppu.ly.toNat
    let co := decide (s.ppu.ly = s.ppu.lyc)
    let u := ppuRun 252 s
    let w := ppuRun 456 s
    (ppuRun 79 s).ppu.mode = .oamScan ∧ (ppuRun 80 s).ppu.mode = .vramAccess ∧ (ppuRun 251 s).ppu.mode = .vramAccess
      ∧ u.ppu.mode = .hblank ∧ u.ppu.coincidence = co
      ∧ u.irq.iflag.getLsbD 1 = (s.irq.iflag.getLsbD 1 || s.ppu.statEnable.getLsbD 0 || (s.ppu.statEnable.getLsbD 3 && co))
      ∧ (ppuRun 455 s).ppu.ly = s.ppu.ly ∧ (ppuRun 455 s).ppu.framebuffer = s.ppu.framebuffer
      ∧ w.ppu.ly = s.ppu.ly + 1 ∧ w.ppu.modeClock = 0
      ∧ w.ppu.mode = (if ly = 143 then .vblank else .oamScan)
      ∧ w.irq.iflag.getLsbD 0 = (s.irq.iflag.getLsbD 0 || decide (ly = 143))
      ∧ w.ppu.framebuffer = (renderScanline ly s).ppu.framebuffer
      ∧ (s.inv = true → ∀ y x, y < 144 → x < 160 →
          pixelAt w y x = if y = ly then pixelAt (renderScanline ly s) y x else pixelAt s y x)

/-- R361, R370, R371: from the start of line 0, VBLANK begins after 65664 cycles with its interrupt requested,
the 144 rows drawn and the frame not yet signalled; the next frame begins after 70224, with the sprites drawn
over the rows and `frame_ready` set. -/
def Obligations.PpuFrameLength : Prop :=
  ∀ s : State, s.ppu.lcdc.getLsbD 7 = true → s.ppu.mode = .oamScan → s.ppu.modeClock = 0 → s.ppu.ly = 0 →
    let v := ppuRun 65664 s
    let w := ppuRun 70224 s
    v.ppu.mode = .vblank ∧ v.ppu.ly = 144 ∧ v.irq.iflag.getLsbD 0 = true ∧ v.ppu.frameReady = s.ppu.frameReady
      ∧ v.ppu.framebuffer = ((List.range 144).foldl (fun t ly => renderScanline ly t) s).ppu.framebuffer
      ∧ (ppuRun 70223 s).ppu.ly = 153 ∧ (ppuRun 70223 s).ppu.framebuffer = v.ppu.framebuffer
      ∧ w.ppu.mode = .oamScan ∧ w.ppu.ly = 0 ∧ w.ppu.modeClock = 0 ∧ w.ppu.frameReady = true
      ∧ w.ppu.framebuffer = (renderSprites v).ppu.framebuffer

/-- R372 to R374: `RenderScanline` writes exactly its row: the window's point where it covers the pixel, else
the scrolled background's, each read from the tile map and the tile's bit planes in VRAM, through BGP; shade 0
with LCDC bit 0 clear. -/
def Obligations.ScanlinePixels : Prop :=
  ∀ (s : State) (ly y x : Nat), s.inv = true → ly < 144 → y < 144 → x < 160 →
    let lcdc (i : Nat) : Bool := s.ppu.lcdc.getLsbD i
    let wx := s.ppu.wx.toNat
    let wy := s.ppu.wy.toNat
    pixelAt (renderScanline ly s) y x =
      if y ≠ ly then pixelAt s y x
      else if lcdc 0 = false then 0
      else if lcdc 5 = true ∧ wy ≤ ly ∧ wx ≤ x + 7 then
        paletteShade s.ppu.bgp (mapPoint s (if lcdc 6 then 0x9C00 else 0x9800) (x + 7 - wx) (ly - wy))
      else
        paletteShade s.ppu.bgp (mapPoint s (if lcdc 3 then 0x9C00 else 0x9800)
          ((s.ppu.scx.toNat + x) % 256) ((s.ppu.scy.toNat + ly) % 256))

/-- R375, R376: each pixel after `RenderSprites` is the pixel before it with the sprites laid over it from
entry 39 down to entry 0: colour 0 is transparent, and a sprite behind the background shows only over the
shade of background colour 0. With LCDC bit 1 clear nothing is drawn. -/
def Obligations.SpritePixels : Prop :=
  ∀ (s : State) (y x : Nat), s.inv = true → y < 144 → x < 160 →
    pixelAt (renderSprites s) y x =
      if s.ppu.lcdc.getLsbD 1 = false then pixelAt s y x
      else (List.range 40).foldl (fun p k => overlay s y x p (39 - k)) (pixelAt s y x)

/-- R63, R120, R324: the Timer and the PPU change no register of the CPU, no memory, no select register, not IE
and not the configuration, and withdraw no request; they raise none but VBlank, STAT and Timer. -/
def Obligations.DevicesFrame : Prop :=
  ∀ (m : Option Nat) (s : State),
    let t := advanceDevices m s
    t.cpu = s.cpu ∧ t.ram = s.ram ∧ t.joypad = s.joypad ∧ t.mapper = s.mapper ∧ t.dma = s.dma ∧ t.svbk = s.svbk
      ∧ t.cfg = s.cfg ∧ t.hostInput = s.hostInput ∧ t.irq.ie = s.irq.ie
      ∧ (∀ j, s.irq.iflag.getLsbD j = true → t.irq.iflag.getLsbD j = true)
      ∧ t.irq.iflag.getLsbD 3 = s.irq.iflag.getLsbD 3 ∧ t.irq.iflag.getLsbD 4 = s.irq.iflag.getLsbD 4

/-- R377, R393: a button the host presses that was released requests the Joypad interrupt, any other change
requests nothing; clearing `frame_ready` touches that bit alone. -/
def Obligations.HostActions : Prop :=
  ∀ (s : State) (k : Button) (pressed : Bool),
    let b := s.joypad.buttons
    let t := hostAct (.setButton k pressed) s
    t.joypad.buttons.get k = pressed
      ∧ (∀ q, q ≠ k → t.joypad.buttons.get q = b.get q)
      ∧ t.irq = (if pressed = true ∧ b.get k = false then { s.irq with iflag := s.irq.iflag ||| 0b10000 } else s.irq)
      ∧ t = { s with joypad := { s.joypad with buttons := t.joypad.buttons }, irq := t.irq }
      ∧ hostAct .clearFrameReady s = { s with ppu := { s.ppu with frameReady := false } }

/-! ## The step -/

/-- R8, R134: when nothing is dispatched and the CPU does not idle, a step runs the instruction whose bytes
stand at `pc`: the host's actions, then `pc` past the instruction, a pending `EI` moved into IME and a halt
ended, then the instruction's effect, then Timer and PPU by its cycles. -/
def Obligations.StepRunsTheDecodedInstruction : Prop :=
  ∀ (s : State) (i : Instr) (rest : List Byte),
    let u := hostPhase s
    s.cpu.fault = none →
    (u.cpu.ime = true → pending u = 0) →
    (u.cpu.halted = true → pending u ≠ 0) →
    decode [busRead u u.cpu.pc, busRead u (u.cpu.pc + 1), busRead u (u.cpu.pc + 2)] = .ok (i, rest) →
    let v := u.withCpu { u.cpu with
      pc := u.cpu.pc + BitVec.ofNat 16 (encode i).length
      ime := u.cpu.ime || u.cpu.eiPending
      eiPending := false
      halted := false }
    ∃ t, exec i v = .next t ∧ step s = .next (advanceDevices (cycles i v) t)

/-- R325 to R329: with IME set and interrupt `n` the lowest that is enabled and requested, a step dispatches
it instead of fetching: `pc` is pushed, IME, `ei_pending` and `halted` cleared, `pc` set to 0x0040 + 8 n, the
request cleared, 5 machine cycles charged. -/
def Obligations.StepDispatchesLowest : Prop :=
  ∀ (s : State) (n : Nat),
    let u := hostPhase s
    s.cpu.fault = none → u.cpu.ime = true → n < 5 →
    u.irq.ie.getLsbD n = true → u.irq.iflag.getLsbD n = true →
    (∀ j, j < n → (u.irq.ie.getLsbD j && u.irq.iflag.getLsbD j) = false) →
    let w := storeWordDown (u.cpu.sp - 2) u.cpu.pc u
    step s = .next (advanceDevices (some 5)
      { w with
        cpu := { u.cpu with sp := u.cpu.sp - 2, halted := false, ime := false, eiPending := false,
                            pc := BitVec.ofNat 16 (0x0040 + 8 * n) }
        irq := { w.irq with iflag := w.irq.iflag &&& ~~~(BitVec.ofNat 5 (2 ^ n)) } })

/-- R301, R28: `HALT` sets `halted`. A halted CPU with nothing pending idles for HALT_IDLE_COST and only the
devices move; with something pending it leaves halt whatever IME is, so that the step is the one of the same
machine not halted. The host's actions come first (log entry 4). -/
def Obligations.HaltIdlesAndWakes : Prop :=
  (∀ s : State, Does .halt [0x76] s (s.withCpu { s.cpu with halted := true }) 1)
    ∧ ∀ s : State, s.cpu.fault = none → s.cpu.halted = true →
        let u := hostPhase s
        (pending u = 0 → step s = .next (advanceDevices (some s.cfg.haltIdleCost) u))
        ∧ (pending u ≠ 0 → step s = step (s.withCpu { s.cpu with halted := false }))

/-- R8, R29, R306: an undefined opcode at `pc` stops the machine: the step moves a pending `EI` into IME,
records the opcode and its address, and changes nothing else, Timer and PPU included. Of a machine whose
`fault` cell is set, whatever else it holds, no step follows. -/
def Obligations.UndefinedOpcodeStops : Prop :=
  (∀ s : State, s.cpu.fault = none → s.hostInput = [] → s.cfg.illegalPolicy = .fault → s.cpu.halted = false →
    (s.cpu.ime = true → pending s = 0) → busRead s s.cpu.pc ∈ undefinedOpcodes →
    let op := busRead s s.cpu.pc
    let t := s.withCpu { s.cpu with ime := s.cpu.ime || s.cpu.eiPending, eiPending := false, fault := some ⟨op, s.cpu.pc⟩ }
    step s = .next t ∧ step t = .fault (.stopped op s.cpu.pc))
  ∧ ∀ (s : State) (x : IllegalOpcode), s.cpu.fault = some x → step s = .fault (.stopped x.op x.addr)

/-- R304, R303: `EI` leaves IME alone and sets `ei_pending`, so the next step's interrupt check is made with
the old IME; the instruction after it, fetched where nothing is dispatched, runs with IME set; and where that
instruction is `DI`, IME is 0 again after the pair, with no dispatch in between. -/
def Obligations.EiDelaysOneInstruction : Prop :=
  ∀ s : State, s.cpu.fault = none → s.hostInput = [] → s.cpu.halted = false → (s.cpu.ime = true → pending s = 0) →
    busRead s s.cpu.pc = 0xFB →
    ∃ t, step s = .next t
      ∧ t.cpu = { s.cpu with pc := s.cpu.pc + 1, ime := s.cpu.ime || s.cpu.eiPending, eiPending := true }
      ∧ ((t.cpu.ime = true → pending t = 0) → ∀ i rest,
          decode [busRead t t.cpu.pc, busRead t (t.cpu.pc + 1), busRead t (t.cpu.pc + 2)] = .ok (i, rest) →
          let v := t.withCpu { t.cpu with
            pc := t.cpu.pc + BitVec.ofNat 16 (encode i).length
            ime := true
            eiPending := false }
          ∃ u, exec i v = .next u ∧ step t = .next (advanceDevices (cycles i v) u))
      ∧ (t.cpu.ime = false → busRead t t.cpu.pc = 0xF3 →
          ∃ u, step t = .next u ∧ u.cpu = { s.cpu with pc := s.cpu.pc + 2, ime := false, eiPending := false })

/-- R7, R33: no step changes the configuration; the image is read-only for the whole session. -/
def Obligations.StepKeepsConfiguration : Prop :=
  ∀ s t : State, step s = .next t → t.cfg = s.cfg

/-! ## Reset and the invariant -/

/-- R55: the cells after reset with any accepted image and any launch contents of the memories. -/
def Obligations.ResetValues : Prop :=
  ∀ (ram : Ram) (params : Config) (image : List Byte) (s : State),
    resetWithImage ResetRecord.default ram params image = .ok s →
    s.cpu = { a := 0x01, f := flagByte true false true true, b := 0x00, c := 0x13, d := 0x00, e := 0xD8, h := 0x01,
              l := 0x4D, sp := 0xFFFE, pc := 0x0100, ime := false, eiPending := false, halted := false, fault := none }
    ∧ s.irq = { ie := 0x00, iflag := 0 }
    ∧ s.timer = { div := 0x00, tima := 0x00, tma := 0x00, tac := 0, divSub := 0, timaSub := 0 }
    ∧ s.joypad.selAction = true ∧ s.joypad.selDir = true ∧ (∀ k, s.joypad.buttons.get k = false)
    ∧ s.dma = 0xFF ∧ s.svbk = 0
    ∧ s.mapper = { bank1 := 1, bank2 := 0, mode := false, ramEnable := false }
    ∧ s.ppu.lcdc = 0x91 ∧ s.ppu.statEnable = 0 ∧ s.ppu.coincidence = true ∧ s.ppu.mode = .oamScan ∧ s.ppu.modeClock = 0
    ∧ s.ppu.ly = 0 ∧ s.ppu.lyc = 0 ∧ s.ppu.scy = 0 ∧ s.ppu.scx = 0 ∧ s.ppu.wy = 0 ∧ s.ppu.wx = 0
    ∧ s.ppu.bgp = 0xFC ∧ s.ppu.obp0 = 0xFF ∧ s.ppu.obp1 = 0xFF ∧ s.ppu.frameReady = false
    ∧ (∀ y x, pixelAt s y x = 0) ∧ s.ram = ram

/-- R101 to R105, R431: an image is refused exactly when it is shorter than 0x0150 bytes or its header holds
another mapper, ROM or RAM code than the listed ones; an accepted one fixes mapper, banks and RAM size. -/
def Obligations.LoadRefusals : Prop :=
  ∀ image : List Byte,
    let code (k : Nat) : Nat := (image.getD k 0).toNat
    let bad : Prop := image.length < 0x150 ∨ code 0x147 ∉ [0, 1, 2, 3, 8, 9] ∨ code 0x148 > 8 ∨ code 0x149 > 5
    (bad ↔ ∃ e, loadCartridge image = .error e)
    ∧ ∀ cart, loadCartridge image = .ok cart →
        cart.mapper = (if code 0x147 ∈ [1, 2, 3] then .type1 else .none)
        ∧ cart.romBanks = 2 <<< code 0x148
        ∧ cart.eramSize = (if code 0x147 ∈ [0, 1] then 0 else [0, 2048, 8192, 32768, 131072, 65536].getD (code 0x149) 0)
        ∧ cart.romLen = image.length
        ∧ ∀ k, Memory.read cart.rom k = image.getD k 0

/-- The invariant holds right after reset. The reset memories and cartridge are the model's choice (log entries
2 and 3). -/
def Obligations.ResetMeetsInvariant : Prop := State.reset.inv = true

/-- Every step keeps the invariant: F's low nibble stays 0, the hidden cells of Timer and PPU stay inside their
periods and budgets, LY fits the mode, BANK1 is never 0, every memory keeps its canonical form and size, and
the `fault` cell holds only an undefined opcode at `pc`. -/
def Obligations.StepKeepsInvariant : Prop :=
  ∀ s t : State, s.inv = true → step s = .next t → t.inv = true

/-! ## Where the RAM of the CORE stands -/

/-- R67, R69, R72, R74, R77: the byte each address of VRAM, work RAM bank 0, the switchable work-RAM bank, OAM
and HRAM reads and writes, in every mode of the PPU; the bank is that of SVBK (R52). -/
def Obligations.RamRegions : Prop :=
  ∀ (s : State) (a : Word) (v : Byte),
    let n := a.toNat
    let bank := (max s.svbk.toNat 1 - 1) % (s.cfg.wramBanks - 1) + 1
    let banked := 0x1000 * bank + (n - 0xD000)
    (0x8000 ≤ n → n < 0xA000 → busRead s a = Memory.read s.ram.vram (n - 0x8000)
      ∧ busWrite a v s = { s with ram := { s.ram with vram := Memory.write s.ram.vram (n - 0x8000) v } })
    ∧ (0xC000 ≤ n → n < 0xD000 → busRead s a = Memory.read s.ram.wram (n - 0xC000)
      ∧ busWrite a v s = { s with ram := { s.ram with wram := Memory.write s.ram.wram (n - 0xC000) v } })
    ∧ (0xD000 ≤ n → n < 0xE000 → busRead s a = Memory.read s.ram.wram banked
      ∧ busWrite a v s = { s with ram := { s.ram with wram := Memory.write s.ram.wram banked v } })
    ∧ (0xFE00 ≤ n → n < 0xFEA0 → busRead s a = Memory.read s.ram.oam (n - 0xFE00)
      ∧ busWrite a v s = { s with ram := { s.ram with oam := Memory.write s.ram.oam (n - 0xFE00) v } })
    ∧ (0xFF80 ≤ n → n < 0xFFFF → busRead s a = Memory.read s.ram.hram (n - 0xFF80)
      ∧ busWrite a v s = { s with ram := { s.ram with hram := Memory.write s.ram.hram (n - 0xFF80) v } })
end

