-- ==== Sys2Proof/Laws/Memory.lean ====
section
/-! SUPPORT. The laws of sparse storage: what a write stores, what it leaves alone, and that it keeps the
canonical form. -/

namespace Sys2Proof.Machine

variable {n : Nat}

theorem Cells.wfFrom_mono {lo lo' : Nat} {m : Cells n} (h : Cells.wfFrom lo m) (hle : lo' ≤ lo) :
    Cells.wfFrom lo' m := by
  cases m with
  | nil => rfl
  | cons e rest =>
    obtain ⟨j, v⟩ := e
    simp only [Cells.wfFrom, Bool.and_eq_true, decide_eq_true_eq] at h ⊢
    exact ⟨⟨by omega, h.1.2⟩, h.2⟩

/-- Nothing is listed below the bound of a canonical list. -/
theorem Cells.read_below {lo k : Nat} {m : Cells n} (h : Cells.wfFrom lo m) (hk : k < lo) :
    Cells.read m k = 0#n := by
  cases m with
  | nil => rfl
  | cons e rest =>
    obtain ⟨j, v⟩ := e
    simp only [Cells.wfFrom, Bool.and_eq_true, decide_eq_true_eq] at h
    have h1 : k ≠ j := by omega
    have h2 : k < j := by omega
    simp [Cells.read, h1, h2]

/-- A write keeps the canonical form above any bound that the written number respects. -/
theorem Cells.wfFrom_write {lo k : Nat} {m : Cells n} (h : Cells.wfFrom lo m) (hk : lo ≤ k) (v : BitVec n) :
    Cells.wfFrom lo (Cells.write m k v) := by
  induction m generalizing lo with
  | nil => by_cases hv : v = 0#n <;> simp [Cells.write, Cells.wfFrom, hv, hk]
  | cons e rest ih =>
    obtain ⟨j, w⟩ := e
    simp only [Cells.wfFrom, Bool.and_eq_true, decide_eq_true_eq] at h
    obtain ⟨⟨hj, hw⟩, hrest⟩ := h
    by_cases h1 : k < j
    · by_cases hv : v = 0#n
      · simp [Cells.write, h1, hv, Cells.wfFrom, hj, hw, hrest]
      · have : k + 1 ≤ j := h1
        simp [Cells.write, h1, hv, Cells.wfFrom, hk, hw, hrest, this]
    · by_cases h2 : k = j
      · subst h2
        by_cases hv : v = 0#n
        · simpa [Cells.write, hv] using Cells.wfFrom_mono hrest (by omega)
        · simp [Cells.write, hv, Cells.wfFrom, hk, hrest]
      · have h3 := ih hrest (by omega)
        simp [Cells.write, h1, h2, Cells.wfFrom, hj, hw, h3]

/-- Every write keeps the canonical form. -/
theorem Cells.wf_write {m : Cells n} (h : Cells.wf m) (k : Nat) (v : BitVec n) : Cells.wf (Cells.write m k v) :=
  Cells.wfFrom_write h (Nat.zero_le k) v

theorem Cells.read_write_same_from {lo k : Nat} {m : Cells n} (h : Cells.wfFrom lo m) (v : BitVec n) :
    Cells.read (Cells.write m k v) k = v := by
  induction m generalizing lo with
  | nil => by_cases hv : v = 0#n <;> simp [Cells.write, Cells.read, hv]
  | cons e rest ih =>
    obtain ⟨j, w⟩ := e
    simp only [Cells.wfFrom, Bool.and_eq_true, decide_eq_true_eq] at h
    obtain ⟨⟨hj, hw⟩, hrest⟩ := h
    by_cases h1 : k < j
    · have h2 : k ≠ j := by omega
      by_cases hv : v = 0#n <;> simp [Cells.write, Cells.read, h1, h2, hv]
    · by_cases h2 : k = j
      · subst h2
        by_cases hv : v = 0#n
        · simpa [Cells.write, hv] using Cells.read_below hrest (by omega)
        · simp [Cells.write, Cells.read, hv]
      · simpa [Cells.write, Cells.read, h1, h2] using ih hrest

/-- Read after write, same number. -/
theorem Cells.read_write_same {m : Cells n} (h : Cells.wf m) (k : Nat) (v : BitVec n) :
    Cells.read (Cells.write m k v) k = v :=
  Cells.read_write_same_from h v

theorem Cells.read_write_other_from {lo k j : Nat} {m : Cells n} (h : Cells.wfFrom lo m) (hne : j ≠ k) (v : BitVec n) :
    Cells.read (Cells.write m k v) j = Cells.read m j := by
  induction m generalizing lo with
  | nil => by_cases hv : v = 0#n <;> simp [Cells.write, Cells.read, hv, hne]
  | cons e rest ih =>
    obtain ⟨i, w⟩ := e
    simp only [Cells.wfFrom, Bool.and_eq_true, decide_eq_true_eq] at h
    obtain ⟨⟨hi, hw⟩, hrest⟩ := h
    by_cases h1 : k < i
    · by_cases hv : v = 0#n
      · simp [Cells.write, h1, hv]
      · by_cases h4 : j < k
        · have h5 : j ≠ i := by omega
          have h6 : j < i := by omega
          simp [Cells.write, Cells.read, h1, hv, hne, h4, h5, h6]
        · simp [Cells.write, Cells.read, h1, hv, hne, h4]
    · by_cases h2 : k = i
      · subst h2
        by_cases hv : v = 0#n
        · by_cases h4 : j < k
          · simpa [Cells.write, Cells.read, hv, hne, h4] using Cells.read_below hrest (by omega)
          · simp [Cells.write, Cells.read, hv, hne, h4]
        · simp [Cells.write, Cells.read, hv, hne]
      · simp only [Cells.write, h1, h2, if_false, Cells.read, ih hrest]

/-- A write leaves every other number alone. -/
theorem Cells.read_write_other {m : Cells n} (h : Cells.wf m) {k j : Nat} (hne : j ≠ k) (v : BitVec n) :
    Cells.read (Cells.write m k v) j = Cells.read m j :=
  Cells.read_write_other_from h hne v

/-- A write below a size stays below it. -/
theorem Cells.below_write {m : Cells n} {size k : Nat} (h : Cells.below size m) (hk : k < size) (v : BitVec n) :
    Cells.below size (Cells.write m k v) := by
  induction m with
  | nil => by_cases hv : v = 0#n <;> simp [Cells.write, Cells.below, hv, hk]
  | cons e rest ih =>
    obtain ⟨j, w⟩ := e
    simp only [Cells.below, List.all_cons, Bool.and_eq_true, decide_eq_true_eq] at h ih ⊢
    have ih' := ih h.2
    by_cases h1 : k < j
    · by_cases hv : v = 0#n
      · simpa [Cells.write, h1, hv] using h
      · simpa [Cells.write, h1, hv, hk] using h
    · by_cases h2 : k = j
      · by_cases hv : v = 0#n
        · simpa [Cells.write, h1, h2, hv] using h.2
        · simpa [Cells.write, h1, h2, hv] using h
      · simpa [Cells.write, h1, h2, h.1] using ih'

/-! The same for memories of bytes. -/

theorem Memory.wf_write {m : Memory} (h : m.wf) (k : Nat) (v : Byte) : (m.write k v).wf :=
  Cells.wf_write (n := 8) h k v

theorem Memory.read_write_same {m : Memory} (h : m.wf) (k : Nat) (v : Byte) : (m.write k v).read k = v :=
  Cells.read_write_same (n := 8) h k v

theorem Memory.read_write_other {m : Memory} (h : m.wf) {k j : Nat} (hne : j ≠ k) (v : Byte) :
    (m.write k v).read j = m.read j :=
  Cells.read_write_other (n := 8) h hne v

@[simp] theorem Memory.read_nil (k : Nat) : Memory.read [] k = 0 := rfl

/-- Two canonical lists that read alike are the same list. -/
theorem Cells.ext_from {lo : Nat} {m m' : Cells n} (h : Cells.wfFrom lo m) (h' : Cells.wfFrom lo m')
    (heq : ∀ k, Cells.read m k = Cells.read m' k) : m = m' := by
  induction m generalizing lo m' with
  | nil =>
    cases m' with
    | nil => rfl
    | cons e rest =>
      obtain ⟨j, v⟩ := e
      simp only [Cells.wfFrom, Bool.and_eq_true, decide_eq_true_eq] at h'
      exact absurd (by simpa [Cells.read] using (heq j).symm) h'.1.2
  | cons e rest ih =>
    obtain ⟨j, v⟩ := e
    have h0 := h
    simp only [Cells.wfFrom, Bool.and_eq_true, decide_eq_true_eq] at h
    cases m' with
    | nil => exact absurd (by simpa [Cells.read] using heq j) h.1.2
    | cons e' rest' =>
      obtain ⟨j', v'⟩ := e'
      have h0' := h'
      simp only [Cells.wfFrom, Bool.and_eq_true, decide_eq_true_eq] at h'
      have hj : j = j' := by
        rcases Nat.lt_trichotomy j j' with hlt | heqj | hgt
        · have := heq j
          have hne : j ≠ j' := by omega
          simp [Cells.read, hne, hlt] at this
          exact absurd this h.1.2
        · exact heqj
        · have := heq j'
          have hne : j' ≠ j := by omega
          simp [Cells.read, hne, hgt] at this
          exact absurd this.symm h'.1.2
      subst hj
      have hv : v = v' := by simpa [Cells.read] using heq j
      subst hv
      have hr : rest = rest' := by
        refine ih h.2 h'.2 (fun k => ?_)
        by_cases hk : k ≤ j
        · rw [Cells.read_below h.2 (by omega), Cells.read_below h'.2 (by omega)]
        · have h1 : k ≠ j := by omega
          have h2 : ¬ k < j := by omega
          simpa [Cells.read, h1, h2] using heq k
      rw [hr]

/-- Equal contents are equal data. -/
theorem Memory.ext_of_wf {m m' : Memory} (h : m.wf) (h' : m'.wf) (heq : ∀ k, m.read k = m'.read k) : m = m' :=
  Cells.ext_from (n := 8) h h' heq

end Sys2Proof.Machine
end

