-- ==== Sys2Proof/Laws/State.lean ====
section
/-! SUPPORT. One lemma per field per update of the state, so that no proof unfolds a record update. -/

namespace Sys2Proof.Machine

/-! `State.withCpu` -/

@[simp] theorem State.withCpu_cpu (s : State) (c : Cpu) : (s.withCpu c).cpu = c := rfl
@[simp] theorem State.withCpu_irq (s : State) (c : Cpu) : (s.withCpu c).irq = s.irq := rfl
@[simp] theorem State.withCpu_timer (s : State) (c : Cpu) : (s.withCpu c).timer = s.timer := rfl
@[simp] theorem State.withCpu_joypad (s : State) (c : Cpu) : (s.withCpu c).joypad = s.joypad := rfl
@[simp] theorem State.withCpu_ppu (s : State) (c : Cpu) : (s.withCpu c).ppu = s.ppu := rfl
@[simp] theorem State.withCpu_mapper (s : State) (c : Cpu) : (s.withCpu c).mapper = s.mapper := rfl
@[simp] theorem State.withCpu_dma (s : State) (c : Cpu) : (s.withCpu c).dma = s.dma := rfl
@[simp] theorem State.withCpu_svbk (s : State) (c : Cpu) : (s.withCpu c).svbk = s.svbk := rfl
@[simp] theorem State.withCpu_ram (s : State) (c : Cpu) : (s.withCpu c).ram = s.ram := rfl
@[simp] theorem State.withCpu_hostInput (s : State) (c : Cpu) : (s.withCpu c).hostInput = s.hostInput := rfl
@[simp] theorem State.withCpu_cfg (s : State) (c : Cpu) : (s.withCpu c).cfg = s.cfg := rfl

/-! `State.setPc` -/

@[simp] theorem State.setPc_cpu (s : State) (v : Word) : (s.setPc v).cpu = { s.cpu with pc := v } := rfl
@[simp] theorem State.setPc_irq (s : State) (v : Word) : (s.setPc v).irq = s.irq := rfl
@[simp] theorem State.setPc_timer (s : State) (v : Word) : (s.setPc v).timer = s.timer := rfl
@[simp] theorem State.setPc_joypad (s : State) (v : Word) : (s.setPc v).joypad = s.joypad := rfl
@[simp] theorem State.setPc_ppu (s : State) (v : Word) : (s.setPc v).ppu = s.ppu := rfl
@[simp] theorem State.setPc_mapper (s : State) (v : Word) : (s.setPc v).mapper = s.mapper := rfl
@[simp] theorem State.setPc_dma (s : State) (v : Word) : (s.setPc v).dma = s.dma := rfl
@[simp] theorem State.setPc_svbk (s : State) (v : Word) : (s.setPc v).svbk = s.svbk := rfl
@[simp] theorem State.setPc_ram (s : State) (v : Word) : (s.setPc v).ram = s.ram := rfl
@[simp] theorem State.setPc_hostInput (s : State) (v : Word) : (s.setPc v).hostInput = s.hostInput := rfl
@[simp] theorem State.setPc_cfg (s : State) (v : Word) : (s.setPc v).cfg = s.cfg := rfl

/-! `State.setSp` -/

@[simp] theorem State.setSp_cpu (s : State) (v : Word) : (s.setSp v).cpu = { s.cpu with sp := v } := rfl
@[simp] theorem State.setSp_irq (s : State) (v : Word) : (s.setSp v).irq = s.irq := rfl
@[simp] theorem State.setSp_timer (s : State) (v : Word) : (s.setSp v).timer = s.timer := rfl
@[simp] theorem State.setSp_joypad (s : State) (v : Word) : (s.setSp v).joypad = s.joypad := rfl
@[simp] theorem State.setSp_ppu (s : State) (v : Word) : (s.setSp v).ppu = s.ppu := rfl
@[simp] theorem State.setSp_mapper (s : State) (v : Word) : (s.setSp v).mapper = s.mapper := rfl
@[simp] theorem State.setSp_dma (s : State) (v : Word) : (s.setSp v).dma = s.dma := rfl
@[simp] theorem State.setSp_svbk (s : State) (v : Word) : (s.setSp v).svbk = s.svbk := rfl
@[simp] theorem State.setSp_ram (s : State) (v : Word) : (s.setSp v).ram = s.ram := rfl
@[simp] theorem State.setSp_hostInput (s : State) (v : Word) : (s.setSp v).hostInput = s.hostInput := rfl
@[simp] theorem State.setSp_cfg (s : State) (v : Word) : (s.setSp v).cfg = s.cfg := rfl

/-! `State.setIme` -/

@[simp] theorem State.setIme_cpu (s : State) (v : Bool) : (s.setIme v).cpu = { s.cpu with ime := v } := rfl
@[simp] theorem State.setIme_irq (s : State) (v : Bool) : (s.setIme v).irq = s.irq := rfl
@[simp] theorem State.setIme_timer (s : State) (v : Bool) : (s.setIme v).timer = s.timer := rfl
@[simp] theorem State.setIme_joypad (s : State) (v : Bool) : (s.setIme v).joypad = s.joypad := rfl
@[simp] theorem State.setIme_ppu (s : State) (v : Bool) : (s.setIme v).ppu = s.ppu := rfl
@[simp] theorem State.setIme_mapper (s : State) (v : Bool) : (s.setIme v).mapper = s.mapper := rfl
@[simp] theorem State.setIme_dma (s : State) (v : Bool) : (s.setIme v).dma = s.dma := rfl
@[simp] theorem State.setIme_svbk (s : State) (v : Bool) : (s.setIme v).svbk = s.svbk := rfl
@[simp] theorem State.setIme_ram (s : State) (v : Bool) : (s.setIme v).ram = s.ram := rfl
@[simp] theorem State.setIme_hostInput (s : State) (v : Bool) : (s.setIme v).hostInput = s.hostInput := rfl
@[simp] theorem State.setIme_cfg (s : State) (v : Bool) : (s.setIme v).cfg = s.cfg := rfl

/-! `State.setEiPending` -/

@[simp] theorem State.setEiPending_cpu (s : State) (v : Bool) : (s.setEiPending v).cpu = { s.cpu with eiPending := v } := rfl
@[simp] theorem State.setEiPending_irq (s : State) (v : Bool) : (s.setEiPending v).irq = s.irq := rfl
@[simp] theorem State.setEiPending_timer (s : State) (v : Bool) : (s.setEiPending v).timer = s.timer := rfl
@[simp] theorem State.setEiPending_joypad (s : State) (v : Bool) : (s.setEiPending v).joypad = s.joypad := rfl
@[simp] theorem State.setEiPending_ppu (s : State) (v : Bool) : (s.setEiPending v).ppu = s.ppu := rfl
@[simp] theorem State.setEiPending_mapper (s : State) (v : Bool) : (s.setEiPending v).mapper = s.mapper := rfl
@[simp] theorem State.setEiPending_dma (s : State) (v : Bool) : (s.setEiPending v).dma = s.dma := rfl
@[simp] theorem State.setEiPending_svbk (s : State) (v : Bool) : (s.setEiPending v).svbk = s.svbk := rfl
@[simp] theorem State.setEiPending_ram (s : State) (v : Bool) : (s.setEiPending v).ram = s.ram := rfl
@[simp] theorem State.setEiPending_hostInput (s : State) (v : Bool) : (s.setEiPending v).hostInput = s.hostInput := rfl
@[simp] theorem State.setEiPending_cfg (s : State) (v : Bool) : (s.setEiPending v).cfg = s.cfg := rfl

/-! `State.setHalted` -/

@[simp] theorem State.setHalted_cpu (s : State) (v : Bool) : (s.setHalted v).cpu = { s.cpu with halted := v } := rfl
@[simp] theorem State.setHalted_irq (s : State) (v : Bool) : (s.setHalted v).irq = s.irq := rfl
@[simp] theorem State.setHalted_timer (s : State) (v : Bool) : (s.setHalted v).timer = s.timer := rfl
@[simp] theorem State.setHalted_joypad (s : State) (v : Bool) : (s.setHalted v).joypad = s.joypad := rfl
@[simp] theorem State.setHalted_ppu (s : State) (v : Bool) : (s.setHalted v).ppu = s.ppu := rfl
@[simp] theorem State.setHalted_mapper (s : State) (v : Bool) : (s.setHalted v).mapper = s.mapper := rfl
@[simp] theorem State.setHalted_dma (s : State) (v : Bool) : (s.setHalted v).dma = s.dma := rfl
@[simp] theorem State.setHalted_svbk (s : State) (v : Bool) : (s.setHalted v).svbk = s.svbk := rfl
@[simp] theorem State.setHalted_ram (s : State) (v : Bool) : (s.setHalted v).ram = s.ram := rfl
@[simp] theorem State.setHalted_hostInput (s : State) (v : Bool) : (s.setHalted v).hostInput = s.hostInput := rfl
@[simp] theorem State.setHalted_cfg (s : State) (v : Bool) : (s.setHalted v).cfg = s.cfg := rfl

/-! `setMode` -/

@[simp] theorem setMode_cpu (s : State) (m : PpuMode) : (setMode m s).cpu = s.cpu := rfl
@[simp] theorem setMode_irq (s : State) (m : PpuMode) : (setMode m s).irq = s.irq := rfl
@[simp] theorem setMode_timer (s : State) (m : PpuMode) : (setMode m s).timer = s.timer := rfl
@[simp] theorem setMode_joypad (s : State) (m : PpuMode) : (setMode m s).joypad = s.joypad := rfl
@[simp] theorem setMode_ppu (s : State) (m : PpuMode) : (setMode m s).ppu = { s.ppu with mode := m } := rfl
@[simp] theorem setMode_mapper (s : State) (m : PpuMode) : (setMode m s).mapper = s.mapper := rfl
@[simp] theorem setMode_dma (s : State) (m : PpuMode) : (setMode m s).dma = s.dma := rfl
@[simp] theorem setMode_svbk (s : State) (m : PpuMode) : (setMode m s).svbk = s.svbk := rfl
@[simp] theorem setMode_ram (s : State) (m : PpuMode) : (setMode m s).ram = s.ram := rfl
@[simp] theorem setMode_hostInput (s : State) (m : PpuMode) : (setMode m s).hostInput = s.hostInput := rfl
@[simp] theorem setMode_cfg (s : State) (m : PpuMode) : (setMode m s).cfg = s.cfg := rfl

/-! `setLy` -/

@[simp] theorem setLy_cpu (s : State) (v : Byte) : (setLy v s).cpu = s.cpu := rfl
@[simp] theorem setLy_irq (s : State) (v : Byte) : (setLy v s).irq = s.irq := rfl
@[simp] theorem setLy_timer (s : State) (v : Byte) : (setLy v s).timer = s.timer := rfl
@[simp] theorem setLy_joypad (s : State) (v : Byte) : (setLy v s).joypad = s.joypad := rfl
@[simp] theorem setLy_ppu (s : State) (v : Byte) : (setLy v s).ppu = { s.ppu with ly := v } := rfl
@[simp] theorem setLy_mapper (s : State) (v : Byte) : (setLy v s).mapper = s.mapper := rfl
@[simp] theorem setLy_dma (s : State) (v : Byte) : (setLy v s).dma = s.dma := rfl
@[simp] theorem setLy_svbk (s : State) (v : Byte) : (setLy v s).svbk = s.svbk := rfl
@[simp] theorem setLy_ram (s : State) (v : Byte) : (setLy v s).ram = s.ram := rfl
@[simp] theorem setLy_hostInput (s : State) (v : Byte) : (setLy v s).hostInput = s.hostInput := rfl
@[simp] theorem setLy_cfg (s : State) (v : Byte) : (setLy v s).cfg = s.cfg := rfl

/-! `setModeClock` -/

@[simp] theorem setModeClock_cpu (s : State) (k : Nat) : (setModeClock k s).cpu = s.cpu := rfl
@[simp] theorem setModeClock_irq (s : State) (k : Nat) : (setModeClock k s).irq = s.irq := rfl
@[simp] theorem setModeClock_timer (s : State) (k : Nat) : (setModeClock k s).timer = s.timer := rfl
@[simp] theorem setModeClock_joypad (s : State) (k : Nat) : (setModeClock k s).joypad = s.joypad := rfl
@[simp] theorem setModeClock_ppu (s : State) (k : Nat) : (setModeClock k s).ppu = { s.ppu with modeClock := k } := rfl
@[simp] theorem setModeClock_mapper (s : State) (k : Nat) : (setModeClock k s).mapper = s.mapper := rfl
@[simp] theorem setModeClock_dma (s : State) (k : Nat) : (setModeClock k s).dma = s.dma := rfl
@[simp] theorem setModeClock_svbk (s : State) (k : Nat) : (setModeClock k s).svbk = s.svbk := rfl
@[simp] theorem setModeClock_ram (s : State) (k : Nat) : (setModeClock k s).ram = s.ram := rfl
@[simp] theorem setModeClock_hostInput (s : State) (k : Nat) : (setModeClock k s).hostInput = s.hostInput := rfl
@[simp] theorem setModeClock_cfg (s : State) (k : Nat) : (setModeClock k s).cfg = s.cfg := rfl

/-! `raiseInt` -/

@[simp] theorem raiseInt_cpu (s : State) (i : Nat) : (raiseInt i s).cpu = s.cpu := rfl
@[simp] theorem raiseInt_irq (s : State) (i : Nat) : (raiseInt i s).irq = { s.irq with iflag := s.irq.iflag ||| (1#5 <<< i) } := rfl
@[simp] theorem raiseInt_timer (s : State) (i : Nat) : (raiseInt i s).timer = s.timer := rfl
@[simp] theorem raiseInt_joypad (s : State) (i : Nat) : (raiseInt i s).joypad = s.joypad := rfl
@[simp] theorem raiseInt_ppu (s : State) (i : Nat) : (raiseInt i s).ppu = s.ppu := rfl
@[simp] theorem raiseInt_mapper (s : State) (i : Nat) : (raiseInt i s).mapper = s.mapper := rfl
@[simp] theorem raiseInt_dma (s : State) (i : Nat) : (raiseInt i s).dma = s.dma := rfl
@[simp] theorem raiseInt_svbk (s : State) (i : Nat) : (raiseInt i s).svbk = s.svbk := rfl
@[simp] theorem raiseInt_ram (s : State) (i : Nat) : (raiseInt i s).ram = s.ram := rfl
@[simp] theorem raiseInt_hostInput (s : State) (i : Nat) : (raiseInt i s).hostInput = s.hostInput := rfl
@[simp] theorem raiseInt_cfg (s : State) (i : Nat) : (raiseInt i s).cfg = s.cfg := rfl

/-! `clearInt` -/

@[simp] theorem clearInt_cpu (s : State) (i : Nat) : (clearInt i s).cpu = s.cpu := rfl
@[simp] theorem clearInt_irq (s : State) (i : Nat) : (clearInt i s).irq = { s.irq with iflag := s.irq.iflag &&& ~~~(1#5 <<< i) } := rfl
@[simp] theorem clearInt_timer (s : State) (i : Nat) : (clearInt i s).timer = s.timer := rfl
@[simp] theorem clearInt_joypad (s : State) (i : Nat) : (clearInt i s).joypad = s.joypad := rfl
@[simp] theorem clearInt_ppu (s : State) (i : Nat) : (clearInt i s).ppu = s.ppu := rfl
@[simp] theorem clearInt_mapper (s : State) (i : Nat) : (clearInt i s).mapper = s.mapper := rfl
@[simp] theorem clearInt_dma (s : State) (i : Nat) : (clearInt i s).dma = s.dma := rfl
@[simp] theorem clearInt_svbk (s : State) (i : Nat) : (clearInt i s).svbk = s.svbk := rfl
@[simp] theorem clearInt_ram (s : State) (i : Nat) : (clearInt i s).ram = s.ram := rfl
@[simp] theorem clearInt_hostInput (s : State) (i : Nat) : (clearInt i s).hostInput = s.hostInput := rfl
@[simp] theorem clearInt_cfg (s : State) (i : Nat) : (clearInt i s).cfg = s.cfg := rfl

/-! `divWrite` -/

@[simp] theorem divWrite_cpu (s : State) : (divWrite s).cpu = s.cpu := rfl
@[simp] theorem divWrite_irq (s : State) : (divWrite s).irq = s.irq := rfl
@[simp] theorem divWrite_timer (s : State) : (divWrite s).timer = { s.timer with div := 0, divSub := 0 } := rfl
@[simp] theorem divWrite_joypad (s : State) : (divWrite s).joypad = s.joypad := rfl
@[simp] theorem divWrite_ppu (s : State) : (divWrite s).ppu = s.ppu := rfl
@[simp] theorem divWrite_mapper (s : State) : (divWrite s).mapper = s.mapper := rfl
@[simp] theorem divWrite_dma (s : State) : (divWrite s).dma = s.dma := rfl
@[simp] theorem divWrite_svbk (s : State) : (divWrite s).svbk = s.svbk := rfl
@[simp] theorem divWrite_ram (s : State) : (divWrite s).ram = s.ram := rfl
@[simp] theorem divWrite_hostInput (s : State) : (divWrite s).hostInput = s.hostInput := rfl
@[simp] theorem divWrite_cfg (s : State) : (divWrite s).cfg = s.cfg := rfl

/-! `tacWrite` -/

@[simp] theorem tacWrite_cpu (s : State) (v : Byte) : (tacWrite v s).cpu = s.cpu := rfl
@[simp] theorem tacWrite_irq (s : State) (v : Byte) : (tacWrite v s).irq = s.irq := rfl
@[simp] theorem tacWrite_joypad (s : State) (v : Byte) : (tacWrite v s).joypad = s.joypad := rfl
@[simp] theorem tacWrite_ppu (s : State) (v : Byte) : (tacWrite v s).ppu = s.ppu := rfl
@[simp] theorem tacWrite_mapper (s : State) (v : Byte) : (tacWrite v s).mapper = s.mapper := rfl
@[simp] theorem tacWrite_dma (s : State) (v : Byte) : (tacWrite v s).dma = s.dma := rfl
@[simp] theorem tacWrite_svbk (s : State) (v : Byte) : (tacWrite v s).svbk = s.svbk := rfl
@[simp] theorem tacWrite_ram (s : State) (v : Byte) : (tacWrite v s).ram = s.ram := rfl
@[simp] theorem tacWrite_hostInput (s : State) (v : Byte) : (tacWrite v s).hostInput = s.hostInput := rfl
@[simp] theorem tacWrite_cfg (s : State) (v : Byte) : (tacWrite v s).cfg = s.cfg := rfl

/-! `divRun` -/

@[simp] theorem divRun_cpu (s : State) (t : Nat) : (divRun t s).cpu = s.cpu := rfl
@[simp] theorem divRun_irq (s : State) (t : Nat) : (divRun t s).irq = s.irq := rfl
@[simp] theorem divRun_joypad (s : State) (t : Nat) : (divRun t s).joypad = s.joypad := rfl
@[simp] theorem divRun_ppu (s : State) (t : Nat) : (divRun t s).ppu = s.ppu := rfl
@[simp] theorem divRun_mapper (s : State) (t : Nat) : (divRun t s).mapper = s.mapper := rfl
@[simp] theorem divRun_dma (s : State) (t : Nat) : (divRun t s).dma = s.dma := rfl
@[simp] theorem divRun_svbk (s : State) (t : Nat) : (divRun t s).svbk = s.svbk := rfl
@[simp] theorem divRun_ram (s : State) (t : Nat) : (divRun t s).ram = s.ram := rfl
@[simp] theorem divRun_hostInput (s : State) (t : Nat) : (divRun t s).hostInput = s.hostInput := rfl
@[simp] theorem divRun_cfg (s : State) (t : Nat) : (divRun t s).cfg = s.cfg := rfl

/-! `statWrite` -/

@[simp] theorem statWrite_cpu (s : State) (v : Byte) : (statWrite v s).cpu = s.cpu := rfl
@[simp] theorem statWrite_irq (s : State) (v : Byte) : (statWrite v s).irq = s.irq := rfl
@[simp] theorem statWrite_timer (s : State) (v : Byte) : (statWrite v s).timer = s.timer := rfl
@[simp] theorem statWrite_joypad (s : State) (v : Byte) : (statWrite v s).joypad = s.joypad := rfl
@[simp] theorem statWrite_ppu (s : State) (v : Byte) : (statWrite v s).ppu = { s.ppu with statEnable := v.extractLsb' 3 4 } := rfl
@[simp] theorem statWrite_mapper (s : State) (v : Byte) : (statWrite v s).mapper = s.mapper := rfl
@[simp] theorem statWrite_dma (s : State) (v : Byte) : (statWrite v s).dma = s.dma := rfl
@[simp] theorem statWrite_svbk (s : State) (v : Byte) : (statWrite v s).svbk = s.svbk := rfl
@[simp] theorem statWrite_ram (s : State) (v : Byte) : (statWrite v s).ram = s.ram := rfl
@[simp] theorem statWrite_hostInput (s : State) (v : Byte) : (statWrite v s).hostInput = s.hostInput := rfl
@[simp] theorem statWrite_cfg (s : State) (v : Byte) : (statWrite v s).cfg = s.cfg := rfl

/-! `p1Write` -/

@[simp] theorem p1Write_cpu (s : State) (v : Byte) : (p1Write v s).cpu = s.cpu := rfl
@[simp] theorem p1Write_irq (s : State) (v : Byte) : (p1Write v s).irq = s.irq := rfl
@[simp] theorem p1Write_timer (s : State) (v : Byte) : (p1Write v s).timer = s.timer := rfl
@[simp] theorem p1Write_joypad (s : State) (v : Byte) : (p1Write v s).joypad = { s.joypad with selAction := v.getLsbD 5, selDir := v.getLsbD 4 } := rfl
@[simp] theorem p1Write_ppu (s : State) (v : Byte) : (p1Write v s).ppu = s.ppu := rfl
@[simp] theorem p1Write_mapper (s : State) (v : Byte) : (p1Write v s).mapper = s.mapper := rfl
@[simp] theorem p1Write_dma (s : State) (v : Byte) : (p1Write v s).dma = s.dma := rfl
@[simp] theorem p1Write_svbk (s : State) (v : Byte) : (p1Write v s).svbk = s.svbk := rfl
@[simp] theorem p1Write_ram (s : State) (v : Byte) : (p1Write v s).ram = s.ram := rfl
@[simp] theorem p1Write_hostInput (s : State) (v : Byte) : (p1Write v s).hostInput = s.hostInput := rfl
@[simp] theorem p1Write_cfg (s : State) (v : Byte) : (p1Write v s).cfg = s.cfg := rfl

/-! `clearFrameReady` -/

@[simp] theorem clearFrameReady_cpu (s : State) : (clearFrameReady s).cpu = s.cpu := rfl
@[simp] theorem clearFrameReady_irq (s : State) : (clearFrameReady s).irq = s.irq := rfl
@[simp] theorem clearFrameReady_timer (s : State) : (clearFrameReady s).timer = s.timer := rfl
@[simp] theorem clearFrameReady_joypad (s : State) : (clearFrameReady s).joypad = s.joypad := rfl
@[simp] theorem clearFrameReady_ppu (s : State) : (clearFrameReady s).ppu = { s.ppu with frameReady := false } := rfl
@[simp] theorem clearFrameReady_mapper (s : State) : (clearFrameReady s).mapper = s.mapper := rfl
@[simp] theorem clearFrameReady_dma (s : State) : (clearFrameReady s).dma = s.dma := rfl
@[simp] theorem clearFrameReady_svbk (s : State) : (clearFrameReady s).svbk = s.svbk := rfl
@[simp] theorem clearFrameReady_ram (s : State) : (clearFrameReady s).ram = s.ram := rfl
@[simp] theorem clearFrameReady_hostInput (s : State) : (clearFrameReady s).hostInput = s.hostInput := rfl
@[simp] theorem clearFrameReady_cfg (s : State) : (clearFrameReady s).cfg = s.cfg := rfl

/-! `oamStore` -/

@[simp] theorem oamStore_cpu (s : State) (i : Nat) (v : Byte) : (oamStore i v s).cpu = s.cpu := rfl
@[simp] theorem oamStore_irq (s : State) (i : Nat) (v : Byte) : (oamStore i v s).irq = s.irq := rfl
@[simp] theorem oamStore_timer (s : State) (i : Nat) (v : Byte) : (oamStore i v s).timer = s.timer := rfl
@[simp] theorem oamStore_joypad (s : State) (i : Nat) (v : Byte) : (oamStore i v s).joypad = s.joypad := rfl
@[simp] theorem oamStore_ppu (s : State) (i : Nat) (v : Byte) : (oamStore i v s).ppu = s.ppu := rfl
@[simp] theorem oamStore_mapper (s : State) (i : Nat) (v : Byte) : (oamStore i v s).mapper = s.mapper := rfl
@[simp] theorem oamStore_dma (s : State) (i : Nat) (v : Byte) : (oamStore i v s).dma = s.dma := rfl
@[simp] theorem oamStore_svbk (s : State) (i : Nat) (v : Byte) : (oamStore i v s).svbk = s.svbk := rfl
@[simp] theorem oamStore_ram (s : State) (i : Nat) (v : Byte) : (oamStore i v s).ram = { s.ram with oam := Memory.write s.ram.oam i v } := rfl
@[simp] theorem oamStore_hostInput (s : State) (i : Nat) (v : Byte) : (oamStore i v s).hostInput = s.hostInput := rfl
@[simp] theorem oamStore_cfg (s : State) (i : Nat) (v : Byte) : (oamStore i v s).cfg = s.cfg := rfl

/-! Register writes leave the other cells of the CPU alone. -/

@[simp] theorem Cpu.setReg8_f (c : Cpu) (r : Reg8) (v : Byte) : (c.setReg8 r v).f = c.f := by cases r <;> rfl
@[simp] theorem Cpu.setReg8_sp (c : Cpu) (r : Reg8) (v : Byte) : (c.setReg8 r v).sp = c.sp := by cases r <;> rfl
@[simp] theorem Cpu.setReg8_pc (c : Cpu) (r : Reg8) (v : Byte) : (c.setReg8 r v).pc = c.pc := by cases r <;> rfl
@[simp] theorem Cpu.setReg8_ime (c : Cpu) (r : Reg8) (v : Byte) : (c.setReg8 r v).ime = c.ime := by cases r <;> rfl
@[simp] theorem Cpu.setReg8_eiPending (c : Cpu) (r : Reg8) (v : Byte) : (c.setReg8 r v).eiPending = c.eiPending := by cases r <;> rfl
@[simp] theorem Cpu.setReg8_halted (c : Cpu) (r : Reg8) (v : Byte) : (c.setReg8 r v).halted = c.halted := by cases r <;> rfl
@[simp] theorem Cpu.setReg8_fault (c : Cpu) (r : Reg8) (v : Byte) : (c.setReg8 r v).fault = c.fault := by cases r <;> rfl
@[simp] theorem Cpu.reg8_setReg8_same (c : Cpu) (r : Reg8) (v : Byte) : (c.setReg8 r v).reg8 r = v := by cases r <;> rfl
theorem Cpu.reg8_setReg8_other (c : Cpu) {r q : Reg8} (h : q ≠ r) (v : Byte) : (c.setReg8 r v).reg8 q = c.reg8 q := by
  cases r <;> cases q <;> first | rfl | exact absurd rfl h
@[simp] theorem Cpu.setFlags_sp (c : Cpu) (fl : Flags) : (c.setFlags fl).sp = c.sp := rfl
@[simp] theorem Cpu.setAFlags_sp (c : Cpu) (r : Byte × Flags) : (c.setAFlags r).sp = c.sp := rfl
@[simp] theorem Cpu.setHl_sp (c : Cpu) (v : Word) : (c.setHl v).sp = c.sp := rfl
@[simp] theorem Cpu.setFlags_pc (c : Cpu) (fl : Flags) : (c.setFlags fl).pc = c.pc := rfl
@[simp] theorem Cpu.setAFlags_pc (c : Cpu) (r : Byte × Flags) : (c.setAFlags r).pc = c.pc := rfl
@[simp] theorem Cpu.setHl_pc (c : Cpu) (v : Word) : (c.setHl v).pc = c.pc := rfl
@[simp] theorem Cpu.setFlags_ime (c : Cpu) (fl : Flags) : (c.setFlags fl).ime = c.ime := rfl
@[simp] theorem Cpu.setAFlags_ime (c : Cpu) (r : Byte × Flags) : (c.setAFlags r).ime = c.ime := rfl
@[simp] theorem Cpu.setHl_ime (c : Cpu) (v : Word) : (c.setHl v).ime = c.ime := rfl
@[simp] theorem Cpu.setFlags_eiPending (c : Cpu) (fl : Flags) : (c.setFlags fl).eiPending = c.eiPending := rfl
@[simp] theorem Cpu.setAFlags_eiPending (c : Cpu) (r : Byte × Flags) : (c.setAFlags r).eiPending = c.eiPending := rfl
@[simp] theorem Cpu.setHl_eiPending (c : Cpu) (v : Word) : (c.setHl v).eiPending = c.eiPending := rfl
@[simp] theorem Cpu.setFlags_halted (c : Cpu) (fl : Flags) : (c.setFlags fl).halted = c.halted := rfl
@[simp] theorem Cpu.setAFlags_halted (c : Cpu) (r : Byte × Flags) : (c.setAFlags r).halted = c.halted := rfl
@[simp] theorem Cpu.setHl_halted (c : Cpu) (v : Word) : (c.setHl v).halted = c.halted := rfl
@[simp] theorem Cpu.setFlags_fault (c : Cpu) (fl : Flags) : (c.setFlags fl).fault = c.fault := rfl
@[simp] theorem Cpu.setAFlags_fault (c : Cpu) (r : Byte × Flags) : (c.setAFlags r).fault = c.fault := rfl
@[simp] theorem Cpu.setHl_fault (c : Cpu) (v : Word) : (c.setHl v).fault = c.fault := rfl
@[simp] theorem Cpu.setFlags_f (c : Cpu) (fl : Flags) : (c.setFlags fl).f = fl.pack := rfl
@[simp] theorem Cpu.setAFlags_a (c : Cpu) (r : Byte × Flags) : (c.setAFlags r).a = r.1 := rfl
@[simp] theorem Cpu.setAFlags_f (c : Cpu) (r : Byte × Flags) : (c.setAFlags r).f = r.2.pack := rfl
@[simp] theorem Cpu.reg8_setFlags (c : Cpu) (fl : Flags) (r : Reg8) : (c.setFlags fl).reg8 r = c.reg8 r := by cases r <;> rfl
@[simp] theorem State.withCpu_withCpu (s : State) (c d : Cpu) : (s.withCpu c).withCpu d = s.withCpu d := rfl
@[simp] theorem State.withCpu_self (s : State) : s.withCpu s.cpu = s := rfl

end Sys2Proof.Machine
end

