-- ==== Sys2Proof/Laws/Bus.lean ====
section
/-! SUPPORT. The laws of the bus: what a read depends on, what a write keeps, read after write on RAM, and
the OAM-DMA copy. -/

namespace Sys2Proof.Machine

/-! ## Neither direction involves the CPU's registers or the host's oracle -/

@[simp] theorem target_withCpu (s : State) (c : Cpu) (a : Word) : target (s.withCpu c) a = target s a := rfl

@[simp] theorem busRead_withCpu (s : State) (c : Cpu) (a : Word) : busRead (s.withCpu c) a = busRead s a := rfl

theorem target_congr {s t : State} (hm : s.mapper = t.mapper) (hb : s.svbk = t.svbk) (hc : s.cfg = t.cfg)
    (a : Word) : target s a = target t a := by
  cases s
  cases t
  dsimp only at hm hb hc
  subst hm hb hc
  rfl

/-- A read depends on the parts of the state other than the CPU and the host's oracle alone. -/
theorem busRead_congr {s t : State} (h : s.sameBus t) (a : Word) : busRead s a = busRead t a := by
  obtain ⟨h1, h2, h3, h4, h5, h6, h7, h8, h9⟩ := h
  cases s
  cases t
  dsimp only at h1 h2 h3 h4 h5 h6 h7 h8 h9
  subst h1 h2 h3 h4 h5 h6 h7 h8 h9
  rfl

/-! ## What a write keeps -/

theorem dmaFold_keeps (v : Byte) (l : List Nat) (s : State) :
    let t := l.foldl (fun t i => oamStore i (busRead t (wordOf v 0 + BitVec.ofNat 16 i)) t) s
    t.cpu = s.cpu ∧ t.hostInput = s.hostInput ∧ t.cfg = s.cfg ∧ t.irq = s.irq ∧ t.timer = s.timer
      ∧ t.joypad = s.joypad ∧ t.ppu = s.ppu ∧ t.mapper = s.mapper ∧ t.dma = s.dma ∧ t.svbk = s.svbk
      ∧ t.ram.vram = s.ram.vram ∧ t.ram.wram = s.ram.wram ∧ t.ram.hram = s.ram.hram ∧ t.ram.eram = s.ram.eram := by
  induction l generalizing s with
  | nil => simp
  | cons i l ih => simpa [oamStore] using ih (oamStore i (busRead s (wordOf v 0 + BitVec.ofNat 16 i)) s)

theorem dmaWrite_keeps (v : Byte) (s : State) :
    (dmaWrite v s).cpu = s.cpu ∧ (dmaWrite v s).hostInput = s.hostInput ∧ (dmaWrite v s).cfg = s.cfg
      ∧ (dmaWrite v s).irq = s.irq ∧ (dmaWrite v s).timer = s.timer ∧ (dmaWrite v s).joypad = s.joypad
      ∧ (dmaWrite v s).ppu = s.ppu ∧ (dmaWrite v s).mapper = s.mapper ∧ (dmaWrite v s).dma = v
      ∧ (dmaWrite v s).svbk = s.svbk ∧ (dmaWrite v s).ram.vram = s.ram.vram
      ∧ (dmaWrite v s).ram.wram = s.ram.wram ∧ (dmaWrite v s).ram.hram = s.ram.hram
      ∧ (dmaWrite v s).ram.eram = s.ram.eram :=
  dmaFold_keeps v (List.range 160) { s with dma := v }

theorem lcdcWrite_keeps (v : Byte) (s : State) :
    (lcdcWrite v s).cpu = s.cpu ∧ (lcdcWrite v s).hostInput = s.hostInput ∧ (lcdcWrite v s).cfg = s.cfg := by
  unfold lcdcWrite
  dsimp only
  split_ifs <;> simp

theorem mapperWrite_keeps (n : Nat) (v : Byte) (s : State) :
    (mapperWrite n v s).cpu = s.cpu ∧ (mapperWrite n v s).hostInput = s.hostInput ∧ (mapperWrite n v s).cfg = s.cfg := by
  unfold mapperWrite
  split <;> simp

theorem writeIo_keeps (r : IoReg) (v : Byte) (s : State) :
    (writeIo r v s).cpu = s.cpu ∧ (writeIo r v s).hostInput = s.hostInput ∧ (writeIo r v s).cfg = s.cfg := by
  cases r
  case dma => exact ⟨(dmaWrite_keeps v s).1, (dmaWrite_keeps v s).2.1, (dmaWrite_keeps v s).2.2.1⟩
  case lcdc => exact lcdcWrite_keeps v s
  all_goals exact ⟨rfl, rfl, rfl⟩

theorem writeTarget_keeps (x : Target) (v : Byte) (s : State) :
    (writeTarget x v s).cpu = s.cpu ∧ (writeTarget x v s).hostInput = s.hostInput ∧ (writeTarget x v s).cfg = s.cfg := by
  cases x with
  | rom n => exact mapperWrite_keeps n v s
  | io r => exact writeIo_keeps r v s
  | _ => exact ⟨rfl, rfl, rfl⟩

/-- A bus write keeps the CPU. -/
@[simp] theorem busWrite_cpu (a : Word) (v : Byte) (s : State) : (busWrite a v s).cpu = s.cpu :=
  (writeTarget_keeps _ v s).1

@[simp] theorem busWrite_hostInput (a : Word) (v : Byte) (s : State) : (busWrite a v s).hostInput = s.hostInput :=
  (writeTarget_keeps _ v s).2.1

/-- A bus write keeps the configuration, the image among it. -/
@[simp] theorem busWrite_cfg (a : Word) (v : Byte) (s : State) : (busWrite a v s).cfg = s.cfg :=
  (writeTarget_keeps _ v s).2.2

/-! ## A write and a change of the CPU commute -/

theorem dmaFold_withCpu (v : Byte) (l : List Nat) (s : State) (c : Cpu) :
    l.foldl (fun t i => oamStore i (busRead t (wordOf v 0 + BitVec.ofNat 16 i)) t) (s.withCpu c)
      = (l.foldl (fun t i => oamStore i (busRead t (wordOf v 0 + BitVec.ofNat 16 i)) t) s).withCpu c := by
  induction l generalizing s with
  | nil => rfl
  | cons i l ih => exact ih (oamStore i (busRead s (wordOf v 0 + BitVec.ofNat 16 i)) s)

theorem lcdcWrite_withCpu (v : Byte) (s : State) (c : Cpu) :
    lcdcWrite v (s.withCpu c) = (lcdcWrite v s).withCpu c := by
  have h : lcdcBit (s.withCpu c) 7 = lcdcBit s 7 := rfl
  unfold lcdcWrite
  simp only [h]
  split_ifs <;> rfl

theorem writeIo_withCpu (r : IoReg) (v : Byte) (s : State) (c : Cpu) :
    writeIo r v (s.withCpu c) = (writeIo r v s).withCpu c := by
  cases r
  case dma => exact dmaFold_withCpu v (List.range 160) { s with dma := v } c
  case lcdc => exact lcdcWrite_withCpu v s c
  all_goals rfl

theorem mapperWrite_withCpu (n : Nat) (v : Byte) (s : State) (c : Cpu) :
    mapperWrite n v (s.withCpu c) = (mapperWrite n v s).withCpu c := by
  simp only [mapperWrite, State.withCpu_cfg]
  split <;> rfl

theorem busWrite_withCpu (a : Word) (v : Byte) (s : State) (c : Cpu) :
    busWrite a v (s.withCpu c) = (busWrite a v s).withCpu c := by
  unfold busWrite
  rw [target_withCpu]
  cases target s a with
  | rom n => exact mapperWrite_withCpu n v s c
  | io r => exact writeIo_withCpu r v s c
  | _ => rfl

/-! ## RAM: read after write, and the frame of a write -/

/-- The canonical form of all five memories. -/
def Ram.wf (r : Ram) : Prop :=
  r.vram.wf = true ∧ r.wram.wf = true ∧ r.oam.wf = true ∧ r.hram.wf = true ∧ r.eram.wf = true

/-- Writing a RAM place changes no cell that the address decoder uses. -/
theorem target_writeTarget_ram {x : Target} (hx : x.isRam) (v : Byte) (s : State) (b : Word) :
    target (writeTarget x v s) b = target s b := by
  cases x <;> simp [Target.isRam] at hx <;> rfl

/-- What a place reads after a write to a RAM place. -/
theorem readTarget_writeTarget_ram {x : Target} (hx : x.isRam) {s : State} (hw : s.ram.wf) (v : Byte) (y : Target) :
    readTarget (writeTarget x v s) y = if y = x then v else readTarget s y := by
  obtain ⟨h1, h2, h3, h4, h5⟩ := hw
  by_cases hyx : y = x
  · subst hyx
    cases y <;> simp [Target.isRam] at hx <;>
      simp [writeTarget, readTarget, oamStore, Memory.read_write_same, h1, h2, h3, h4, h5]
  · rw [if_neg hyx]
    cases x <;> simp [Target.isRam] at hx <;> cases y <;>
      first
        | rfl
        | (rename_i i j
           have hij : j ≠ i := fun h => hyx (by rw [h])
           simp [writeTarget, readTarget, oamStore, Memory.read_write_other, h1, h2, h3, h4, h5, hij])

/-- After a write to an address that stands on RAM, a read gives the written byte exactly at the addresses
that stand on the same place (echo addresses among them), and what it gave before everywhere else. -/
theorem busRead_busWrite_ram {s : State} (hw : s.ram.wf) {a : Word} (ha : (target s a).isRam) (v : Byte) (b : Word) :
    busRead (busWrite a v s) b = if target s b = target s a then v else busRead s b := by
  unfold busRead busWrite
  rw [target_writeTarget_ram ha, readTarget_writeTarget_ram ha hw]

/-! ## The OAM-DMA copy -/

/-- Reading anything but OAM is not affected by a store to OAM. -/
theorem busRead_oamStore_other {s : State} {a : Word} (h : ∀ i, target s a ≠ .oam i) (i : Nat) (v : Byte) :
    busRead (oamStore i v s) a = busRead s a := by
  unfold busRead
  have ht : target (oamStore i v s) a = target s a := rfl
  rw [ht]
  cases hx : target s a with
  | oam j => exact absurd hx (h j)
  | _ => rfl

/-! ## What the address decoder gives -/

theorem target_lt_8000 {s : State} {a : Word} (h : a.toNat < 0x8000) : target s a = .rom a.toNat := by
  simp [target, h]

/-- Only 0xFE00-0xFE9F stands on OAM (20_memory.md R62). -/
theorem target_oam {s : State} {a : Word} {i : Nat} (h : target s a = .oam i) :
    0xFE00 ≤ a.toNat ∧ a.toNat < 0xFEA0 ∧ i = a.toNat - 0xFE00 := by
  unfold target at h
  simp only at h
  repeat' split at h
  all_goals first
    | (injection h with h; omega)
    | (exact absurd h (by simp))

end Sys2Proof.Machine
end

