-- ==== Sys2Proof/Laws/Fields.lean ====
section
/-! SUPPORT. One law per bit field, flag byte and operand helper: what each is, in the terms of the claims. -/

namespace Sys2Proof.Machine

/-! ## Words and bytes -/

@[simp] theorem loByte_append (hi lo : Byte) : loByte (hi ++ lo) = lo := BitVec.extractLsb'_append_eq_right

@[simp] theorem hiByte_append (hi lo : Byte) : hiByte (hi ++ lo) = hi := BitVec.extractLsb'_append_eq_left

theorem wordOf_hiByte_loByte (w : Word) : wordOf (hiByte w) (loByte w) = w := by
  have h := BitVec.extractLsb'_append_extractLsb'_eq_extractLsb' (x := w) (len₁ := 8) (len₂ := 8) (start₁ := 0)
    (start₂ := 8) rfl
  unfold wordOf hiByte loByte
  rw [h]
  simp

theorem highPage_eq (n : Byte) : highPage n = 0xFF00 + n.zeroExtend 16 := by
  have h : ∀ n : Byte, (0xFF#8 ++ n : Word) = 0xFF00 + n.zeroExtend 16 := by decide +kernel
  exact h n

/-- The target of a relative jump, computed in the integers (45_control_flow.md R284). -/
theorem add_sext16 (pc : Word) (e : Byte) : pc + sext16 e = BitVec.ofInt 16 (pc.toNat + e.toInt) := by
  unfold sext16
  apply BitVec.eq_of_toInt_eq
  rw [BitVec.toInt_add, BitVec.toInt_signExtend_of_le (by omega), BitVec.toInt_ofInt, BitVec.toInt_eq_toNat_bmod]
  simp

theorem byte_eq_zero_iff (v : Byte) : v = 0 ↔ v.toNat = 0 := by
  rw [← BitVec.toNat_inj]
  rfl

/-! ## Flags -/

theorem pack_eq_flagByte (z n h c : Bool) : Flags.pack ⟨z, n, h, c⟩ = flagByte z n h c := by
  cases z <;> cases n <;> cases h <;> cases c <;> rfl

theorem flags_z (s : State) : s.cpu.flags.z = flagZ s := rfl
theorem flags_n (s : State) : s.cpu.flags.n = flagN s := rfl
theorem flags_h (s : State) : s.cpu.flags.h = flagH s := rfl
theorem flags_c (s : State) : s.cpu.flags.c = flagC s := rfl

theorem pack_low_nibble (fl : Flags) : fl.pack &&& 0x0F = 0 := by
  obtain ⟨z, n, h, c⟩ := fl
  cases z <;> cases n <;> cases h <;> cases c <;> rfl

/-- The flags read back from a packed byte are the flags packed. -/
theorem ofByte_pack (fl : Flags) : Flags.ofByte fl.pack = fl := by
  obtain ⟨z, n, h, c⟩ := fl
  cases z <;> cases n <;> cases h <;> cases c <;> rfl

theorem condHolds_eq_condTrue (cc : Cond) (s : State) : condHolds cc s.cpu.flags = condTrue cc s := by
  cases cc <;> simp [condHolds, condTrue, flags_c, flags_z]

/-! ## The computations -/

/-- Subtraction and its flags, in the integers (42_alu8.md R201). -/
theorem sub8_pack (a x : Byte) (cin : Bool) : (sub8 a x cin).2.pack =
    flagByte (decide (((a.toNat : Int) - x.toNat - cin.toNat) % 256 = 0)) true
      (decide (a.toNat % 16 < x.toNat % 16 + cin.toNat)) (decide (a.toNat < x.toNat + cin.toNat)) := by
  have h : ∀ n : Int, (BitVec.ofInt 8 n = 0#8) ↔ n % 256 = 0 := by
    intro n
    rw [← BitVec.toNat_inj]
    simp
    omega
  simp only [sub8, pack_eq_flagByte]
  congr 1
  · simp [h]
  · rw [decide_eq_decide]
    omega
  · rw [decide_eq_decide]
    omega

/-- Every rotate and shift as an operation on the whole byte (44_rotate_shift_bit.md R250). -/
theorem rotOp_eq : ∀ (v : Byte) (c : Bool),
    rotOp .rlc v c = (v.rotateLeft 1, v.getLsbD 7) ∧ rotOp .rrc v c = (v.rotateRight 1, v.getLsbD 0)
    ∧ rotOp .rl v c = (v <<< 1 ||| (if c then 0x01 else 0x00), v.getLsbD 7)
    ∧ rotOp .rr v c = (v >>> 1 ||| (if c then 0x80 else 0x00), v.getLsbD 0)
    ∧ rotOp .sla v c = (v <<< 1, v.getLsbD 7) ∧ rotOp .sra v c = (v.sshiftRight 1, v.getLsbD 0)
    ∧ rotOp .swap v c = (v <<< 4 ||| v >>> 4, false) ∧ rotOp .srl v c = (v >>> 1, v.getLsbD 0) := by
  decide +kernel

end Sys2Proof.Machine
end

