-- ==== Sys2Proof/Laws/Invariant.lean ====
section
/-! SUPPORT. The parts of the invariant, each kept by every operation that can touch it. -/

namespace Sys2Proof.Machine

/-! ## Sizes -/

theorem Memory.fits_write {m : Memory} {size k : Nat} (h : m.fits size) (hk : k < size) (v : Byte) :
    (m.write k v).fits size := by
  simp only [Memory.fits, Bool.and_eq_true] at h ⊢
  exact ⟨Memory.wf_write h.1 k v, Cells.below_write (n := 8) h.2 hk v⟩

theorem config_wramBanks {c : Config} (h : configOk c) : 2 ≤ c.wramBanks := by
  simp only [configOk, Config.legal, Bool.and_eq_true, decide_eq_true_eq] at h
  omega

theorem wramBank_lt (s : State) (h : 2 ≤ s.cfg.wramBanks) : wramBank s < s.cfg.wramBanks := by
  unfold wramBank
  have := Nat.mod_lt (max s.svbk.toNat 1 - 1) (show s.cfg.wramBanks - 1 > 0 by omega)
  omega

theorem wramIndex_lt {s : State} (h : 2 ≤ s.cfg.wramBanks) {n : Nat} (h1 : 0xC000 ≤ n) (h2 : n < 0xE000) :
    wramIndex s n < 4096 * s.cfg.wramBanks := by
  unfold wramIndex
  have := wramBank_lt s h
  split <;> omega

theorem eramIndex_lt {s : State} {n i : Nat} (h : eramIndex s n = some i) : i < s.cfg.cart.eramSize := by
  unfold eramIndex at h
  simp only at h
  split at h
  · exact absurd h (by simp)
  · split at h
    · injection h with h
      exact h ▸ Nat.mod_lt _ (by omega)
    · split at h
      · injection h with h
        exact h ▸ Nat.mod_lt _ (by omega)
      · exact absurd h (by simp)

/-- Every RAM place an address stands on lies inside its memory. -/
def Target.inside (x : Target) (s : State) : Prop :=
  match x with
  | .vram i => i < 8192
  | .eram i => i < s.cfg.cart.eramSize
  | .wram i => i < 4096 * s.cfg.wramBanks
  | .oam i => i < 160
  | .hram i => i < 127
  | _ => True

theorem target_inside {s : State} (h : 2 ≤ s.cfg.wramBanks) (a : Word) : (target s a).inside s := by
  have ha : a.toNat < 65536 := a.isLt
  unfold target
  simp only
  split
  · trivial
  split
  · simp only [Target.inside]; omega
  split
  · split
    · next i hi => exact eramIndex_lt hi
    · trivial
  split
  · exact wramIndex_lt h (by omega) (by omega)
  split
  · exact wramIndex_lt h (by omega) (by omega)
  split
  · simp only [Target.inside]; omega
  split
  · trivial
  split
  · split <;> trivial
  split
  · simp only [Target.inside]; omega
  · trivial

/-! ## The part of the invariant outside the CPU -/

/-- The invariant without the CPU's part. -/
def State.devicesOk (s : State) : Prop :=
  s.timer.ok = true ∧ s.ppu.ok = true ∧ s.mapper.bank1 ≠ 0 ∧ s.ram.ok s.cfg = true ∧ configOk s.cfg = true

theorem State.inv_iff (s : State) : s.inv = true ↔ s.cpu.ok = true ∧ s.devicesOk := by
  simp only [State.inv, State.devicesOk, Bool.and_eq_true, decide_eq_true_eq]
  tauto

@[simp] theorem State.devicesOk_withCpu (s : State) (c : Cpu) : (s.withCpu c).devicesOk ↔ s.devicesOk := Iff.rfl

/-! ### Writes -/

theorem timaPeriod_pos (tac : BitVec 3) : 0 < timaPeriod tac := by
  unfold timaPeriod
  split <;> omega

theorem timaPeriod_congr {t t' : BitVec 3} (h : t.toNat % 4 = t'.toNat % 4) : timaPeriod t = timaPeriod t' := by
  unfold timaPeriod
  rw [h]

theorem Timer.ok_iff (t : Timer) : t.ok = true ↔ t.divSub < 256 ∧ t.timaSub < timaPeriod t.tac := by
  simp only [Timer.ok, Bool.and_eq_true, decide_eq_true_eq]

theorem divWrite_ok {s : State} (h : s.timer.ok) : (divWrite s).timer.ok := by
  rw [Timer.ok_iff] at h ⊢
  exact ⟨show (0 : Nat) < 256 by decide, h.2⟩

theorem tacWrite_ok {s : State} (h : s.timer.ok) (v : Byte) : (tacWrite v s).timer.ok := by
  rw [Timer.ok_iff] at h ⊢
  refine ⟨h.1, ?_⟩
  simp only [tacWrite]
  split
  · next he => rw [timaPeriod_congr he]; exact h.2
  · exact timaPeriod_pos _

theorem lcdcWrite_ok {s : State} (h : s.ppu.ok) (v : Byte) : (lcdcWrite v s).ppu.ok := by
  simp only [Ppu.ok, Bool.and_eq_true, Bool.or_eq_true, decide_eq_true_eq] at h
  obtain ⟨⟨⟨⟨h1, h2⟩, h3⟩, h4⟩, h5⟩ := h
  unfold lcdcWrite
  dsimp only
  split_ifs with ha hb
  · simp [Ppu.ok, PpuMode.budget, lineOk, h4, h5]
  · simp only [Bool.and_eq_true] at hb
    simp [Ppu.ok, PpuMode.budget, lineOk, h4, h5, hb.2]
  · simp only [Ppu.ok, Bool.and_eq_true, Bool.or_eq_true, decide_eq_true_eq]
    refine ⟨⟨⟨⟨h1, h2⟩, ?_⟩, h4⟩, h5⟩
    cases hv : bitOf v 7
    · right
      rcases h3 with h3 | h3
      · simp [lcdcBit, h3, hv] at ha
      · exact h3
    · exact .inl rfl

theorem mapperRegWrite_bank1 {m : Mapper} (h : m.bank1 ≠ 0) (n : Nat) (v : Byte) : (mapperRegWrite n v m).bank1 ≠ 0 := by
  unfold mapperRegWrite
  dsimp only
  split_ifs with h1 h2 h3 h4
  · exact h
  · exact show (1 : BitVec 5) ≠ 0 by decide
  · exact h3
  · exact h
  · exact h

theorem Ram.ok_iff (r : Ram) (cfg : Config) : r.ok cfg = true ↔
    r.vram.fits 8192 = true ∧ r.wram.fits (4096 * cfg.wramBanks) = true ∧ r.oam.fits 160 = true
      ∧ r.hram.fits 127 = true ∧ r.eram.fits cfg.cart.eramSize = true := by
  simp only [Ram.ok, Bool.and_eq_true]
  tauto

theorem Ram.wf_of_ok {r : Ram} {cfg : Config} (h : r.ok cfg) : r.wf := by
  rw [Ram.ok_iff] at h
  simp only [Memory.fits, Bool.and_eq_true] at h
  exact ⟨h.1.1, h.2.1.1, h.2.2.1.1, h.2.2.2.1.1, h.2.2.2.2.1⟩

theorem dmaFold_oam (v : Byte) (l : List Nat) (hl : ∀ i ∈ l, i < 160) (s : State) (h : s.ram.oam.fits 160) :
    (l.foldl (fun t i => oamStore i (busRead t (wordOf v 0 + BitVec.ofNat 16 i)) t) s).ram.oam.fits 160 := by
  induction l generalizing s with
  | nil => exact h
  | cons i l ih =>
    refine ih (fun j hj => hl j (List.mem_cons_of_mem _ hj)) _ ?_
    simpa using Memory.fits_write h (hl i (by simp)) _

theorem dmaWrite_ramOk {s : State} (h : s.ram.ok s.cfg) (v : Byte) : (dmaWrite v s).ram.ok (dmaWrite v s).cfg := by
  have hk := dmaWrite_keeps v s
  rw [Ram.ok_iff] at h ⊢
  rw [hk.2.2.1, hk.2.2.2.2.2.2.2.2.2.2.1, hk.2.2.2.2.2.2.2.2.2.2.2.1, hk.2.2.2.2.2.2.2.2.2.2.2.2.1,
    hk.2.2.2.2.2.2.2.2.2.2.2.2.2]
  refine ⟨h.1, h.2.1, ?_, h.2.2.2.1, h.2.2.2.2⟩
  exact dmaFold_oam v _ (fun i hi => by simpa using hi) { s with dma := v } h.2.2.1

theorem writeIo_devicesOk {s : State} (h : s.devicesOk) (r : IoReg) (v : Byte) : (writeIo r v s).devicesOk := by
  obtain ⟨ht, hp, hm, hr, hc⟩ := h
  cases r
  case div => exact ⟨divWrite_ok ht, hp, hm, hr, hc⟩
  case tac => exact ⟨tacWrite_ok ht v, hp, hm, hr, hc⟩
  case lcdc =>
    refine ⟨?_, lcdcWrite_ok hp v, ?_, ?_, ?_⟩ <;> simp only [writeIo, lcdcWrite] <;> split_ifs <;> assumption
  case dma =>
    have hk := dmaWrite_keeps v s
    refine ⟨?_, ?_, ?_, dmaWrite_ramOk hr v, ?_⟩ <;> simp only [writeIo, hk] <;> assumption
  all_goals exact ⟨ht, hp, hm, hr, hc⟩

theorem writeTarget_devicesOk {s : State} (h : s.devicesOk) {x : Target} (hx : x.inside s) (v : Byte) :
    (writeTarget x v s).devicesOk := by
  obtain ⟨ht, hp, hm, hr, hc⟩ := h
  cases x with
  | rom n =>
    have : (mapperWrite n v s).devicesOk := by
      unfold mapperWrite
      split
      · exact ⟨ht, hp, hm, hr, hc⟩
      · exact ⟨ht, hp, mapperRegWrite_bank1 hm n v, hr, hc⟩
    exact this
  | io r => exact writeIo_devicesOk ⟨ht, hp, hm, hr, hc⟩ r v
  | ie => exact ⟨ht, hp, hm, hr, hc⟩
  | openBus => exact ⟨ht, hp, hm, hr, hc⟩
  | vram i =>
    rw [Ram.ok_iff] at hr
    exact ⟨ht, hp, hm, (Ram.ok_iff _ _).2 ⟨Memory.fits_write hr.1 hx v, hr.2⟩, hc⟩
  | wram i =>
    rw [Ram.ok_iff] at hr
    exact ⟨ht, hp, hm, (Ram.ok_iff _ _).2 ⟨hr.1, Memory.fits_write hr.2.1 hx v, hr.2.2⟩, hc⟩
  | oam i =>
    rw [Ram.ok_iff] at hr
    exact ⟨ht, hp, hm, (Ram.ok_iff _ _).2 ⟨hr.1, hr.2.1, Memory.fits_write hr.2.2.1 hx v, hr.2.2.2⟩, hc⟩
  | hram i =>
    rw [Ram.ok_iff] at hr
    exact ⟨ht, hp, hm, (Ram.ok_iff _ _).2 ⟨hr.1, hr.2.1, hr.2.2.1, Memory.fits_write hr.2.2.2.1 hx v, hr.2.2.2.2⟩, hc⟩
  | eram i =>
    rw [Ram.ok_iff] at hr
    exact ⟨ht, hp, hm, (Ram.ok_iff _ _).2 ⟨hr.1, hr.2.1, hr.2.2.1, hr.2.2.2.1, Memory.fits_write hr.2.2.2.2 hx v⟩, hc⟩

/-- Every bus write keeps the invariant's part outside the CPU, the canonical form of every memory among it. -/
theorem busWrite_devicesOk {s : State} (h : s.devicesOk) (a : Word) (v : Byte) : (busWrite a v s).devicesOk :=
  writeTarget_devicesOk h (target_inside (config_wramBanks h.2.2.2.2) a) v

theorem push16_devicesOk {s : State} (h : s.devicesOk) (v : Word) : (push16 v s).devicesOk :=
  busWrite_devicesOk (s := State.setSp _ _)
    ((State.devicesOk_withCpu _ _).2 (busWrite_devicesOk (s := s.setSp _) ((State.devicesOk_withCpu _ _).2 h) _ _)) _ _

/-! ### The Timer -/

theorem raiseInt_devicesOk {s : State} (h : s.devicesOk) (i : Nat) : (raiseInt i s).devicesOk := h

theorem timaTick_keeps (s : State) :
    (timaTick s).timer.divSub = s.timer.divSub ∧ (timaTick s).timer.timaSub = s.timer.timaSub
      ∧ (timaTick s).timer.tac = s.timer.tac ∧ (timaTick s).timer.tma = s.timer.tma
      ∧ (timaTick s).timer.div = s.timer.div ∧ (timaTick s).cpu = s.cpu
      ∧ (timaTick s).ppu = s.ppu ∧ (timaTick s).mapper = s.mapper ∧ (timaTick s).ram = s.ram
      ∧ (timaTick s).cfg = s.cfg ∧ (timaTick s).joypad = s.joypad ∧ (timaTick s).dma = s.dma
      ∧ (timaTick s).svbk = s.svbk ∧ (timaTick s).hostInput = s.hostInput ∧ (timaTick s).irq.ie = s.irq.ie := by
  unfold timaTick
  split <;> simp

theorem timaTicks_keeps (k : Nat) (s : State) :
    (timaTicks k s).timer.divSub = s.timer.divSub ∧ (timaTicks k s).timer.timaSub = s.timer.timaSub
      ∧ (timaTicks k s).timer.tac = s.timer.tac ∧ (timaTicks k s).timer.tma = s.timer.tma
      ∧ (timaTicks k s).timer.div = s.timer.div ∧ (timaTicks k s).cpu = s.cpu
      ∧ (timaTicks k s).ppu = s.ppu ∧ (timaTicks k s).mapper = s.mapper ∧ (timaTicks k s).ram = s.ram
      ∧ (timaTicks k s).cfg = s.cfg ∧ (timaTicks k s).joypad = s.joypad ∧ (timaTicks k s).dma = s.dma
      ∧ (timaTicks k s).svbk = s.svbk ∧ (timaTicks k s).hostInput = s.hostInput
      ∧ (timaTicks k s).irq.ie = s.irq.ie := by
  induction k generalizing s with
  | zero => simp [timaTicks]
  | succ k ih =>
    have h1 := ih (timaTick s)
    have h2 := timaTick_keeps s
    simp only [timaTicks, h1, h2, and_self]

theorem divRun_devicesOk {s : State} (h : s.devicesOk) (t : Nat) : (divRun t s).devicesOk := by
  obtain ⟨ht, hp, hm, hr, hc⟩ := h
  refine ⟨?_, hp, hm, hr, hc⟩
  rw [Timer.ok_iff] at ht ⊢
  exact ⟨Nat.mod_lt _ (by omega), ht.2⟩

theorem timaRun_devicesOk {s : State} (h : s.devicesOk) (t : Nat) : (timaRun t s).devicesOk := by
  obtain ⟨ht, hp, hm, hr, hc⟩ := h
  unfold timaRun
  dsimp only
  split
  · have hk := timaTicks_keeps ((s.timer.timaSub + t) / timaPeriod s.timer.tac)
      { s with timer := { s.timer with timaSub := (s.timer.timaSub + t) % timaPeriod s.timer.tac } }
    refine ⟨?_, ?_, ?_, ?_, ?_⟩
    · rw [Timer.ok_iff] at ht ⊢
      rw [hk.1, hk.2.1, hk.2.2.1]
      exact ⟨ht.1, Nat.mod_lt _ (timaPeriod_pos _)⟩
    all_goals simp only [hk]; assumption
  · exact ⟨ht, hp, hm, hr, hc⟩

/-- The Timer keeps the invariant's part outside the CPU. -/
theorem timerRun_devicesOk {s : State} (h : s.devicesOk) (t : Nat) : (timerRun t s).devicesOk :=
  timaRun_devicesOk (divRun_devicesOk h t) t

/-! ### The PPU -/

/-- What no part of the PPU touches. -/
def State.samePpuFrame (s t : State) : Prop :=
  t.cpu = s.cpu ∧ t.timer = s.timer ∧ t.joypad = s.joypad ∧ t.mapper = s.mapper ∧ t.dma = s.dma ∧ t.svbk = s.svbk
    ∧ t.ram = s.ram ∧ t.hostInput = s.hostInput ∧ t.cfg = s.cfg ∧ t.irq.ie = s.irq.ie

theorem State.samePpuFrame.refl (s : State) : s.samePpuFrame s := by simp [State.samePpuFrame]

theorem State.samePpuFrame.trans {s t u : State} (h : s.samePpuFrame t) (h' : t.samePpuFrame u) : s.samePpuFrame u := by
  simp only [State.samePpuFrame] at *
  simp only [h, h', and_self]

/-- A state that differs from `s` at most in the pixels of the frame buffer. -/
def State.sameButPixels (s t : State) : Prop := ∃ fb, t = { s with ppu := { s.ppu with framebuffer := fb } }

theorem State.sameButPixels.refl (s : State) : s.sameButPixels s := ⟨s.ppu.framebuffer, rfl⟩

theorem State.sameButPixels.trans {s t u : State} (h : s.sameButPixels t) (h' : t.sameButPixels u) : s.sameButPixels u := by
  obtain ⟨a, rfl⟩ := h
  obtain ⟨b, rfl⟩ := h'
  exact ⟨b, rfl⟩

theorem setPixel_sameButPixels (y x : Nat) (v : BitVec 2) (s : State) : s.sameButPixels (setPixel y x v s) := by
  unfold setPixel
  split
  · exact ⟨_, rfl⟩
  · exact .refl s

/-- The frame buffer's part of the invariant. -/
def fbOk (s : State) : Prop := Cells.wf s.ppu.framebuffer = true ∧ Cells.below 23040 s.ppu.framebuffer = true

theorem setPixel_fbOk {s : State} (h : fbOk s) (y x : Nat) (v : BitVec 2) : fbOk (setPixel y x v s) := by
  unfold setPixel
  split
  · next hyx =>
    simp only [lcdH, lcdW] at hyx
    exact ⟨Cells.wf_write h.1 _ _, Cells.below_write h.2 (by simp only [lcdW]; omega) _⟩
  · exact h

/-- A fold whose every step changes only pixels does so as a whole. -/
theorem foldl_pixels {α : Type} (f : State → α → State) (hf : ∀ s x, s.sameButPixels (f s x) ∧ (fbOk s → fbOk (f s x)))
    (l : List α) (s : State) : s.sameButPixels (l.foldl f s) ∧ (fbOk s → fbOk (l.foldl f s)) := by
  induction l generalizing s with
  | nil => exact ⟨.refl s, id⟩
  | cons x l ih =>
    exact ⟨(hf s x).1.trans (ih (f s x)).1, fun h => (ih (f s x)).2 ((hf s x).2 h)⟩

theorem renderScanline_pixels (ly : Nat) (s : State) :
    s.sameButPixels (renderScanline ly s) ∧ (fbOk s → fbOk (renderScanline ly s)) :=
  foldl_pixels _ (fun _ _ => ⟨setPixel_sameButPixels _ _ _ _, fun h => setPixel_fbOk h _ _ _⟩) _ s

theorem renderSpritePixel_pixels (sp : Sprite) (r c : Nat) (s : State) :
    s.sameButPixels (renderSpritePixel sp r c s) ∧ (fbOk s → fbOk (renderSpritePixel sp r c s)) := by
  unfold renderSpritePixel
  dsimp only
  split_ifs <;>
    first
      | exact ⟨.refl s, id⟩
      | exact ⟨setPixel_sameButPixels _ _ _ _, fun h => setPixel_fbOk h _ _ _⟩

theorem renderSprite_pixels (sp : Sprite) (s : State) :
    s.sameButPixels (renderSprite sp s) ∧ (fbOk s → fbOk (renderSprite sp s)) := by
  unfold renderSprite
  split
  · exact ⟨.refl s, id⟩
  · exact foldl_pixels _ (fun t r => foldl_pixels _ (fun u c => renderSpritePixel_pixels sp r c u) _ t) _ s

theorem renderSprites_pixels (s : State) :
    s.sameButPixels (renderSprites s) ∧ (fbOk s → fbOk (renderSprites s)) := by
  unfold renderSprites
  split
  · exact foldl_pixels _ (fun t k => renderSprite_pixels _ t) _ s
  · exact ⟨.refl s, id⟩

theorem State.sameButPixels.frame {s t : State} (h : s.sameButPixels t) : s.samePpuFrame t := by
  obtain ⟨fb, rfl⟩ := h
  exact .refl s

theorem ppuTransition_frame (s : State) : s.samePpuFrame (ppuTransition s) := by
  unfold ppuTransition
  split
  · exact .refl s
  · unfold evalStat
    dsimp only
    split <;> exact .refl s
  · unfold endOfLine
    dsimp only
    obtain ⟨fb, he⟩ := (renderScanline_pixels s.ppu.ly.toNat s).1
    rw [he]
    split <;> exact ⟨rfl, rfl, rfl, rfl, rfl, rfl, rfl, rfl, rfl, rfl⟩
  · unfold vblankLine
    dsimp only
    split
    · obtain ⟨fb, he⟩ := (renderSprites_pixels (setLy (s.ppu.ly + 1) s)).1
      rw [he]
      exact ⟨rfl, rfl, rfl, rfl, rfl, rfl, rfl, rfl, rfl, rfl⟩
    · exact .refl s

theorem ppuLoop_frame (k : Nat) (s : State) : s.samePpuFrame (ppuLoop k s) := by
  induction k generalizing s with
  | zero => exact .refl s
  | succ k ih =>
    unfold ppuLoop
    split
    · exact (ppuTransition_frame (setModeClock (s.ppu.modeClock - s.ppu.mode.budget) s)).trans (ih _)
    · exact .refl s

/-- The PPU touches its own part and IF alone. -/
theorem ppuRun_frame (t : Nat) (s : State) : s.samePpuFrame (ppuRun t s) := by
  unfold ppuRun
  split
  · exact ppuLoop_frame _ (setModeClock _ s)
  · exact .refl s

/-- The PPU's part of the invariant, the bound on the mode clock left out: what holds inside the loop. -/
def ppuLoopOk (s : State) : Prop :=
  lineOk s.ppu.mode s.ppu.ly = true ∧ lcdcBit s 7 = true ∧ fbOk s

theorem ppuTransition_loopOk {s : State} (h : ppuLoopOk s) : ppuLoopOk (ppuTransition s) := by
  obtain ⟨hl, hb, hf⟩ := h
  unfold ppuTransition
  split
  · next hm =>
    rw [hm] at hl
    exact ⟨hl, hb, hf⟩
  · next hm =>
    rw [hm] at hl
    unfold evalStat
    dsimp only
    split <;> exact ⟨hl, hb, hf⟩
  · next hm =>
    rw [hm] at hl
    simp only [lineOk, decide_eq_true_eq] at hl
    unfold endOfLine
    dsimp only
    obtain ⟨hp, hfb⟩ := renderScanline_pixels s.ppu.ly.toNat s
    obtain ⟨fb, he⟩ := hp
    have hfb := hfb hf
    rw [he] at hfb ⊢
    split
    · next h144 =>
      refine ⟨?_, hb, hfb⟩
      have h144 : s.ppu.ly + 1 = 144 := h144
      show lineOk .vblank (s.ppu.ly + 1) = true
      rw [h144]
      decide
    · next h144 =>
      refine ⟨?_, hb, hfb⟩
      have h144 : ¬ s.ppu.ly + 1 = 144 := h144
      have h2 : (s.ppu.ly + 1).toNat ≠ 144 := fun h => h144 (BitVec.eq_of_toNat_eq (y := 144#8) h)
      have h3 : (s.ppu.ly + 1).toNat = s.ppu.ly.toNat + 1 := by
        rw [BitVec.toNat_add]
        exact Nat.mod_eq_of_lt (by simp; omega)
      show decide ((s.ppu.ly + 1).toNat < 144) = true
      rw [decide_eq_true_eq]
      omega
  · next hm =>
    rw [hm] at hl
    simp only [lineOk, Bool.and_eq_true, decide_eq_true_eq] at hl
    unfold vblankLine
    dsimp only
    split
    · next h154 =>
      obtain ⟨hp, hfb⟩ := renderSprites_pixels (setLy (s.ppu.ly + 1) s)
      obtain ⟨fb, he⟩ := hp
      have hfb := hfb hf
      rw [he] at hfb ⊢
      exact ⟨by simp [lineOk], hb, hfb⟩
    · next h154 =>
      have h154 : ¬ s.ppu.ly + 1 = 154 := h154
      have h2 : (s.ppu.ly + 1).toNat ≠ 154 := fun h => h154 (BitVec.eq_of_toNat_eq h)
      have h3 : (s.ppu.ly + 1).toNat = s.ppu.ly.toNat + 1 := by
        rw [BitVec.toNat_add]
        exact Nat.mod_eq_of_lt (by simp; omega)
      refine ⟨?_, hb, hf⟩
      simp only [lineOk, setLy_ppu, hm, Bool.and_eq_true, decide_eq_true_eq]
      omega

theorem ppuTransition_modeClock (s : State) : (ppuTransition s).ppu.modeClock = s.ppu.modeClock := by
  unfold ppuTransition
  split
  · rfl
  · unfold evalStat
    dsimp only
    split <;> rfl
  · unfold endOfLine
    dsimp only
    obtain ⟨fb, he⟩ := (renderScanline_pixels s.ppu.ly.toNat s).1
    rw [he]
    split <;> rfl
  · unfold vblankLine
    dsimp only
    split
    · obtain ⟨fb, he⟩ := (renderSprites_pixels (setLy (s.ppu.ly + 1) s)).1
      rw [he]
      rfl
    · rfl

theorem PpuMode.budget_ge (m : PpuMode) : 80 ≤ m.budget := by cases m <;> decide

/-- With enough fuel the loop ends with the mode's budget not used up. -/
theorem ppuLoop_ok {k : Nat} {s : State} (h : ppuLoopOk s) (hk : s.ppu.modeClock / 80 ≤ k) :
    ppuLoopOk (ppuLoop k s) ∧ (ppuLoop k s).ppu.modeClock < (ppuLoop k s).ppu.mode.budget := by
  induction k generalizing s with
  | zero =>
    have := PpuMode.budget_ge s.ppu.mode
    exact ⟨h, by simp only [ppuLoop]; omega⟩
  | succ k ih =>
    have hb := PpuMode.budget_ge s.ppu.mode
    unfold ppuLoop
    split
    · next hle =>
      have h1 : ppuLoopOk (setModeClock (s.ppu.modeClock - s.ppu.mode.budget) s) := h
      refine ih (ppuTransition_loopOk h1) ?_
      rw [ppuTransition_modeClock]
      simp only [setModeClock_ppu]
      omega
    · next hlt => exact ⟨h, by omega⟩

/-- The PPU keeps the invariant's part outside the CPU. -/
theorem ppuRun_devicesOk {s : State} (h : s.devicesOk) (t : Nat) : (ppuRun t s).devicesOk := by
  have hf := ppuRun_frame t s
  obtain ⟨ht, hp, hm, hr, hc⟩ := h
  obtain ⟨-, f2, -, f4, -, -, f7, -, f9, -⟩ := hf
  refine ⟨f2 ▸ ht, ?_, f4 ▸ hm, by rw [f7, f9]; exact hr, f9 ▸ hc⟩
  have hp0 := hp
  simp only [Ppu.ok, Bool.and_eq_true, Bool.or_eq_true, decide_eq_true_eq] at hp
  obtain ⟨⟨⟨⟨h1, h2⟩, h3⟩, h4⟩, h5⟩ := hp
  unfold ppuRun
  dsimp only
  split
  · next hb =>
    have hs : ppuLoopOk (setModeClock (s.ppu.modeClock + t) s) := ⟨h2, hb, h4, h5⟩
    obtain ⟨⟨g1, g2, g3, g4⟩, g5⟩ := ppuLoop_ok hs (Nat.le_refl _)
    simp only [Ppu.ok, Bool.and_eq_true, Bool.or_eq_true, decide_eq_true_eq]
    exact ⟨⟨⟨⟨g5, g1⟩, .inl g2⟩, g3⟩, g4⟩
  · exact hp0

theorem advanceDevices_devicesOk {s : State} (h : s.devicesOk) (m : Option Nat) : (advanceDevices m s).devicesOk := by
  cases m with
  | none => exact h
  | some k => exact ppuRun_devicesOk (timerRun_devicesOk h _) _

/-! ### The host -/

theorem hostAct_devicesOk {s : State} (h : s.devicesOk) (act : HostAction) : (hostAct act s).devicesOk := by
  cases act with
  | setButton k p =>
    simp only [hostAct, setButton]
    split <;> exact h
  | clearFrameReady => exact h

theorem hostAct_cpu (act : HostAction) (s : State) : (hostAct act s).cpu = s.cpu := by
  cases act with
  | setButton k p =>
    simp only [hostAct, setButton]
    split <;> rfl
  | clearFrameReady => rfl

theorem hostPhase_ok {s : State} : (hostPhase s).cpu = s.cpu ∧ (s.devicesOk → (hostPhase s).devicesOk) := by
  unfold hostPhase
  split
  · exact ⟨rfl, id⟩
  · next acts rest he =>
    have key : ∀ (l : List HostAction) (t : State), (l.foldl (fun t act => hostAct act t) t).cpu = t.cpu
        ∧ (t.devicesOk → (l.foldl (fun t act => hostAct act t) t).devicesOk) := by
      intro l
      induction l with
      | nil => exact fun t => ⟨rfl, id⟩
      | cons a l ih =>
        intro t
        have := ih (hostAct a t)
        exact ⟨this.1.trans (hostAct_cpu a t), fun h => this.2 (hostAct_devicesOk h a)⟩
    have := key acts { s with hostInput := rest }
    exact ⟨this.1, fun h => this.2 h⟩

end Sys2Proof.Machine
end

