-- ==== Sys2Proof/Laws/Ops.lean ====
section
/-! SUPPORT. One law per shared operation: what a push, a pop, a dispatch and every instruction can do. -/

namespace Sys2Proof.Machine

theorem word_sub_one_one (w : Word) : w - 1 - 1 = w - 2 := by bv_omega

theorem word_add_one_one (w : Word) : w + 1 + 1 = w + 2 := by bv_omega

/-- A bus write is its own effect on the devices, with the CPU of before. -/
theorem busWrite_withCpu_self (a : Word) (v : Byte) (s : State) : (busWrite a v s).withCpu s.cpu = busWrite a v s := by
  have h : (busWrite a v s).withCpu (busWrite a v s).cpu = busWrite a v s := rfl
  rwa [busWrite_cpu] at h

@[simp] theorem applyStores_nil (s : State) : applyStores [] s = s := rfl

@[simp] theorem applyStores_cons (w : Word × Byte) (l : List (Word × Byte)) (s : State) :
    applyStores (w :: l) s = applyStores l (busWrite w.1 w.2 s) := rfl

@[simp] theorem applyStores_cpu (l : List (Word × Byte)) (s : State) : (applyStores l s).cpu = s.cpu := by
  induction l generalizing s with
  | nil => rfl
  | cons w l ih => simp [ih]

@[simp] theorem applyStores_cfg (l : List (Word × Byte)) (s : State) : (applyStores l s).cfg = s.cfg := by
  induction l generalizing s with
  | nil => rfl
  | cons w l ih => simp [ih]

@[simp] theorem applyStores_hostInput (l : List (Word × Byte)) (s : State) : (applyStores l s).hostInput = s.hostInput := by
  induction l generalizing s with
  | nil => rfl
  | cons w l ih => simp [ih]

theorem applyStores_withCpu (l : List (Word × Byte)) (s : State) (c : Cpu) :
    applyStores l (s.withCpu c) = (applyStores l s).withCpu c := by
  induction l generalizing s with
  | nil => rfl
  | cons w l ih => simp only [applyStores_cons, busWrite_withCpu, ih]

theorem applyStores_devicesOk {s : State} (h : s.devicesOk) (l : List (Word × Byte)) : (applyStores l s).devicesOk := by
  induction l generalizing s with
  | nil => exact h
  | cons w l ih => exact ih (busWrite_devicesOk h w.1 w.2)

/-- A push: `sp` 2 lower, the high byte written first, at `sp - 1`, the low byte at `sp - 2`
(41_load16_stack.md R185). -/
theorem push16_eq (v : Word) (s : State) :
    push16 v s = (applyStores [(s.cpu.sp - 1, hiByte v), (s.cpu.sp - 2, loByte v)] s).withCpu { s.cpu with sp := s.cpu.sp - 2 } := by
  unfold push16
  simp only [State.setSp, busWrite_withCpu, State.withCpu_cpu, State.withCpu_withCpu, applyStores_cons,
    applyStores_nil, word_sub_one_one]

/-- Dispatch as one update (60_exceptions.md R329). -/
theorem dispatch_eq (i : Nat) (s : State) :
    dispatch i s = clearInt i ((applyStores [(s.cpu.sp - 1, hiByte s.cpu.pc), (s.cpu.sp - 2, loByte s.cpu.pc)] s).withCpu
      { s.cpu with sp := s.cpu.sp - 2, halted := false, ime := false, eiPending := false, pc := vectorOf i }) := by
  unfold dispatch
  rw [push16_eq]
  simp only [State.setHalted, State.setIme, State.setEiPending, State.setPc, applyStores_withCpu, State.withCpu_cpu,
    State.withCpu_withCpu]

/-! ## The shape of every instruction -/

/-- A result that is a list of bus writes and a new CPU. -/
def StoresAndCpu (s : State) (r : Result) : Prop := ∃ l c, r = .next ((applyStores l s).withCpu c)

theorem StoresAndCpu.cpu (s : State) (c : Cpu) : StoresAndCpu s (.next (s.withCpu c)) := ⟨[], c, rfl⟩

theorem StoresAndCpu.same (s : State) : StoresAndCpu s (.next s) := ⟨[], s.cpu, rfl⟩

theorem StoresAndCpu.store (s : State) (a : Word) (v : Byte) (c : Cpu) : StoresAndCpu s (.next ((busWrite a v s).withCpu c)) :=
  ⟨[(a, v)], c, rfl⟩

theorem StoresAndCpu.store' (s : State) (a : Word) (v : Byte) : StoresAndCpu s (.next (busWrite a v s)) :=
  ⟨[(a, v)], s.cpu, by rw [applyStores_cons, applyStores_nil, busWrite_withCpu_self]⟩

theorem StoresAndCpu.push (s : State) (v : Word) : StoresAndCpu s (.next (push16 v s)) := ⟨_, _, by rw [push16_eq]⟩

theorem StoresAndCpu.call (s : State) (dest : Word) : StoresAndCpu s (.next (callTo dest s)) :=
  ⟨_, _, by rw [callTo, push16_eq, State.setPc, State.withCpu_withCpu]⟩

theorem StoresAndCpu.illegal (s : State) (op : Byte) : StoresAndCpu s (.next (raiseIllegal op s)) := by
  unfold raiseIllegal
  split
  · exact .cpu s _
  · exact .same s

theorem execExtended_shape (op2 : Byte) (s : State) : StoresAndCpu s (execExtended op2 s) := by
  unfold execExtended
  dsimp only
  split
  · split <;> exact .cpu s _
  · split <;> exact .store s _ _ _
  · exact .cpu s _
  · exact .cpu s _
  · exact .cpu s _
  · exact .store' s _ _
  · exact .cpu s _
  · exact .store' s _ _

theorem StoresAndCpu.of_withCpu {s : State} {c : Cpu} {r : Result} (h : StoresAndCpu (s.withCpu c) r) : StoresAndCpu s r := by
  obtain ⟨l, d, rfl⟩ := h
  exact ⟨l, d, by rw [applyStores_withCpu, State.withCpu_withCpu]⟩

/-- Every instruction answers a next state, which is a list of bus writes and a new CPU: no instruction faults
or is refused. -/
theorem exec_shape (i : Instr) (s : State) : StoresAndCpu s (exec i s) := by
  cases i
  case prefixCb => exact .of_withCpu (execExtended_shape _ (s.setPc (s.cpu.pc + 1)))
  case ldNnSp nn => exact ⟨[(nn, loByte s.cpu.sp), (nn + 1, hiByte s.cpu.sp)], s.cpu, by
    simp only [exec, execLdNnSp, memWrite16, applyStores_cons, applyStores_nil]
    have h := busWrite_withCpu_self (nn + 1) (hiByte s.cpu.sp) (busWrite nn (loByte s.cpu.sp) s)
    rw [busWrite_cpu] at h
    rw [h]⟩
  case ldHldA => exact ⟨[(s.cpu.hl, s.cpu.a)], _, rfl⟩
  case ldHliA => exact ⟨[(s.cpu.hl, s.cpu.a)], _, rfl⟩
  case pushRr p => exact .push s _
  case callNn nn => exact .call s nn
  case rst t => exact .call s _
  case callCcNn cc nn =>
    simp only [exec, execCallCcNn]
    split
    · exact .call s nn
    · exact .same s
  case jpCcNn cc nn =>
    simp only [exec, execJpCcNn]
    split
    · exact .cpu s _
    · exact .same s
  case jrCcE cc e =>
    simp only [exec, execJrCcE]
    split
    · exact .cpu s _
    · exact .same s
  case retCc cc =>
    simp only [exec, execRetCc]
    split
    · exact .cpu s _
    · exact .same s
  all_goals
    first
      | exact .cpu s _
      | exact .same s
      | exact .store s _ _ _
      | exact .store' s _ _
      | exact .illegal s _

/-- No instruction changes the configuration or uses up host input. -/
theorem exec_next {i : Instr} {s t : State} (h : exec i s = .next t) :
    t.cfg = s.cfg ∧ t.hostInput = s.hostInput ∧ (s.devicesOk → t.devicesOk) := by
  obtain ⟨l, c, he⟩ := exec_shape i s
  rw [he] at h
  injection h with h
  subst h
  exact ⟨by simp, by simp, fun hs => (State.devicesOk_withCpu _ _).2 (applyStores_devicesOk hs l)⟩

end Sys2Proof.Machine
end

