-- ==== Sys2Proof/Laws/PerInstr.lean ====
section
/-! SUPPORT. Per constructor: every instruction has at least one byte, and its first byte alone gives its
length (30_encoding.md R130, R139); the bare prefix row, one byte of a two-byte instruction, is the
exception. -/

namespace Sys2Proof.Laws.EncodedWell

/-- The bytes of an instruction begin with an opcode that gives their number. -/
def Statement (i : Instr) : Prop :=
  ∃ op tl, encode i = op :: tl ∧ ((encode i).length = opLength op ∨ i = .prefixCb)

theorem ldRR (dst src : Reg8) : Statement (Instr.ldRR dst src) := by
  cases dst <;> cases src <;> exact ⟨_, _, rfl, .inl rfl⟩

theorem ldRN (r : Reg8) (n : Byte) : Statement (Instr.ldRN r n) := by
  cases r <;> exact ⟨_, _, rfl, .inl rfl⟩

theorem ldRHl (r : Reg8) : Statement (Instr.ldRHl r) := by
  cases r <;> exact ⟨_, _, rfl, .inl rfl⟩

theorem ldHlR (r : Reg8) : Statement (Instr.ldHlR r) := by
  cases r <;> exact ⟨_, _, rfl, .inl rfl⟩

theorem ldHlN (n : Byte) : Statement (Instr.ldHlN n) := ⟨_, _, rfl, .inl rfl⟩

theorem ldABc : Statement (Instr.ldABc) := ⟨_, _, rfl, .inl rfl⟩

theorem ldADe : Statement (Instr.ldADe) := ⟨_, _, rfl, .inl rfl⟩

theorem ldBcA : Statement (Instr.ldBcA) := ⟨_, _, rfl, .inl rfl⟩

theorem ldDeA : Statement (Instr.ldDeA) := ⟨_, _, rfl, .inl rfl⟩

theorem ldANn (nn : Word) : Statement (Instr.ldANn nn) := ⟨_, _, rfl, .inl rfl⟩

theorem ldNnA (nn : Word) : Statement (Instr.ldNnA nn) := ⟨_, _, rfl, .inl rfl⟩

theorem ldhAC : Statement (Instr.ldhAC) := ⟨_, _, rfl, .inl rfl⟩

theorem ldhCA : Statement (Instr.ldhCA) := ⟨_, _, rfl, .inl rfl⟩

theorem ldhAN (n : Byte) : Statement (Instr.ldhAN n) := ⟨_, _, rfl, .inl rfl⟩

theorem ldhNA (n : Byte) : Statement (Instr.ldhNA n) := ⟨_, _, rfl, .inl rfl⟩

theorem ldAHld : Statement (Instr.ldAHld) := ⟨_, _, rfl, .inl rfl⟩

theorem ldHldA : Statement (Instr.ldHldA) := ⟨_, _, rfl, .inl rfl⟩

theorem ldAHli : Statement (Instr.ldAHli) := ⟨_, _, rfl, .inl rfl⟩

theorem ldHliA : Statement (Instr.ldHliA) := ⟨_, _, rfl, .inl rfl⟩

theorem ldRrNn (p : Reg16) (nn : Word) : Statement (Instr.ldRrNn p nn) := by
  cases p <;> exact ⟨_, _, rfl, .inl rfl⟩

theorem ldNnSp (nn : Word) : Statement (Instr.ldNnSp nn) := ⟨_, _, rfl, .inl rfl⟩

theorem ldSpHl : Statement (Instr.ldSpHl) := ⟨_, _, rfl, .inl rfl⟩

theorem ldHlSpE (e : Byte) : Statement (Instr.ldHlSpE e) := ⟨_, _, rfl, .inl rfl⟩

theorem pushRr (p : Reg16Stk) : Statement (Instr.pushRr p) := by
  cases p <;> exact ⟨_, _, rfl, .inl rfl⟩

theorem popRr (p : Reg16Stk) : Statement (Instr.popRr p) := by
  cases p <;> exact ⟨_, _, rfl, .inl rfl⟩

theorem popAf : Statement (Instr.popAf) := ⟨_, _, rfl, .inl rfl⟩

theorem addR (r : Reg8) : Statement (Instr.addR r) := by
  cases r <;> exact ⟨_, _, rfl, .inl rfl⟩

theorem addHl : Statement (Instr.addHl) := ⟨_, _, rfl, .inl rfl⟩

theorem addN (n : Byte) : Statement (Instr.addN n) := ⟨_, _, rfl, .inl rfl⟩

theorem adcR (r : Reg8) : Statement (Instr.adcR r) := by
  cases r <;> exact ⟨_, _, rfl, .inl rfl⟩

theorem adcHl : Statement (Instr.adcHl) := ⟨_, _, rfl, .inl rfl⟩

theorem adcN (n : Byte) : Statement (Instr.adcN n) := ⟨_, _, rfl, .inl rfl⟩

theorem subR (r : Reg8) : Statement (Instr.subR r) := by
  cases r <;> exact ⟨_, _, rfl, .inl rfl⟩

theorem subHl : Statement (Instr.subHl) := ⟨_, _, rfl, .inl rfl⟩

theorem subN (n : Byte) : Statement (Instr.subN n) := ⟨_, _, rfl, .inl rfl⟩

theorem sbcR (r : Reg8) : Statement (Instr.sbcR r) := by
  cases r <;> exact ⟨_, _, rfl, .inl rfl⟩

theorem sbcHl : Statement (Instr.sbcHl) := ⟨_, _, rfl, .inl rfl⟩

theorem sbcN (n : Byte) : Statement (Instr.sbcN n) := ⟨_, _, rfl, .inl rfl⟩

theorem andR (r : Reg8) : Statement (Instr.andR r) := by
  cases r <;> exact ⟨_, _, rfl, .inl rfl⟩

theorem andHl : Statement (Instr.andHl) := ⟨_, _, rfl, .inl rfl⟩

theorem andN (n : Byte) : Statement (Instr.andN n) := ⟨_, _, rfl, .inl rfl⟩

theorem xorR (r : Reg8) : Statement (Instr.xorR r) := by
  cases r <;> exact ⟨_, _, rfl, .inl rfl⟩

theorem xorHl : Statement (Instr.xorHl) := ⟨_, _, rfl, .inl rfl⟩

theorem xorN (n : Byte) : Statement (Instr.xorN n) := ⟨_, _, rfl, .inl rfl⟩

theorem orR (r : Reg8) : Statement (Instr.orR r) := by
  cases r <;> exact ⟨_, _, rfl, .inl rfl⟩

theorem orHl : Statement (Instr.orHl) := ⟨_, _, rfl, .inl rfl⟩

theorem orN (n : Byte) : Statement (Instr.orN n) := ⟨_, _, rfl, .inl rfl⟩

theorem cpR (r : Reg8) : Statement (Instr.cpR r) := by
  cases r <;> exact ⟨_, _, rfl, .inl rfl⟩

theorem cpHl : Statement (Instr.cpHl) := ⟨_, _, rfl, .inl rfl⟩

theorem cpN (n : Byte) : Statement (Instr.cpN n) := ⟨_, _, rfl, .inl rfl⟩

theorem incR (r : Reg8) : Statement (Instr.incR r) := by
  cases r <;> exact ⟨_, _, rfl, .inl rfl⟩

theorem incHl : Statement (Instr.incHl) := ⟨_, _, rfl, .inl rfl⟩

theorem decR (r : Reg8) : Statement (Instr.decR r) := by
  cases r <;> exact ⟨_, _, rfl, .inl rfl⟩

theorem decHl : Statement (Instr.decHl) := ⟨_, _, rfl, .inl rfl⟩

theorem daa : Statement (Instr.daa) := ⟨_, _, rfl, .inl rfl⟩

theorem cpl : Statement (Instr.cpl) := ⟨_, _, rfl, .inl rfl⟩

theorem scf : Statement (Instr.scf) := ⟨_, _, rfl, .inl rfl⟩

theorem ccf : Statement (Instr.ccf) := ⟨_, _, rfl, .inl rfl⟩

theorem addHlRr (p : Reg16) : Statement (Instr.addHlRr p) := by
  cases p <;> exact ⟨_, _, rfl, .inl rfl⟩

theorem incRr (p : Reg16) : Statement (Instr.incRr p) := by
  cases p <;> exact ⟨_, _, rfl, .inl rfl⟩

theorem decRr (p : Reg16) : Statement (Instr.decRr p) := by
  cases p <;> exact ⟨_, _, rfl, .inl rfl⟩

theorem addSpE (e : Byte) : Statement (Instr.addSpE e) := ⟨_, _, rfl, .inl rfl⟩

theorem rlca : Statement (Instr.rlca) := ⟨_, _, rfl, .inl rfl⟩

theorem rrca : Statement (Instr.rrca) := ⟨_, _, rfl, .inl rfl⟩

theorem rla : Statement (Instr.rla) := ⟨_, _, rfl, .inl rfl⟩

theorem rra : Statement (Instr.rra) := ⟨_, _, rfl, .inl rfl⟩

theorem rlcR (r : Reg8) : Statement (Instr.rlcR r) := by
  cases r <;> exact ⟨_, _, rfl, .inl rfl⟩

theorem rlcHl : Statement (Instr.rlcHl) := ⟨_, _, rfl, .inl rfl⟩

theorem rrcR (r : Reg8) : Statement (Instr.rrcR r) := by
  cases r <;> exact ⟨_, _, rfl, .inl rfl⟩

theorem rrcHl : Statement (Instr.rrcHl) := ⟨_, _, rfl, .inl rfl⟩

theorem rlR (r : Reg8) : Statement (Instr.rlR r) := by
  cases r <;> exact ⟨_, _, rfl, .inl rfl⟩

theorem rlHl : Statement (Instr.rlHl) := ⟨_, _, rfl, .inl rfl⟩

theorem rrR (r : Reg8) : Statement (Instr.rrR r) := by
  cases r <;> exact ⟨_, _, rfl, .inl rfl⟩

theorem rrHl : Statement (Instr.rrHl) := ⟨_, _, rfl, .inl rfl⟩

theorem slaR (r : Reg8) : Statement (Instr.slaR r) := by
  cases r <;> exact ⟨_, _, rfl, .inl rfl⟩

theorem slaHl : Statement (Instr.slaHl) := ⟨_, _, rfl, .inl rfl⟩

theorem sraR (r : Reg8) : Statement (Instr.sraR r) := by
  cases r <;> exact ⟨_, _, rfl, .inl rfl⟩

theorem sraHl : Statement (Instr.sraHl) := ⟨_, _, rfl, .inl rfl⟩

theorem swapR (r : Reg8) : Statement (Instr.swapR r) := by
  cases r <;> exact ⟨_, _, rfl, .inl rfl⟩

theorem swapHl : Statement (Instr.swapHl) := ⟨_, _, rfl, .inl rfl⟩

theorem srlR (r : Reg8) : Statement (Instr.srlR r) := by
  cases r <;> exact ⟨_, _, rfl, .inl rfl⟩

theorem srlHl : Statement (Instr.srlHl) := ⟨_, _, rfl, .inl rfl⟩

theorem bitR (b : BitVec 3) (r : Reg8) : Statement (Instr.bitR b r) := by
  cases r <;> exact ⟨_, _, rfl, .inl rfl⟩

theorem bitHl (b : BitVec 3) : Statement (Instr.bitHl b) := ⟨_, _, rfl, .inl rfl⟩

theorem resR (b : BitVec 3) (r : Reg8) : Statement (Instr.resR b r) := by
  cases r <;> exact ⟨_, _, rfl, .inl rfl⟩

theorem resHl (b : BitVec 3) : Statement (Instr.resHl b) := ⟨_, _, rfl, .inl rfl⟩

theorem setR (b : BitVec 3) (r : Reg8) : Statement (Instr.setR b r) := by
  cases r <;> exact ⟨_, _, rfl, .inl rfl⟩

theorem setHl (b : BitVec 3) : Statement (Instr.setHl b) := ⟨_, _, rfl, .inl rfl⟩

theorem jpNn (nn : Word) : Statement (Instr.jpNn nn) := ⟨_, _, rfl, .inl rfl⟩

theorem jpCcNn (cc : Cond) (nn : Word) : Statement (Instr.jpCcNn cc nn) := by
  cases cc <;> exact ⟨_, _, rfl, .inl rfl⟩

theorem jpHl : Statement (Instr.jpHl) := ⟨_, _, rfl, .inl rfl⟩

theorem jrE (e : Byte) : Statement (Instr.jrE e) := ⟨_, _, rfl, .inl rfl⟩

theorem jrCcE (cc : Cond) (e : Byte) : Statement (Instr.jrCcE cc e) := by
  cases cc <;> exact ⟨_, _, rfl, .inl rfl⟩

theorem callNn (nn : Word) : Statement (Instr.callNn nn) := ⟨_, _, rfl, .inl rfl⟩

theorem callCcNn (cc : Cond) (nn : Word) : Statement (Instr.callCcNn cc nn) := by
  cases cc <;> exact ⟨_, _, rfl, .inl rfl⟩

theorem ret : Statement (Instr.ret) := ⟨_, _, rfl, .inl rfl⟩

theorem retCc (cc : Cond) : Statement (Instr.retCc cc) := by
  cases cc <;> exact ⟨_, _, rfl, .inl rfl⟩

theorem reti : Statement (Instr.reti) := ⟨_, _, rfl, .inl rfl⟩

theorem rst (t : BitVec 3) : Statement (Instr.rst t) := by
  refine ⟨_, _, rfl, .inl ?_⟩
  revert t
  decide

theorem nop : Statement (Instr.nop) := ⟨_, _, rfl, .inl rfl⟩

theorem halt : Statement (Instr.halt) := ⟨_, _, rfl, .inl rfl⟩

theorem stop (pad : Byte) : Statement (Instr.stop pad) := ⟨_, _, rfl, .inl rfl⟩

theorem di : Statement (Instr.di) := ⟨_, _, rfl, .inl rfl⟩

theorem ei : Statement (Instr.ei) := ⟨_, _, rfl, .inl rfl⟩

theorem prefixCb : Statement (Instr.prefixCb) := ⟨_, _, rfl, .inr rfl⟩

theorem illegalD3 : Statement (Instr.illegalD3) := ⟨_, _, rfl, .inl rfl⟩

theorem illegalDB : Statement (Instr.illegalDB) := ⟨_, _, rfl, .inl rfl⟩

theorem illegalDD : Statement (Instr.illegalDD) := ⟨_, _, rfl, .inl rfl⟩

theorem illegalE3 : Statement (Instr.illegalE3) := ⟨_, _, rfl, .inl rfl⟩

theorem illegalE4 : Statement (Instr.illegalE4) := ⟨_, _, rfl, .inl rfl⟩

theorem illegalEB : Statement (Instr.illegalEB) := ⟨_, _, rfl, .inl rfl⟩

theorem illegalEC : Statement (Instr.illegalEC) := ⟨_, _, rfl, .inl rfl⟩

theorem illegalED : Statement (Instr.illegalED) := ⟨_, _, rfl, .inl rfl⟩

theorem illegalF4 : Statement (Instr.illegalF4) := ⟨_, _, rfl, .inl rfl⟩

theorem illegalFC : Statement (Instr.illegalFC) := ⟨_, _, rfl, .inl rfl⟩

theorem illegalFD : Statement (Instr.illegalFD) := ⟨_, _, rfl, .inl rfl⟩

end Sys2Proof.Laws.EncodedWell
end

