-- ==== Sys2Proof/Laws/Render.lean ====
section
/-! SUPPORT. One law per picture helper: what it is over the bytes of VRAM and the palettes, in the terms of
the claims (60_exceptions.md R372, R373). -/

namespace Sys2Proof.Machine

theorem shade_eq_paletteShade (palette : Byte) (colour : BitVec 2) : shade palette colour = paletteShade palette colour.toNat := by
  have h : ∀ (p : Byte) (c : BitVec 2), (p >>> (2 * c.toNat)).extractLsb' 0 2 = BitVec.ofNat 2 (p.toNat / 4 ^ c.toNat % 4) := by
    decide +kernel
  exact h palette colour

/-- Two bit planes as a number. -/
theorem planes_toNat : ∀ (lo hi : Byte) (k : Fin 8), (BitVec.ofBool (bitOf hi k) ++ BitVec.ofBool (bitOf lo k)).toNat
    = 2 * (hi.toNat / 2 ^ k.val % 2) + lo.toNat / 2 ^ k.val % 2 := by
  have h : ∀ (b : Byte) (k : Nat), b.toNat / 2 ^ k % 2 = (bitOf b k).toNat := by
    intro b k
    simp only [bitOf, BitVec.getLsbD, Nat.testBit_eq_decide_div_mod_eq]
    have := Nat.mod_two_eq_zero_or_one (b.toNat / 2 ^ k)
    rcases this with h | h <;> simp [h]
  intro lo hi k
  rw [h, h]
  cases bitOf hi k <;> cases bitOf lo k <;> rfl

theorem tileRowColour_toNat (s : State) (tile r : Nat) {c : Nat} (hc : c < 8) :
    (tileRowColour s tile r c).toNat = planeColour s (tile + 2 * r) c :=
  planes_toNat _ _ ⟨7 - c, by omega⟩

theorem bgTileAddr_eq (s : State) (idx : Byte) : bgTileAddr s idx = tileAddress s idx := by
  have h := idx.isLt
  unfold bgTileAddr tileAddress lcdcBit bitOf
  cases s.ppu.lcdc.getLsbD 4 with
  | true => simp
  | false =>
    simp only [Bool.false_eq_true, if_false, false_or, BitVec.toInt_eq_toNat_cond]
    split <;> split <;> omega

theorem mapColour_toNat (s : State) (map px py : Nat) : (mapColour s map px py).toNat = mapPoint s map px py := by
  simp only [mapColour, bgTileAddr_eq]
  exact tileRowColour_toNat s _ _ (Nat.mod_lt _ (by decide))

theorem windowCovers_iff (s : State) (x ly : Nat) : windowCovers s x ly = true ↔
    s.ppu.lcdc.getLsbD 5 = true ∧ s.ppu.wy.toNat ≤ ly ∧ s.ppu.wx.toNat ≤ x + 7 := by
  simp [windowCovers, lcdcBit, bitOf, and_assoc]

/-- `RenderSprites` draws nothing with LCDC bit 1 clear (R375). -/
theorem renderSprites_off {s : State} (h : s.ppu.lcdc.getLsbD 1 = false) : renderSprites s = s := by
  simp only [renderSprites, lcdcBit, bitOf, h, Bool.false_eq_true, if_false]

end Sys2Proof.Machine
end

