-- ==== Sys2Proof/Laws/Step.lean ====
section
/-! SUPPORT. What one step can do, said once: fetch, CPU step, system step. -/

namespace Sys2Proof.Machine

/-- The instruction at `pc` is as long as the fetch says (30_encoding.md R139). -/
theorem encode_decodeBytes_length (b0 b1 b2 : Byte) : (encode (decodeBytes b0 b1 b2)).length = opLength b0 := by
  by_cases h : b0 = 0xCB
  · subst h
    have hx : ∀ op2 : Byte, (encode (decodeExt op2)).length = 2 := by decide +kernel
    exact hx b1
  · have hp : ∀ n, n < 256 → BitVec.ofNat 8 n ≠ 0xCB →
        (encode (decodePrimary (BitVec.ofNat 8 n) b1 b2)).length = opLength (BitVec.ofNat 8 n) := by
      intro n hn hne
      interval_cases n <;> first | rfl | exact absurd rfl hne
    have e0 : b0 = BitVec.ofNat 8 b0.toNat := by simp
    rw [decodeBytes, if_neg h, e0]
    exact hp _ b0.isLt (e0 ▸ h)

/-- Three bytes always decode, to the instruction the fetch runs. -/
theorem decode_three (b0 b1 b2 : Byte) : decode [b0, b1, b2] = .ok (decodeBytes b0 b1 b2, [b1, b2].drop (opLength b0 - 1)) := by
  have h : ∀ b : Byte, ¬ 3 < opLength b := by decide +kernel
  simp only [decode]
  rw [if_neg (by simp), if_neg (by simpa using h b0)]
  rfl

/-- `FetchExecute` always answers: the instruction's effect in the state after the fetch, with its count. -/
theorem fetchExecute_next (s : State) : ∃ t, exec (fetchInstr s) (afterFetch s) = .next t
    ∧ fetchExecute s = .next (t, cycles (fetchInstr s) (afterFetch s)) := by
  obtain ⟨l, c, h⟩ := exec_shape (fetchInstr s) (afterFetch s)
  exact ⟨_, h, by simp only [fetchExecute, h]⟩

/-- The three CPU steps (60_exceptions.md R328). -/
theorem cpuStep_cases (s : State) :
    (s.cpu.ime = true ∧ pending s ≠ 0 ∧ cpuStep s = .next (dispatch (lowestSet (pending s)) s, some 5))
    ∨ (¬(s.cpu.ime = true ∧ pending s ≠ 0) ∧ s.cpu.halted = true ∧ pending s = 0
        ∧ cpuStep s = .next (s, some s.cfg.haltIdleCost))
    ∨ (¬(s.cpu.ime = true ∧ pending s ≠ 0) ∧ (s.cpu.halted = true → pending s ≠ 0)
        ∧ cpuStep s = fetchExecute (s.setHalted false)) := by
  by_cases h1 : s.cpu.ime = true ∧ pending s ≠ 0
  · exact .inl ⟨h1.1, h1.2, by simp only [cpuStep, if_pos h1]⟩
  · by_cases h2 : s.cpu.halted = true
    · by_cases h3 : pending s = 0
      · exact .inr (.inl ⟨h1, h2, h3, by simp only [cpuStep, if_neg h1, if_pos h2, if_pos h3]⟩)
      · exact .inr (.inr ⟨h1, fun _ => h3, by simp only [cpuStep, if_neg h1, if_pos h2, if_neg h3]⟩)
    · have h4 : s.setHalted false = s := by
        have : s.cpu.halted = false := by simpa using h2
        unfold State.setHalted State.withCpu
        rw [← this]
      exact .inr (.inr ⟨h1, fun h => absurd h h2, by simp only [cpuStep, if_neg h1, if_neg h2, h4]⟩)

/-- A step that answers a next state is the devices' part after one CPU step. -/
theorem step_cases {s t : State} (h : step s = .next t) :
    s.cpu.fault = none ∧ ∃ u m, cpuStep (hostPhase s) = .next (u, m) ∧ t = advanceDevices m u := by
  unfold step at h
  cases hf : s.cpu.fault with
  | some x => simp [hf] at h
  | none =>
    simp only [hf, systemStep] at h
    cases hc : cpuStep (hostPhase s) with
    | next r =>
      obtain ⟨u, m⟩ := r
      simp only [hc] at h
      injection h with h
      exact ⟨rfl, u, m, rfl, h.symm⟩
    | fault r => simp [hc] at h
    | refused r => simp [hc] at h

end Sys2Proof.Machine
end

