-- ==== Sys2Proof/Tests/Slice0.lean ====
section
/-! SUPPORT. Tests of the model and the witnesses of the statements' hypotheses. Words are written out from
the `encoding` lines of spec/opcode_table.json; expected results are the vectors of spec/95_test_vectors.md. -/

namespace Sys2Proof.Tests

open Sys2Proof Sys2Proof.Machine

/-! ## Well-formedness -/

/-- `POP AF` is a row of its own (R195): the term `popRr .af` is refused, the other pairs are not. -/
theorem test_wf_refuses_popRr_af :
    (Instr.popRr .af).wf = false ∧ (Instr.popRr .bc).wf = true ∧ (Instr.popRr .hl).wf = true := by
  decide

/-! ## Decoding, one word for each constructor -/

/-- The bytes are exactly the instruction `i`. -/
def reads (bs : List Byte) (i : Instr) : Bool :=
  match decode bs with
  | .ok (j, rest) => j == i && rest == []
  | .error _ => false

theorem test_decode_cpu_control :
    reads [0b00000000] .nop
    ∧ reads [0b01110110] .halt
    ∧ reads [0b00010000, 0b11110011] (.stop 0xF3)
    ∧ reads [0b11110011] .di
    ∧ reads [0b11111011] .ei
    ∧ reads [0b11001011] .prefixCb
    ∧ reads [0b11010011] .illegalD3
    ∧ reads [0b11011011] .illegalDB
    ∧ reads [0b11011101] .illegalDD
    ∧ reads [0b11100011] .illegalE3
    ∧ reads [0b11100100] .illegalE4
    ∧ reads [0b11101011] .illegalEB
    ∧ reads [0b11101100] .illegalEC
    ∧ reads [0b11101101] .illegalED
    ∧ reads [0b11110100] .illegalF4
    ∧ reads [0b11111100] .illegalFC
    ∧ reads [0b11111101] .illegalFD := by
  decide

theorem test_decode_load8 :
    reads [0b01001010] (.ldRR .c .d)
    ∧ reads [0b00011110, 0b11110011] (.ldRN .e 0xF3)
    ∧ reads [0b01100110] (.ldRHl .h)
    ∧ reads [0b01110101] (.ldHlR .l)
    ∧ reads [0b00110110, 0b01000010] (.ldHlN 0x42)
    ∧ reads [0b00001010] .ldABc
    ∧ reads [0b00011010] .ldADe
    ∧ reads [0b00000010] .ldBcA
    ∧ reads [0b00010010] .ldDeA
    ∧ reads [0b11111010, 0b00110100, 0b11000001] (.ldANn 0xC134)
    ∧ reads [0b11101010, 0b00110100, 0b11000001] (.ldNnA 0xC134)
    ∧ reads [0b11110010] .ldhAC
    ∧ reads [0b11100010] .ldhCA
    ∧ reads [0b11110000, 0b11110011] (.ldhAN 0xF3)
    ∧ reads [0b11100000, 0b00000001] (.ldhNA 0x01)
    ∧ reads [0b00111010] .ldAHld
    ∧ reads [0b00110010] .ldHldA
    ∧ reads [0b00101010] .ldAHli
    ∧ reads [0b00100010] .ldHliA := by
  decide

theorem test_decode_load16 :
    reads [0b00100001, 0b00110100, 0b11000001] (.ldRrNn .hl 0xC134)
    ∧ reads [0b00001000, 0b00110100, 0b11000001] (.ldNnSp 0xC134)
    ∧ reads [0b11111001] .ldSpHl
    ∧ reads [0b11111000, 0b00000001] (.ldHlSpE 0x01)
    ∧ reads [0b11100101] (.pushRr .hl)
    ∧ reads [0b11000001] (.popRr .bc)
    ∧ reads [0b11110001] .popAf := by
  decide

theorem test_decode_alu8_1 :
    reads [0b10000111] (.addR .a)
    ∧ reads [0b10000110] .addHl
    ∧ reads [0b11000110, 0b01000010] (.addN 0x42)
    ∧ reads [0b10001000] (.adcR .b)
    ∧ reads [0b10001110] .adcHl
    ∧ reads [0b11001110, 0b10011100] (.adcN 0x9C)
    ∧ reads [0b10010001] (.subR .c)
    ∧ reads [0b10010110] .subHl
    ∧ reads [0b11010110, 0b00000001] (.subN 0x01)
    ∧ reads [0b10011010] (.sbcR .d)
    ∧ reads [0b10011110] .sbcHl
    ∧ reads [0b11011110, 0b11110011] (.sbcN 0xF3)
    ∧ reads [0b10100011] (.andR .e)
    ∧ reads [0b10100110] .andHl
    ∧ reads [0b11100110, 0b01000010] (.andN 0x42)
    ∧ reads [0b10101100] (.xorR .h)
    ∧ reads [0b10101110] .xorHl
    ∧ reads [0b11101110, 0b10011100] (.xorN 0x9C)
    ∧ reads [0b10110101] (.orR .l)
    ∧ reads [0b10110110] .orHl
    ∧ reads [0b11110110, 0b00000001] (.orN 0x01)
    ∧ reads [0b10111111] (.cpR .a)
    ∧ reads [0b10111110] .cpHl
    ∧ reads [0b11111110, 0b11110011] (.cpN 0xF3) := by
  decide

theorem test_decode_alu8_2 :
    reads [0b00000100] (.incR .b)
    ∧ reads [0b00110100] .incHl
    ∧ reads [0b00001101] (.decR .c)
    ∧ reads [0b00110101] .decHl
    ∧ reads [0b00100111] .daa
    ∧ reads [0b00101111] .cpl
    ∧ reads [0b00110111] .scf
    ∧ reads [0b00111111] .ccf := by
  decide

theorem test_decode_alu16 :
    reads [0b00001001] (.addHlRr .bc)
    ∧ reads [0b00100011] (.incRr .hl)
    ∧ reads [0b00111011] (.decRr .sp)
    ∧ reads [0b11101000, 0b11110011] (.addSpE 0xF3) := by
  decide

theorem test_decode_rotate_1 :
    reads [0b00000111] .rlca
    ∧ reads [0b00001111] .rrca
    ∧ reads [0b00010111] .rla
    ∧ reads [0b00011111] .rra
    ∧ reads [0b11001011, 0b00000010] (.rlcR .d)
    ∧ reads [0b11001011, 0b00000110] .rlcHl
    ∧ reads [0b11001011, 0b00001011] (.rrcR .e)
    ∧ reads [0b11001011, 0b00001110] .rrcHl
    ∧ reads [0b11001011, 0b00010100] (.rlR .h)
    ∧ reads [0b11001011, 0b00010110] .rlHl
    ∧ reads [0b11001011, 0b00011101] (.rrR .l)
    ∧ reads [0b11001011, 0b00011110] .rrHl
    ∧ reads [0b11001011, 0b00100111] (.slaR .a)
    ∧ reads [0b11001011, 0b00100110] .slaHl
    ∧ reads [0b11001011, 0b00101000] (.sraR .b)
    ∧ reads [0b11001011, 0b00101110] .sraHl
    ∧ reads [0b11001011, 0b00110001] (.swapR .c)
    ∧ reads [0b11001011, 0b00110110] .swapHl
    ∧ reads [0b11001011, 0b00111010] (.srlR .d)
    ∧ reads [0b11001011, 0b00111110] .srlHl
    ∧ reads [0b11001011, 0b01100011] (.bitR 4 .e)
    ∧ reads [0b11001011, 0b01101110] (.bitHl 5)
    ∧ reads [0b11001011, 0b10110100] (.resR 6 .h)
    ∧ reads [0b11001011, 0b10001110] (.resHl 1) := by
  decide

theorem test_decode_rotate_2 :
    reads [0b11001011, 0b11010101] (.setR 2 .l)
    ∧ reads [0b11001011, 0b11011110] (.setHl 3) := by
  decide

theorem test_decode_control :
    reads [0b11000011, 0b00110100, 0b11000001] (.jpNn 0xC134)
    ∧ reads [0b11011010, 0b00110100, 0b11000001] (.jpCcNn .c 0xC134)
    ∧ reads [0b11101001] .jpHl
    ∧ reads [0b00011000, 0b10011100] (.jrE 0x9C)
    ∧ reads [0b00101000, 0b01000010] (.jrCcE .z 0x42)
    ∧ reads [0b11001101, 0b00110100, 0b11000001] (.callNn 0xC134)
    ∧ reads [0b11000100, 0b00110100, 0b11000001] (.callCcNn .nz 0xC134)
    ∧ reads [0b11001001] .ret
    ∧ reads [0b11001000] (.retCc .z)
    ∧ reads [0b11011001] .reti
    ∧ reads [0b11101111] (.rst 5) := by
  decide

/-- Lists that end too early are refused by name; 0xCB alone is the prefix row. -/
theorem test_decode_refuses :
    decode [] = .error .noBytes ∧ decode [0x3E] = .error (.truncated 0x3E) ∧ decode [0xC3, 0x50] = .error (.truncated 0xC3)
    ∧ decode [0x00, 0x01] = .ok (.nop, [0x01]) :=
  ⟨rfl, rfl, rfl, rfl⟩

/-- The host's reading of a word: the first byte in the low bits, operand bytes zero where the table gives
none. -/
theorem test_decode_table_word :
    decodeTableWord 8 0xC3 = some (.jpNn 0x0000) ∧ decodeTableWord 24 0xC134EA = some (.ldNnA 0xC134)
    ∧ decodeTableWord 16 0x7FCB = some (.bitR 7 .a) ∧ decodeTableWord 8 0xCB = some .prefixCb := by
  decide

/-! ## One CPU step (R328), against the vectors of spec/95_test_vectors.md -/

/-- The CPU of the vectors' BASE state. -/
def base : Cpu where
  a := 0
  f := 0
  b := 0
  c := 0
  d := 0
  e := 0
  h := 0
  l := 0
  sp := 0xFFFE
  pc := 0x0100
  ime := false
  eiPending := false
  halted := false
  fault := none

/-- A machine with the given CPU, bytes of code at `pc` in ROM, and bytes written to memory. -/
def machine (c : Cpu) (code : List Byte) (mem : List (Word × Byte)) : State :=
  mem.foldl (fun t e => busWrite e.1 e.2 t)
    { State.reset with cpu := c, cfg := { cart := { rom := imageCells c.pc.toNat code } } }

/-- One CPU step ends with the CPU `c'`, the bytes `mem'` and `m` machine cycles. -/
def vector (code : List Byte) (c : Cpu) (mem : List (Word × Byte)) (c' : Cpu) (mem' : List (Word × Byte)) (m : Option Nat) :
    Bool :=
  match cpuStep (machine c code mem) with
  | .next (t, k) => t.cpu == c' && mem'.all (fun e => busRead t e.1 == e.2) && k == m
  | _ => false

/-- V1 to V12. -/
theorem test_vectors_V1_to_V12 :
    vector [0x41] { base with c := 0x5A } []
        { base with c := 0x5A, b := 0x5A, pc := 0x0101 } [] (some 1)
    ∧ vector [0x7E] { base with h := 0xC0, l := 0x10 } [(0xC010, 0x99)]
        { base with h := 0xC0, l := 0x10, a := 0x99, pc := 0x0101 } [] (some 2)
    ∧ vector [0x73] { base with h := 0xC0, l := 0x10, e := 0x42 } []
        { base with h := 0xC0, l := 0x10, e := 0x42, pc := 0x0101 } [(0xC010, 0x42)] (some 2)
    ∧ vector [0x16, 0x7F] base []
        { base with d := 0x7F, pc := 0x0102 } [] (some 2)
    ∧ vector [0x36, 0xAB] { base with h := 0xC0, l := 0x00 } []
        { base with h := 0xC0, l := 0x00, pc := 0x0102 } [(0xC000, 0xAB)] (some 3)
    ∧ vector [0x0A] { base with b := 0xC1, c := 0x23 } [(0xC123, 0x5C)]
        { base with b := 0xC1, c := 0x23, a := 0x5C, pc := 0x0101 } [] (some 2)
    ∧ vector [0x1A] { base with d := 0xC1, e := 0x24 } [(0xC124, 0x5D)]
        { base with d := 0xC1, e := 0x24, a := 0x5D, pc := 0x0101 } [] (some 2)
    ∧ vector [0x02] { base with a := 0x11, b := 0xC2, c := 0x00 } []
        { base with a := 0x11, b := 0xC2, c := 0x00, pc := 0x0101 } [(0xC200, 0x11)] (some 2)
    ∧ vector [0x12] { base with a := 0x12, d := 0xC2, e := 0x01 } []
        { base with a := 0x12, d := 0xC2, e := 0x01, pc := 0x0101 } [(0xC201, 0x12)] (some 2)
    ∧ vector [0xFA, 0x34, 0xC2] base [(0xC234, 0x77)]
        { base with a := 0x77, pc := 0x0103 } [] (some 4)
    ∧ vector [0xEA, 0x00, 0xC3] { base with a := 0x88 } []
        { base with a := 0x88, pc := 0x0103 } [(0xC300, 0x88)] (some 4)
    ∧ vector [0xF0, 0x80] base [(0xFF80, 0x3C)]
        { base with a := 0x3C, pc := 0x0102 } [] (some 3) := by
  decide

/-- V13 to V20. -/
theorem test_vectors_V13_to_V20 :
    vector [0xE0, 0x81] { base with a := 0x3D } []
        { base with a := 0x3D, pc := 0x0102 } [(0xFF81, 0x3D)] (some 3)
    ∧ vector [0xF2] { base with c := 0x82 } [(0xFF82, 0x3E)]
        { base with c := 0x82, a := 0x3E, pc := 0x0101 } [] (some 2)
    ∧ vector [0xE2] { base with a := 0x3F, c := 0x83 } []
        { base with a := 0x3F, c := 0x83, pc := 0x0101 } [(0xFF83, 0x3F)] (some 2)
    ∧ vector [0x22] { base with a := 0x56, h := 0xC0, l := 0xFF } []
        { base with a := 0x56, h := 0xC1, l := 0x00, pc := 0x0101 } [(0xC0FF, 0x56)] (some 2)
    ∧ vector [0x2A] { base with h := 0xFF, l := 0xFF } [(0xFFFF, 0x15)]
        { base with h := 0x00, l := 0x00, a := 0x15, pc := 0x0101 } [] (some 2)
    ∧ vector [0x32] { base with a := 0x57, h := 0xC0, l := 0x00 } []
        { base with a := 0x57, h := 0xBF, l := 0xFF, pc := 0x0101 } [(0xC000, 0x57)] (some 2)
    ∧ vector [0x3A] { base with h := 0xC1, l := 0x00 } [(0xC100, 0x58)]
        { base with h := 0xC0, l := 0xFF, a := 0x58, pc := 0x0101 } [] (some 2)
    ∧ vector [0x77] { base with a := 0x9C, h := 0xE0, l := 0x05 } []
        { base with a := 0x9C, h := 0xE0, l := 0x05, pc := 0x0101 } [(0xC005, 0x9C)] (some 2) := by
  decide

/-- V21 to V32. -/
theorem test_vectors_V21_to_V32 :
    vector [0x01, 0x34, 0x12] base []
        { base with b := 0x12, c := 0x34, pc := 0x0103 } [] (some 3)
    ∧ vector [0x31, 0xFF, 0xDF] base []
        { base with sp := 0xDFFF, pc := 0x0103 } [] (some 3)
    ∧ vector [0x08, 0x00, 0xC1] { base with sp := 0xFFF8 } []
        { base with sp := 0xFFF8, pc := 0x0103 } [(0xC100, 0xF8), (0xC101, 0xFF)] (some 5)
    ∧ vector [0xF9] { base with h := 0xD1, l := 0x23 } []
        { base with h := 0xD1, l := 0x23, sp := 0xD123, pc := 0x0101 } [] (some 2)
    ∧ vector [0xF8, 0x02] { base with sp := 0xFFF8, f := 0xF0 } []
        { base with sp := 0xFFF8, f := 0x00, h := 0xFF, l := 0xFA, pc := 0x0102 } [] (some 3)
    ∧ vector [0xF8, 0xFE] { base with sp := 0xFFFE } []
        { base with sp := 0xFFFE, f := 0x30, h := 0xFF, l := 0xFC, pc := 0x0102 } [] (some 3)
    ∧ vector [0xF8, 0xFF] { base with sp := 0x0000 } []
        { base with sp := 0x0000, h := 0xFF, l := 0xFF, pc := 0x0102 } [] (some 3)
    ∧ vector [0xC5] { base with b := 0x12, c := 0x34, sp := 0xD000 } []
        { base with b := 0x12, c := 0x34, sp := 0xCFFE, pc := 0x0101 } [(0xCFFE, 0x34), (0xCFFF, 0x12)] (some 4)
    ∧ vector [0xF5] { base with a := 0x9A, f := 0x50, sp := 0xD000 } []
        { base with a := 0x9A, f := 0x50, sp := 0xCFFE, pc := 0x0101 } [(0xCFFE, 0x50), (0xCFFF, 0x9A)] (some 4)
    ∧ vector [0xD1] { base with sp := 0xCFFE } [(0xCFFE, 0x34), (0xCFFF, 0x12)]
        { base with sp := 0xD000, d := 0x12, e := 0x34, pc := 0x0101 } [] (some 3)
    ∧ vector [0xF1] { base with sp := 0xCFFE } [(0xCFFE, 0xFF), (0xCFFF, 0x12)]
        { base with sp := 0xD000, a := 0x12, f := 0xF0, pc := 0x0101 } [] (some 3)
    ∧ vector [0xE5] { base with h := 0xAB, l := 0xCD, sp := 0x0001 } []
        { base with h := 0xAB, l := 0xCD, sp := 0xFFFF, pc := 0x0101 } [(0xFFFF, 0xCD)] (some 4) := by
  decide

/-- V33 to V44. -/
theorem test_vectors_V33_to_V44 :
    vector [0x80] { base with a := 0x3A, b := 0xC6 } []
        { base with a := 0x00, b := 0xC6, f := 0xB0, pc := 0x0101 } [] (some 1)
    ∧ vector [0x80] { base with a := 0x0F, b := 0x01 } []
        { base with a := 0x10, b := 0x01, f := 0x20, pc := 0x0101 } [] (some 1)
    ∧ vector [0x80] { base with a := 0xF0, b := 0x10 } []
        { base with a := 0x00, b := 0x10, f := 0x90, pc := 0x0101 } [] (some 1)
    ∧ vector [0x87] { base with a := 0x80 } []
        { base with a := 0x00, f := 0x90, pc := 0x0101 } [] (some 1)
    ∧ vector [0x86] { base with a := 0x3C, h := 0xC0, l := 0x00 } [(0xC000, 0x12)]
        { base with a := 0x4E, h := 0xC0, l := 0x00, pc := 0x0101 } [] (some 2)
    ∧ vector [0xC6, 0xFF] { base with a := 0x3C } []
        { base with a := 0x3B, f := 0x30, pc := 0x0102 } [] (some 2)
    ∧ vector [0x8B] { base with a := 0xE1, e := 0x0F, f := 0x10 } []
        { base with a := 0xF1, e := 0x0F, f := 0x20, pc := 0x0101 } [] (some 1)
    ∧ vector [0x88] { base with a := 0xFF, b := 0xFF, f := 0x10 } []
        { base with a := 0xFF, b := 0xFF, f := 0x30, pc := 0x0101 } [] (some 1)
    ∧ vector [0x88] { base with a := 0x00, b := 0xFF, f := 0x10 } []
        { base with a := 0x00, b := 0xFF, f := 0xB0, pc := 0x0101 } [] (some 1)
    ∧ vector [0xCE, 0x3B] { base with a := 0xE1, f := 0x10 } []
        { base with a := 0x1D, f := 0x10, pc := 0x0102 } [] (some 2)
    ∧ vector [0x8E] { base with a := 0xE1, h := 0xC0, l := 0x00, f := 0x10 } [(0xC000, 0x1E)]
        { base with a := 0x00, h := 0xC0, l := 0x00, f := 0xB0, pc := 0x0101 } [] (some 2)
    ∧ vector [0x93] { base with a := 0x3E, e := 0x3E } []
        { base with a := 0x00, e := 0x3E, f := 0xC0, pc := 0x0101 } [] (some 1) := by
  decide

/-- V45 to V56. -/
theorem test_vectors_V45_to_V56 :
    vector [0xD6, 0x0F] { base with a := 0x3E } []
        { base with a := 0x2F, f := 0x60, pc := 0x0102 } [] (some 2)
    ∧ vector [0x96] { base with a := 0x3E, h := 0xC0, l := 0x00 } [(0xC000, 0x40)]
        { base with a := 0xFE, h := 0xC0, l := 0x00, f := 0x50, pc := 0x0101 } [] (some 2)
    ∧ vector [0xD6, 0x01] { base with a := 0x10 } []
        { base with a := 0x0F, f := 0x60, pc := 0x0102 } [] (some 2)
    ∧ vector [0x9C] { base with a := 0x3B, h := 0x2A, f := 0x10 } []
        { base with a := 0x10, h := 0x2A, f := 0x40, pc := 0x0101 } [] (some 1)
    ∧ vector [0xDE, 0x3A] { base with a := 0x3B, f := 0x10 } []
        { base with a := 0x00, f := 0xC0, pc := 0x0102 } [] (some 2)
    ∧ vector [0x9E] { base with a := 0x3B, h := 0xC0, l := 0x00, f := 0x10 } [(0xC000, 0x4F)]
        { base with a := 0xEB, h := 0xC0, l := 0x00, f := 0x70, pc := 0x0101 } [] (some 2)
    ∧ vector [0xDE, 0x0F] { base with a := 0x10, f := 0x10 } []
        { base with a := 0x00, f := 0xE0, pc := 0x0102 } [] (some 2)
    ∧ vector [0xDE, 0xFF] { base with a := 0x00, f := 0x10 } []
        { base with a := 0x00, f := 0xF0, pc := 0x0102 } [] (some 2)
    ∧ vector [0x9F] { base with a := 0x22, f := 0x10 } []
        { base with a := 0xFF, f := 0x70, pc := 0x0101 } [] (some 1)
    ∧ vector [0xA5] { base with a := 0x5A, l := 0x3F, f := 0xD0 } []
        { base with a := 0x1A, l := 0x3F, f := 0x20, pc := 0x0101 } [] (some 1)
    ∧ vector [0xE6, 0x00] { base with a := 0x5A } []
        { base with a := 0x00, f := 0xA0, pc := 0x0102 } [] (some 2)
    ∧ vector [0xAF] { base with a := 0x5A, f := 0x70 } []
        { base with a := 0x00, f := 0x80, pc := 0x0101 } [] (some 1) := by
  decide

/-- V57 to V68. -/
theorem test_vectors_V57_to_V68 :
    vector [0xAE] { base with a := 0xFF, h := 0xC0, l := 0x00 } [(0xC000, 0x8A)]
        { base with a := 0x75, h := 0xC0, l := 0x00, pc := 0x0101 } [] (some 2)
    ∧ vector [0xF6, 0x03] { base with a := 0x5A, f := 0xF0 } []
        { base with a := 0x5B, f := 0x00, pc := 0x0102 } [] (some 2)
    ∧ vector [0xB0] { base with a := 0x00, b := 0x00 } []
        { base with a := 0x00, b := 0x00, f := 0x80, pc := 0x0101 } [] (some 1)
    ∧ vector [0xB8] { base with a := 0x3C, b := 0x2F } []
        { base with a := 0x3C, b := 0x2F, f := 0x60, pc := 0x0101 } [] (some 1)
    ∧ vector [0xFE, 0x3C] { base with a := 0x3C } []
        { base with a := 0x3C, f := 0xC0, pc := 0x0102 } [] (some 2)
    ∧ vector [0xBE] { base with a := 0x3C, h := 0xC0, l := 0x00 } [(0xC000, 0x40)]
        { base with a := 0x3C, h := 0xC0, l := 0x00, f := 0x50, pc := 0x0101 } [] (some 2)
    ∧ vector [0x3C] { base with a := 0xFF, f := 0x10 } []
        { base with a := 0x00, f := 0xB0, pc := 0x0101 } [] (some 1)
    ∧ vector [0x04] { base with b := 0x0F, f := 0xC0 } []
        { base with b := 0x10, f := 0x20, pc := 0x0101 } [] (some 1)
    ∧ vector [0x34] { base with h := 0xC0, l := 0x00 } [(0xC000, 0x50)]
        { base with h := 0xC0, l := 0x00, pc := 0x0101 } [(0xC000, 0x51)] (some 3)
    ∧ vector [0x05] { base with b := 0x01, f := 0x10 } []
        { base with b := 0x00, f := 0xD0, pc := 0x0101 } [] (some 1)
    ∧ vector [0x2D] { base with l := 0x00 } []
        { base with l := 0xFF, f := 0x60, pc := 0x0101 } [] (some 1)
    ∧ vector [0x35] { base with h := 0xC0, l := 0x00 } [(0xC000, 0x10)]
        { base with h := 0xC0, l := 0x00, f := 0x60, pc := 0x0101 } [(0xC000, 0x0F)] (some 3) := by
  decide

/-- V69 to V77. -/
theorem test_vectors_V69_to_V77 :
    vector [0x27] { base with a := 0x7D, f := 0x00 } []
        { base with a := 0x83, f := 0x00, pc := 0x0101 } [] (some 1)
    ∧ vector [0x27] { base with a := 0x9A, f := 0x00 } []
        { base with a := 0x00, f := 0x90, pc := 0x0101 } [] (some 1)
    ∧ vector [0x27] { base with a := 0x4B, f := 0x60 } []
        { base with a := 0x45, f := 0x40, pc := 0x0101 } [] (some 1)
    ∧ vector [0x27] { base with a := 0x00, f := 0x70 } []
        { base with a := 0x9A, f := 0x50, pc := 0x0101 } [] (some 1)
    ∧ vector [0x27] { base with a := 0x10, f := 0x30 } []
        { base with a := 0x76, f := 0x10, pc := 0x0101 } [] (some 1)
    ∧ vector [0x2F] { base with a := 0x35, f := 0x90 } []
        { base with a := 0xCA, f := 0xF0, pc := 0x0101 } [] (some 1)
    ∧ vector [0x37] { base with f := 0xE0 } []
        { base with f := 0x90, pc := 0x0101 } [] (some 1)
    ∧ vector [0x3F] { base with f := 0xF0 } []
        { base with f := 0x80, pc := 0x0101 } [] (some 1)
    ∧ vector [0x3F] { base with f := 0x00 } []
        { base with f := 0x10, pc := 0x0101 } [] (some 1) := by
  decide

/-- V78 to V88. -/
theorem test_vectors_V78_to_V88 :
    vector [0x09] { base with h := 0x8A, l := 0x23, b := 0x06, c := 0x05, f := 0x80 } []
        { base with h := 0x90, l := 0x28, b := 0x06, c := 0x05, f := 0xA0, pc := 0x0101 } [] (some 2)
    ∧ vector [0x29] { base with h := 0x8A, l := 0x23 } []
        { base with h := 0x14, l := 0x46, f := 0x30, pc := 0x0101 } [] (some 2)
    ∧ vector [0x39] { base with h := 0x00, l := 0x01, sp := 0xFFFF, f := 0x40 } []
        { base with h := 0x00, l := 0x00, sp := 0xFFFF, f := 0x30, pc := 0x0101 } [] (some 2)
    ∧ vector [0x19] { base with h := 0x0F, l := 0xFF, d := 0x00, e := 0x01 } []
        { base with h := 0x10, l := 0x00, d := 0x00, e := 0x01, f := 0x20, pc := 0x0101 } [] (some 2)
    ∧ vector [0x13] { base with d := 0xFF, e := 0xFF, f := 0xF0 } []
        { base with d := 0x00, e := 0x00, f := 0xF0, pc := 0x0101 } [] (some 2)
    ∧ vector [0x0B] { base with f := 0x00 } []
        { base with f := 0x00, b := 0xFF, c := 0xFF, pc := 0x0101 } [] (some 2)
    ∧ vector [0x33] { base with sp := 0xFFFF } []
        { base with sp := 0x0000, pc := 0x0101 } [] (some 2)
    ∧ vector [0xE8, 0x02] { base with sp := 0xFFF8, f := 0xF0 } []
        { base with sp := 0xFFFA, f := 0x00, pc := 0x0102 } [] (some 4)
    ∧ vector [0xE8, 0xFE] { base with sp := 0xFFFE } []
        { base with sp := 0xFFFC, f := 0x30, pc := 0x0102 } [] (some 4)
    ∧ vector [0xE8, 0xFF] { base with sp := 0x0000 } []
        { base with sp := 0xFFFF, pc := 0x0102 } [] (some 4)
    ∧ vector [0xE8, 0x01] { base with sp := 0x00FF } []
        { base with sp := 0x0100, f := 0x30, pc := 0x0102 } [] (some 4) := by
  decide

/-- V89 to V100. -/
theorem test_vectors_V89_to_V100 :
    vector [0x07] { base with a := 0x85, f := 0xE0 } []
        { base with a := 0x0B, f := 0x10, pc := 0x0101 } [] (some 1)
    ∧ vector [0x07] { base with a := 0x00, f := 0x00 } []
        { base with a := 0x00, f := 0x00, pc := 0x0101 } [] (some 1)
    ∧ vector [0x0F] { base with a := 0x3B } []
        { base with a := 0x9D, f := 0x10, pc := 0x0101 } [] (some 1)
    ∧ vector [0x17] { base with a := 0x95, f := 0x10 } []
        { base with a := 0x2B, f := 0x10, pc := 0x0101 } [] (some 1)
    ∧ vector [0x1F] { base with a := 0x81, f := 0x00 } []
        { base with a := 0x40, f := 0x10, pc := 0x0101 } [] (some 1)
    ∧ vector [0xCB, 0x00] { base with b := 0x85 } []
        { base with b := 0x0B, f := 0x10, pc := 0x0102 } [] (some 2)
    ∧ vector [0xCB, 0x06] { base with h := 0xC0, l := 0x00 } [(0xC000, 0x00)]
        { base with h := 0xC0, l := 0x00, f := 0x80, pc := 0x0102 } [] (some 4)
    ∧ vector [0xCB, 0x09] { base with c := 0x01 } []
        { base with c := 0x80, f := 0x10, pc := 0x0102 } [] (some 2)
    ∧ vector [0xCB, 0x15] { base with l := 0x80 } []
        { base with l := 0x00, f := 0x90, pc := 0x0102 } [] (some 2)
    ∧ vector [0xCB, 0x1F] { base with a := 0x01 } []
        { base with a := 0x00, f := 0x90, pc := 0x0102 } [] (some 2)
    ∧ vector [0xCB, 0x1E] { base with h := 0xC0, l := 0x00, f := 0x10 } [(0xC000, 0x8A)]
        { base with h := 0xC0, l := 0x00, f := 0x00, pc := 0x0102 } [(0xC000, 0xC5)] (some 4)
    ∧ vector [0xCB, 0x22] { base with d := 0x80 } []
        { base with d := 0x00, f := 0x90, pc := 0x0102 } [] (some 2) := by
  decide

/-- V101 to V112. -/
theorem test_vectors_V101_to_V112 :
    vector [0xCB, 0x26] { base with h := 0xC0, l := 0x00 } [(0xC000, 0xFF)]
        { base with h := 0xC0, l := 0x00, f := 0x10, pc := 0x0102 } [(0xC000, 0xFE)] (some 4)
    ∧ vector [0xCB, 0x2F] { base with a := 0x8A } []
        { base with a := 0xC5, pc := 0x0102 } [] (some 2)
    ∧ vector [0xCB, 0x2E] { base with h := 0xC0, l := 0x00 } [(0xC000, 0x01)]
        { base with h := 0xC0, l := 0x00, f := 0x90, pc := 0x0102 } [(0xC000, 0x00)] (some 4)
    ∧ vector [0xCB, 0x37] { base with a := 0xF1, f := 0xF0 } []
        { base with a := 0x1F, f := 0x00, pc := 0x0102 } [] (some 2)
    ∧ vector [0xCB, 0x36] { base with h := 0xC0, l := 0x00 } [(0xC000, 0x00)]
        { base with h := 0xC0, l := 0x00, f := 0x80, pc := 0x0102 } [] (some 4)
    ∧ vector [0xCB, 0x3F] { base with a := 0x01 } []
        { base with a := 0x00, f := 0x90, pc := 0x0102 } [] (some 2)
    ∧ vector [0xCB, 0x3E] { base with h := 0xC0, l := 0x00 } [(0xC000, 0xFF)]
        { base with h := 0xC0, l := 0x00, f := 0x10, pc := 0x0102 } [(0xC000, 0x7F)] (some 4)
    ∧ vector [0xCB, 0x7F] { base with a := 0x80, f := 0x10 } []
        { base with a := 0x80, f := 0x30, pc := 0x0102 } [] (some 2)
    ∧ vector [0xCB, 0x65] { base with l := 0xEF, f := 0x40 } []
        { base with l := 0xEF, f := 0xA0, pc := 0x0102 } [] (some 2)
    ∧ vector [0xCB, 0x46] { base with h := 0xC0, l := 0x00 } [(0xC000, 0xFE)]
        { base with h := 0xC0, l := 0x00, f := 0xA0, pc := 0x0102 } [] (some 3)
    ∧ vector [0xCB, 0xBF] { base with a := 0x80, f := 0xF0 } []
        { base with a := 0x00, f := 0xF0, pc := 0x0102 } [] (some 2)
    ∧ vector [0xCB, 0x9E] { base with h := 0xC0, l := 0x00 } [(0xC000, 0xFF)]
        { base with h := 0xC0, l := 0x00, pc := 0x0102 } [(0xC000, 0xF7)] (some 4) := by
  decide

/-- V113 to V114. -/
theorem test_vectors_V113_to_V114 :
    vector [0xCB, 0xDF] { base with a := 0x80 } []
        { base with a := 0x88, pc := 0x0102 } [] (some 2)
    ∧ vector [0xCB, 0xFE] { base with h := 0xC0, l := 0x00 } [(0xC000, 0x00)]
        { base with h := 0xC0, l := 0x00, pc := 0x0102 } [(0xC000, 0x80)] (some 4) := by
  decide

/-- V115 to V126. -/
theorem test_vectors_V115_to_V126 :
    vector [0xC3, 0x50, 0x01] base []
        { base with pc := 0x0150 } [] (some 4)
    ∧ vector [0xCA, 0x00, 0x02] { base with f := 0x80 } []
        { base with f := 0x80, pc := 0x0200 } [] (some 4)
    ∧ vector [0xCA, 0x00, 0x02] { base with f := 0x00 } []
        { base with f := 0x00, pc := 0x0103 } [] (some 3)
    ∧ vector [0xDA, 0x00, 0x02] { base with f := 0x10 } []
        { base with f := 0x10, pc := 0x0200 } [] (some 4)
    ∧ vector [0xE9] { base with h := 0x80, l := 0x00 } []
        { base with h := 0x80, l := 0x00, pc := 0x8000 } [] (some 1)
    ∧ vector [0x18, 0x05] base []
        { base with pc := 0x0107 } [] (some 3)
    ∧ vector [0x18, 0xFB] base []
        { base with pc := 0x00FD } [] (some 3)
    ∧ vector [0x18, 0xFE] base []
        { base with pc := 0x0100 } [] (some 3)
    ∧ vector [0x20, 0xFC] { base with f := 0x00 } []
        { base with f := 0x00, pc := 0x00FE } [] (some 3)
    ∧ vector [0x20, 0xFC] { base with f := 0x80 } []
        { base with f := 0x80, pc := 0x0102 } [] (some 2)
    ∧ vector [0x30, 0x10] { base with f := 0x10 } []
        { base with f := 0x10, pc := 0x0102 } [] (some 2)
    ∧ vector [0xCD, 0x34, 0x12] base []
        { base with sp := 0xFFFC, pc := 0x1234 } [(0xFFFC, 0x03), (0xFFFD, 0x01)] (some 6) := by
  decide

/-- V127 to V134. -/
theorem test_vectors_V127_to_V134 :
    vector [0xD4, 0x00, 0x20] { base with sp := 0xD000, f := 0x00 } []
        { base with sp := 0xCFFE, f := 0x00, pc := 0x2000 } [(0xCFFE, 0x03), (0xCFFF, 0x01)] (some 6)
    ∧ vector [0xD4, 0x00, 0x20] { base with sp := 0xD000, f := 0x10 } []
        { base with sp := 0xD000, f := 0x10, pc := 0x0103 } [] (some 3)
    ∧ vector [0xEF] base []
        { base with sp := 0xFFFC, pc := 0x0028 } [(0xFFFC, 0x01), (0xFFFD, 0x01)] (some 4)
    ∧ vector [0xFF] { base with sp := 0xD000 } []
        { base with sp := 0xCFFE, pc := 0x0038 } [(0xCFFE, 0x01), (0xCFFF, 0x01)] (some 4)
    ∧ vector [0xC9] { base with sp := 0xCFFC } [(0xCFFC, 0x03), (0xCFFD, 0x01)]
        { base with sp := 0xCFFE, pc := 0x0103 } [] (some 4)
    ∧ vector [0xC8] { base with sp := 0xCFFC, f := 0x80 } [(0xCFFC, 0x03), (0xCFFD, 0x02)]
        { base with sp := 0xCFFE, f := 0x80, pc := 0x0203 } [] (some 5)
    ∧ vector [0xC8] { base with sp := 0xCFFC, f := 0x00 } [(0xCFFC, 0x03), (0xCFFD, 0x02)]
        { base with sp := 0xCFFC, f := 0x00, pc := 0x0101 } [] (some 2)
    ∧ vector [0xD9] { base with sp := 0xCFFC } [(0xCFFC, 0x50), (0xCFFD, 0x01)]
        { base with sp := 0xCFFE, ime := true, pc := 0x0150 } [] (some 4) := by
  decide

/-- V135 to V143. -/
theorem test_vectors_V135_to_V143 :
    vector [0x00] { base with f := 0xF0 } []
        { base with f := 0xF0, pc := 0x0101 } [] (some 1)
    ∧ vector [0x76] base []
        { base with halted := true, pc := 0x0101 } [] (some 1)
    ∧ vector [0x10, 0x76] base []
        { base with pc := 0x0102 } [] (some 1)
    ∧ vector [0xF3] { base with ime := true } []
        { base with ime := false, pc := 0x0101 } [] (some 1)
    ∧ vector [0xFB] base []
        { base with eiPending := true, pc := 0x0101 } [] (some 1)
    ∧ vector [0x00] { base with eiPending := true } []
        { base with eiPending := false, ime := true, pc := 0x0101 } [] (some 1)
    ∧ vector [0xF3] { base with eiPending := true } []
        { base with eiPending := false, pc := 0x0101 } [] (some 1)
    ∧ vector [0xDD] base []
        { base with fault := some ⟨0xDD, 0x0100⟩, pc := 0x0100 } [] none
    ∧ vector [0xFC] { base with eiPending := true } []
        { base with eiPending := false, fault := some ⟨0xFC, 0x0100⟩, ime := true, pc := 0x0100 } [] none := by
  decide

/-! ## Interrupts, Timer, PPU, mapper, joypad and bus, against the vectors of the same file -/

/-- Vectors I1 and I8: dispatch of the lowest pending interrupt, and out of halt. -/
theorem test_dispatch :
    (match cpuStep { machine { base with ime := true, pc := 0x1234, sp := 0xD000 } [] [] with irq := ⟨0x1F, 0b10100⟩ } with
      | .next (t, k) => t.cpu == { base with pc := 0x0050, sp := 0xCFFE } && t.irq.iflag == 0b10000
          && busRead t 0xCFFE == 0x34 && busRead t 0xCFFF == 0x12 && k == some 5
      | _ => false) = true
    ∧ (match cpuStep { machine { base with ime := true, halted := true, pc := 0x0151 } [] [] with irq := ⟨0x04, 0b00100⟩ } with
      | .next (t, k) => t.cpu == { base with pc := 0x0050, sp := 0xFFFC } && t.irq.iflag == 0 && busRead t 0xFFFC == 0x51
          && k == some 5
      | _ => false) = true := by
  decide

/-- Vectors I6 and I7: an idle step, and leaving halt with IME clear. -/
theorem test_halt :
    (match cpuStep { machine { base with halted := true, pc := 0x0101 } [0x04] [] with irq := ⟨0x04, 0⟩ } with
      | .next (t, k) => t.cpu == { base with halted := true, pc := 0x0101 } && k == some 1
      | _ => false) = true
    ∧ (match cpuStep { machine { base with halted := true, pc := 0x0101 } [0x04] [] with irq := ⟨0x04, 0b00100⟩ } with
      | .next (t, k) => t.cpu == { base with b := 0x01, pc := 0x0102 } && t.irq.iflag == 0b00100 && k == some 1
      | _ => false) = true := by
  decide

/-- A machine whose Timer has the given registers. -/
def timing (tima tma : Byte) (sub : Nat) : State :=
  { State.reset with timer := { State.reset.timer with tac := 0b101, tima := tima, tma := tma, timaSub := sub } }

/-- Vectors T4, T5 and T6. -/
theorem test_timer :
    (timerRun 24 (timing 0xFF 0xFE 8)).timer.tima = 0xFF ∧ (timerRun 24 (timing 0xFF 0xFE 8)).irq.iflag = 0b00100
    ∧ (timerRun 24 (timing 0xFE 0xFF 15)).timer.tima = 0xFF ∧ (timerRun 24 (timing 0xFE 0xFF 15)).timer.timaSub = 7
    ∧ (timerRun 255 State.reset).timer.div = 0 ∧ (timerRun 1 (timerRun 255 State.reset)).timer.div = 1 := by
  decide

/-- Vectors U1 and U2: the modes of line 0, as STAT shows them. -/
theorem test_ppu_modes :
    busRead (ppuRun 76 State.reset) 0xFF41 = 0x86 ∧ busRead (ppuRun 80 State.reset) 0xFF41 = 0x87
    ∧ busRead (ppuRun 252 State.reset) 0xFF41 = 0x84 := by
  decide

/-- Vector G1's and G10's tiles and sprite. -/
def picture (lcdc : Byte) (mem : List (Word × Byte)) : State :=
  let s := machine base [] mem
  { s with ppu := { s.ppu with lcdc := lcdc, bgp := 0xE4, obp0 := 0xE4, obp1 := 0x1B } }

/-- Vector G1. -/
theorem test_scanline :
    (List.range 10).map (pixelAt (renderScanline 0 (picture 0x91 [(0x8010, 0x3C), (0x8011, 0x7E), (0x9800, 0x01)])) 0)
      = [0, 2, 3, 3, 3, 3, 2, 0, 0, 0] := by
  decide +kernel

/-- Vectors G10 and G11: a sprite, and the same flipped horizontally. -/
theorem test_sprite :
    (List.range 8).map (pixelAt (renderSprites (picture 0x93
      [(0x8020, 0xF0), (0x8021, 0xCC), (0xFE00, 0x10), (0xFE01, 0x08), (0xFE02, 0x02)])) 0) = [3, 3, 1, 1, 2, 2, 0, 0]
    ∧ (List.range 8).map (pixelAt (renderSprites (picture 0x93
      [(0x8020, 0xF0), (0x8021, 0xCC), (0xFE00, 0x10), (0xFE01, 0x08), (0xFE02, 0x02), (0xFE03, 0x20)])) 0)
        = [0, 0, 2, 2, 1, 1, 3, 3] := by
  decide +kernel

/-- A type-1 cartridge of 128 banks with 32 KiB of RAM. -/
def typeOne : Cartridge := { mapper := .type1, romBanks := 128, eramSize := 32768, romLen := 0x200000 }

/-- A machine with that cartridge. -/
def banked : State := { State.reset with cfg := { cart := typeOne } }

/-- Vectors K1 to K4 (R114) and K10, K11 (R113). -/
theorem test_mapper :
    [(0x00, 0x00), (0x01, 0x20), (0x02, 0x40), (0x03, 0x60)].map
      (fun e => romOffset (busWrite 0x2000 e.2 (busWrite 0x4000 e.1 banked)) 0x4010 / 0x4000) = [0x01, 0x21, 0x41, 0x61]
    ∧ busRead banked 0xA000 = 0xFF ∧ busRead (busWrite 0x0000 0x0A (busWrite 0xA000 0x11 banked)) 0xA000 = 0x00 := by
  decide

/-- Vectors J3 to J6. -/
theorem test_joypad :
    let a := hostAct (.setButton .a true) State.reset
    let b := hostAct (.setButton .down true) (hostAct (.setButton .right true) a)
    a.irq.iflag = 0b10000 ∧ busRead a 0xFF00 = 0xFF ∧ busRead (busWrite 0xFF00 0x10 a) 0xFF00 = 0xDE
      ∧ busRead (busWrite 0xFF00 0x20 a) 0xFF00 = 0xEF ∧ busRead (busWrite 0xFF00 0x20 b) 0xFF00 = 0xE6
      ∧ busRead (busWrite 0xFF00 0x00 b) 0xFF00 = 0xC6 := by
  decide

/-- Vectors B1, B4 (with two bytes) and B6. -/
theorem test_bus :
    busRead (busWrite 0xC005 0x77 State.reset) 0xE005 = 0x77
    ∧ busRead (busWrite 0xFF46 0xC1 (machine base [] [(0xC100, 0x5A), (0xC19F, 0xC5)])) 0xFE9F = 0xC5
    ∧ busRead (busWrite 0xFF70 0x00 (busWrite 0xD000 0x22 (busWrite 0xFF70 0x02 (busWrite 0xD000 0x11 State.reset)))) 0xD000
        = 0x11 := by
  decide +kernel

/-- Header bytes of an image (R101 to R105): accepted, and refused by name. -/
def header (mapper rom ram : Byte) : List Byte :=
  List.replicate 0x147 0 ++ [mapper, rom, ram] ++ List.replicate 6 0

theorem test_load :
    (match loadCartridge (header 0x03 0x06 0x03) with
      | .ok c => c.mapper == .type1 && c.romBanks == 128 && c.eramSize == 32768
      | .error _ => false) = true
    ∧ (match loadCartridge (header 0x05 0x00 0x00) with | .ok _ => false | .error e => e == .unsupportedMapper 0x05) = true
    ∧ (match loadCartridge (List.replicate 0x14F 0) with | .ok _ => false | .error e => e == .imageTooShort) = true := by
  decide +kernel

/-- The host's word runs as the first instruction after reset: `LD A,n`. -/
theorem test_with_fetch_word :
    (match step (State.reset.withFetchWord 16 0x423E) with
      | .next t => t.cpu.a == 0x42 && t.cpu.pc == 0x0102
      | _ => false) = true := by
  decide

/-! ## Witnesses: concrete states and operands that meet the hypotheses of each statement -/

/-- HL, sp and pc in work RAM, all registers different. -/
def inRam : State :=
  { State.reset with cpu := { base with a := 0x45, f := 0x10, b := 0x12, c := 0x80, d := 0xC2, e := 0x34, h := 0xC1, l := 0x00,
                                        sp := 0xD000, pc := 0xC800 } }

/-- The same machine with code at `pc`. -/
def running (code : List Byte) (c : Cpu) : State := machine c code []

theorem witness_DecodeInvertsEncode :
    (Instr.callCcNn .nc 0xC134).wf = true ∧ Instr.callCcNn .nc 0xC134 ≠ .prefixCb := by decide

theorem witness_EncodeInvertsDecode :
    decode [0b11001011, 0b10011110, 0x01] = .ok (.resHl 3, [0x01]) ∧ decode [0b11001011] = .ok (.prefixCb, []) := ⟨rfl, rfl⟩

theorem witness_ExtendedTableIsTotal :
    (0 : Nat) < 8 ∧ (7 : Nat) < 8 ∧ op8 (8 * 7 + r8Code .a) = 0x3F ∧ op8 (0xC0 + 8 * (7#3).toNat + 6) = 0xFE := by decide

theorem witness_PushAfPopAfRestores :
    inRam.inv = true ∧ (target inRam (inRam.cpu.sp - 1)).isRam = true ∧ (target inRam (inRam.cpu.sp - 2)).isRam = true
    ∧ target inRam (inRam.cpu.sp - 1) ≠ target inRam (inRam.cpu.sp - 2) := by decide

theorem witness_DaaIsDecimal :
    inRam.cpu.a.toNat % 16 < 10 ∧ inRam.cpu.a.toNat / 16 < 10 ∧ (0x99#8).toNat % 16 < 10 ∧ (0x99#8).toNat / 16 < 10 := by
  decide

theorem witness_UndefinedOpcodes :
    illegalOp .illegalED = some 0xED ∧ State.reset.cfg.illegalPolicy = .fault
    ∧ ({ State.reset with cfg := { illegalPolicy := .nop } } : State).cfg.illegalPolicy = .nop := by decide

theorem witness_FlagColumnsHold :
    (∃ t, exec (.incR .b) inRam = .next t) ∧ (∃ t, exec (.resR 7 .a) inRam = .next t)
    ∧ flagColumns (resolve inRam (.resR 7 .a)) = ⟨.keep, .keep, .keep, .keep⟩ := ⟨⟨_, rfl⟩, ⟨_, rfl⟩, rfl⟩

theorem witness_RegisterFrame :
    (∃ t, exec .ldAHli inRam = .next t) ∧ Reg8.b ∉ destRegs (resolve inRam .ldAHli) := ⟨⟨_, rfl⟩, by decide⟩

theorem witness_ControlCellFrame :
    (∃ t, exec .reti inRam = .next t) ∧ (∃ t, exec .illegalD3 inRam = .next t) := ⟨⟨_, rfl⟩, ⟨_, rfl⟩⟩

theorem stores_of_push : stores (resolve inRam (.pushRr .bc)) inRam = [(0xCFFF, 0x12), (0xCFFE, 0x80)] := by decide

theorem witness_MemoryFrame :
    inRam.inv = true ∧ (∃ t, exec (.pushRr .bc) inRam = .next t)
    ∧ (∀ w ∈ stores (resolve inRam (.pushRr .bc)) inRam, (target inRam w.1).isRam = true)
    ∧ (∀ w ∈ stores (resolve inRam (.pushRr .bc)) inRam, target inRam 0xD000 ≠ target inRam w.1)
    ∧ (stores (resolve inRam (.pushRr .bc)) inRam).getLast? = some (0xCFFE, 0x80) :=
  ⟨by decide, ⟨_, rfl⟩, by rw [stores_of_push]; simp; decide, by rw [stores_of_push]; simp; decide, by decide⟩

theorem witness_BusWriteFrame :
    State.reset.inv = true ∧ (target State.reset 0x8000).isRam = true ∧ (target State.reset 0xFFFE).isRam = true
    ∧ (target State.reset 0xFF45).isRam = false ∧ (0xFF46 : Word).toNat = 0xFF46 := by decide

theorem witness_EchoAndOpenBus :
    0xE000 ≤ (0xE000 : Word).toNat ∧ (0xFDFF : Word).toNat < 0xFE00
    ∧ 0xFEA0 ≤ (0xFEA0 : Word).toNat ∧ (0xFEFF : Word).toNat < 0xFF00
    ∧ 0xFF00 ≤ (0xFF01 : Word).toNat ∧ (0xFF7F : Word).toNat < 0xFF80
    ∧ (∀ n ∈ [(0xFF01 : Word).toNat, (0xFF7F : Word).toNat], n ∉ [0xFF00, 0xFF04, 0xFF05, 0xFF06, 0xFF07, 0xFF0F, 0xFF40,
        0xFF41, 0xFF42, 0xFF43, 0xFF44, 0xFF45, 0xFF46, 0xFF47, 0xFF48, 0xFF49, 0xFF4A, 0xFF4B, 0xFF70]) := by decide

theorem witness_OamDmaCopies :
    (machine base [] [(0xC100, 0x5A), (0xFE00, 0x77)]).inv = true ∧ (159 : Nat) < 160 ∧ (0xFE#8).toNat = 0xFE := by decide

theorem witness_RomReads :
    State.reset.cfg.cart.mapper = .none ∧ banked.cfg.cart.mapper = .type1
    ∧ (0x0000 : Word).toNat < 0x4000 ∧ (0x3FFF : Word).toNat < 0x4000 ∧ 0x4000 ≤ (0x4000 : Word).toNat
    ∧ (0x7FFF : Word).toNat < 0x8000 ∧ banked.mapper.bank1 ≠ 0 := by decide

theorem witness_MapperWrites :
    State.reset.cfg.cart.mapper = .none ∧ banked.cfg.cart.mapper = .type1 ∧ banked.mapper.mode = false
    ∧ (0x1FFF : Word).toNat < 0x2000 ∧ 0x2000 ≤ (0x2000 : Word).toNat ∧ (0x3FFF : Word).toNat < 0x4000
    ∧ 0x4000 ≤ (0x4000 : Word).toNat ∧ (0x5FFF : Word).toNat < 0x6000 ∧ 0x6000 ≤ (0x6000 : Word).toNat
    ∧ (0x7FFF : Word).toNat < 0x8000 ∧ (0x60#8).toNat % 32 = 0 := by decide

/-- Absent RAM, a disabled one, an enabled one and one that needs no enabling. -/
theorem witness_ExternalRam :
    0xA000 ≤ (0xA000 : Word).toNat ∧ (0xBFFF : Word).toNat < 0xC000 ∧ State.reset.cfg.cart.eramSize = 0
    ∧ (banked.cfg.cart.mapper = .type1 ∧ banked.mapper.ramEnable = false)
    ∧ ¬((busWrite 0x0000 0x0A banked).cfg.cart.eramSize = 0 ∨
        ((busWrite 0x0000 0x0A banked).cfg.cart.mapper = .type1 ∧ (busWrite 0x0000 0x0A banked).mapper.ramEnable = false))
    ∧ ¬(({ typeOne with mapper := .none } : Cartridge).eramSize = 0) := by decide

/-- A disabled Timer; an enabled one just before, at and past its reload. -/
theorem witness_TimerOverflow :
    State.reset.timer.tac.getLsbD 2 = false ∧ (timing 0xFF 0xAB 8).timer.tac.getLsbD 2 = true
    ∧ (timing 0xFF 0xAB 8).timer.timaSub + 7 < 16 * (256 - (timing 0xFF 0xAB 8).timer.tima.toNat)
    ∧ 16 * (256 - (timing 0xFF 0xAB 8).timer.tima.toNat) ≤ (timing 0xFF 0xAB 8).timer.timaSub + 8
    ∧ (timing 0xFF 0xAB 8).timer.timaSub + 23 < 16 * (257 - (timing 0xFF 0xAB 8).timer.tima.toNat) := by decide

/-- A PPU switched off. -/
theorem witness_PpuAdditive : (busWrite 0xFF40 0x11 State.reset).ppu.lcdc.getLsbD 7 = false := by decide

/-- The start of line 0 and of line 143. -/
theorem witness_PpuVisibleLine :
    ∀ ly ∈ [(0#8), (143#8)], (setLy ly State.reset).inv = true ∧ (setLy ly State.reset).ppu.lcdc.getLsbD 7 = true
      ∧ (setLy ly State.reset).ppu.mode = .oamScan ∧ (setLy ly State.reset).ppu.modeClock = 0
      ∧ (setLy ly State.reset).ppu.ly.toNat < 144 := by decide

theorem witness_PpuFrameLength :
    State.reset.ppu.lcdc.getLsbD 7 = true ∧ State.reset.ppu.mode = .oamScan ∧ State.reset.ppu.modeClock = 0
    ∧ State.reset.ppu.ly = 0 := by decide

/-- Background off, window, background, and the last row and column. -/
theorem witness_ScanlinePixels :
    (picture 0x91 []).inv = true ∧ (143 : Nat) < 144 ∧ (159 : Nat) < 160 ∧ (picture 0x90 []).ppu.lcdc.getLsbD 0 = false
    ∧ ((picture 0xB1 []).ppu.lcdc.getLsbD 5 = true ∧ (picture 0xB1 []).ppu.wy.toNat ≤ 143
      ∧ (picture 0xB1 []).ppu.wx.toNat ≤ 159 + 7)
    ∧ (picture 0x91 []).ppu.lcdc.getLsbD 5 = false := by decide

/-- Sprites off, a sprite's colour, a transparent point, a sprite behind the background. -/
theorem witness_SpritePixels :
    let s := picture 0x93 [(0x8020, 0xF0), (0x8021, 0xCC), (0xFE00, 0x10), (0xFE01, 0x08), (0xFE02, 0x02), (0xFE03, 0x80)]
    s.inv = true ∧ (picture 0x91 []).ppu.lcdc.getLsbD 1 = false ∧ s.ppu.lcdc.getLsbD 1 = true
    ∧ spriteColourAt s 0 0 0 = 3 ∧ spriteColourAt s 0 0 7 = 0 ∧ (oamByte s 0 3).getLsbD 7 = true := by decide

theorem witness_DevicesFrame : State.reset.irq.iflag.getLsbD 0 = false ∧ (inRam.irq.iflag ||| 1).getLsbD 0 = true := by decide

/-- An instruction behind an `EI`, and one out of halt. -/
theorem witness_StepRunsTheDecodedInstruction :
    let s := running [0xC3, 0x50, 0x01] { base with eiPending := true }
    let h := { running [0x04] { base with halted := true } with irq := ⟨0x04, 0b00100⟩ }
    (s.cpu.fault = none ∧ (hostPhase s).cpu.ime = false ∧ (hostPhase s).cpu.halted = false
      ∧ reads [busRead s 0x0100, busRead s 0x0101, busRead s 0x0102] (.jpNn 0x0150) = true)
    ∧ (h.cpu.fault = none ∧ (hostPhase h).cpu.ime = false ∧ pending (hostPhase h) ≠ 0) := by decide

theorem witness_StepDispatchesLowest :
    let s := { running [] { base with ime := true } with irq := ⟨0x1F, 0b10100⟩ }
    s.cpu.fault = none ∧ (hostPhase s).cpu.ime = true ∧ (2 : Nat) < 5 ∧ (hostPhase s).irq.ie.getLsbD 2 = true
    ∧ (hostPhase s).irq.iflag.getLsbD 2 = true
    ∧ ((List.range 2).all fun j => ((hostPhase s).irq.ie.getLsbD j && (hostPhase s).irq.iflag.getLsbD j) == false) = true := by
  decide

theorem witness_HaltIdlesAndWakes :
    let s := running [] { base with halted := true }
    let w := { s with irq := ⟨0x04, 0b00100⟩ }
    (s.cpu.fault = none ∧ s.cpu.halted = true ∧ pending (hostPhase s) = 0)
    ∧ (w.cpu.fault = none ∧ w.cpu.halted = true ∧ pending (hostPhase w) ≠ 0 ∧ w.cpu.ime = false) := by decide

theorem witness_UndefinedOpcodeStops :
    let s := running [0xDD] base
    s.cpu.fault = none ∧ s.hostInput = [] ∧ s.cfg.illegalPolicy = .fault ∧ s.cpu.halted = false ∧ s.cpu.ime = false
    ∧ busRead s s.cpu.pc ∈ undefinedOpcodes
    ∧ (running [] { base with fault := some ⟨0xFC, 0xC000⟩, halted := true }).cpu.fault = some ⟨0xFC, 0xC000⟩ := by decide

/-- `EI; NOP`, `EI; DI`, and both with an `EI` just before. -/
theorem witness_EiDelaysOneInstruction :
    ∀ b ∈ [(0x00 : Byte), 0xF3], ∀ e ∈ [false, true],
      let s := running [0xFB, b] { base with eiPending := e }
      s.cpu.fault = none ∧ s.hostInput = [] ∧ s.cpu.halted = false ∧ s.cpu.ime = false ∧ busRead s s.cpu.pc = 0xFB
        ∧ (match step s with
            | .next t => busRead t t.cpu.pc == b && t.cpu.ime == e && pending t == 0
            | _ => false) = true := by decide

theorem witness_StepKeepsConfiguration : ∃ t, step inRam = .next t := ⟨_, rfl⟩

/-- The image is accepted. -/
def accepted (image : List Byte) : Bool :=
  match loadCartridge image with
  | .ok _ => true
  | .error _ => false

theorem accepted_iff (image : List Byte) : accepted image = true ↔ ∃ c, loadCartridge image = .ok c := by
  unfold accepted
  cases loadCartridge image <;> simp

theorem not_accepted_iff (image : List Byte) : accepted image = false ↔ ∃ e, loadCartridge image = .error e := by
  unfold accepted
  cases loadCartridge image <;> simp

theorem witness_ResetValues :
    ∃ s, resetWithImage ResetRecord.default Ram.blank {} (header 0x03 0x06 0x03) = .ok s := by
  obtain ⟨c, hc⟩ := (accepted_iff (header 0x03 0x06 0x03)).1 (by decide +kernel)
  exact ⟨State.ofReset ResetRecord.default Ram.blank { cart := c }, by rw [resetWithImage, hc]⟩

/-- Both directions, at each boundary of the header codes. -/
theorem witness_LoadRefusals :
    accepted (header 0x09 0x08 0x05) = true ∧ accepted (header 0x0A 0x08 0x05) = false
    ∧ accepted (header 0x09 0x09 0x05) = false ∧ accepted (header 0x09 0x08 0x06) = false
    ∧ accepted (List.replicate 0x14F 0) = false := by decide +kernel

theorem witness_StepKeepsInvariant : inRam.inv = true ∧ ∃ t, step inRam = .next t := ⟨by decide, ⟨_, rfl⟩⟩

/-- Both ends of every range. -/
theorem witness_RamRegions :
    0x8000 ≤ (0x8000 : Word).toNat ∧ (0x9FFF : Word).toNat < 0xA000 ∧ 0xC000 ≤ (0xC000 : Word).toNat
    ∧ (0xCFFF : Word).toNat < 0xD000 ∧ 0xD000 ≤ (0xD000 : Word).toNat ∧ (0xDFFF : Word).toNat < 0xE000
    ∧ 0xFE00 ≤ (0xFE00 : Word).toNat ∧ (0xFE9F : Word).toNat < 0xFEA0 ∧ 0xFF80 ≤ (0xFF80 : Word).toNat
    ∧ (0xFFFE : Word).toNat < 0xFFFF := by decide

end Sys2Proof.Tests
end

/-! PROOFS. The configuration along one step (00_scope.md R7): one law per part of `step`, then the step. -/

namespace Sys2Proof.Machine

/-! ## The host's actions keep the configuration -/

@[simp] theorem hostAct_cfg (act : HostAction) (s : State) : (hostAct act s).cfg = s.cfg := by
  cases act with
  | setButton k p =>
    simp only [hostAct, setButton]
    split <;> rfl
  | clearFrameReady => rfl

theorem hostActs_cfg (acts : List HostAction) (s : State) :
    (acts.foldl (fun t act => hostAct act t) s).cfg = s.cfg := by
  induction acts generalizing s with
  | nil => rfl
  | cons act acts ih => exact (ih (hostAct act s)).trans (hostAct_cfg act s)

@[simp] theorem hostPhase_cfg (s : State) : (hostPhase s).cfg = s.cfg := by
  unfold hostPhase
  split
  · rfl
  · exact hostActs_cfg _ _

/-! ## The CPU step keeps the configuration -/

@[simp] theorem dispatch_cfg (i : Nat) (s : State) : (dispatch i s).cfg = s.cfg := by
  simp [dispatch_eq]

@[simp] theorem afterFetch_cfg (s : State) : (afterFetch s).cfg = s.cfg := State.withCpu_cfg s _

theorem fetchExecute_cfg {s t : State} {m : Option Nat} (h : fetchExecute s = .next (t, m)) : t.cfg = s.cfg := by
  obtain ⟨u, hexec, hfetch⟩ := fetchExecute_next s
  cases hfetch.symm.trans h
  obtain ⟨hcfg, -, -⟩ := exec_next hexec
  exact hcfg.trans (afterFetch_cfg s)

theorem cpuStep_cfg {s t : State} {m : Option Nat} (h : cpuStep s = .next (t, m)) : t.cfg = s.cfg := by
  obtain ⟨-, -, hdispatch⟩ | ⟨-, -, -, hidle⟩ | ⟨-, -, hfetch⟩ := cpuStep_cases s
  · cases hdispatch.symm.trans h
    exact dispatch_cfg _ s
  · cases hidle.symm.trans h
    rfl
  · exact (fetchExecute_cfg (hfetch.symm.trans h)).trans (State.setHalted_cfg s false)

/-! ## The devices keep the configuration -/

@[simp] theorem timaTicks_cfg (k : Nat) (s : State) : (timaTicks k s).cfg = s.cfg := by
  simp only [timaTicks_keeps k s]

@[simp] theorem timaRun_cfg (t : Nat) (s : State) : (timaRun t s).cfg = s.cfg := by
  unfold timaRun
  split
  · exact timaTicks_cfg _ _
  · rfl

@[simp] theorem timerRun_cfg (t : Nat) (s : State) : (timerRun t s).cfg = s.cfg :=
  (timaRun_cfg t _).trans (divRun_cfg s t)

@[simp] theorem ppuRun_cfg (t : Nat) (s : State) : (ppuRun t s).cfg = s.cfg := by
  obtain ⟨-, -, -, -, -, -, -, -, hcfg, -⟩ := ppuRun_frame t s
  exact hcfg

@[simp] theorem advanceDevices_cfg (m : Option Nat) (s : State) : (advanceDevices m s).cfg = s.cfg := by
  cases m with
  | none => rfl
  | some k => exact (ppuRun_cfg _ _).trans (timerRun_cfg _ s)

/-! ## The step -/

/-- Settles O55: each of the three parts of a step (the host's actions, the CPU step, the devices) keeps the
configuration. -/
theorem stepKeepsConfiguration : Obligations.StepKeepsConfiguration := by
  intro s t h
  obtain ⟨-, u, m, hcpu, rfl⟩ := step_cases h
  calc (advanceDevices m u).cfg
    _ = u.cfg := advanceDevices_cfg m u
    _ = (hostPhase s).cfg := cpuStep_cfg hcpu
    _ = s.cfg := hostPhase_cfg s

end Sys2Proof.Machine

/-! PROOFS. What an instruction can do to the CPU (10_state.md R20 to R29): its destinations, `sp` and the four
control cells, said once per update of the CPU and once per instruction. -/

namespace Sys2Proof.Machine

/-! ## Updates of the CPU -/

/-- What an instruction that writes no control cell may do to the CPU `c`, giving `d`: it writes 8-bit registers
of `dests` alone, leaves `sp` at the given value, and keeps F or clears its low nibble (R22). `pc` is free. -/
structure Cpu.Effect (dests : List Reg8) (sp : Word) (c d : Cpu) : Prop where
  regs      : ∀ r, r ∉ dests → d.reg8 r = c.reg8 r
  sp        : d.sp = sp
  ime       : d.ime = c.ime
  eiPending : d.eiPending = c.eiPending
  halted    : d.halted = c.halted
  fault     : d.fault = c.fault
  low       : d.f = c.f ∨ d.f &&& 0x0F = 0

namespace Cpu.Effect

variable {l : List Reg8} {w : Word} {c d : Cpu}

theorem refl (c : Cpu) : Effect [] c.sp c c where
  regs _ _ := rfl
  sp := rfl
  ime := rfl
  eiPending := rfl
  halted := rfl
  fault := rfl
  low := .inl rfl

theorem setReg8 (h : Effect l w c d) (r : Reg8) (v : Byte) : Effect (r :: l) w c (d.setReg8 r v) where
  regs q hq := by
    obtain ⟨hne, hl⟩ := not_or.1 (mt List.mem_cons.2 hq)
    exact (Cpu.reg8_setReg8_other d hne v).trans (h.regs q hl)
  sp := (Cpu.setReg8_sp d r v).trans h.sp
  ime := (Cpu.setReg8_ime d r v).trans h.ime
  eiPending := (Cpu.setReg8_eiPending d r v).trans h.eiPending
  halted := (Cpu.setReg8_halted d r v).trans h.halted
  fault := (Cpu.setReg8_fault d r v).trans h.fault
  low := by rw [Cpu.setReg8_f]; exact h.low

theorem setSp (h : Effect l w c d) (v : Word) : Effect l v c { d with sp := v } :=
  { h with sp := rfl }

theorem setPc (h : Effect l w c d) (v : Word) : Effect l w c { d with pc := v } :=
  { h with }

theorem setFlags (h : Effect l w c d) (fl : Flags) : Effect l w c (d.setFlags fl) :=
  { h with low := .inr (pack_low_nibble fl) }

theorem setF (h : Effect l w c d) (v : Byte) : Effect l w c (d.setF v) :=
  { h with low := .inr (by simp [Cpu.setF, BitVec.and_assoc]) }

theorem setAFlags (c : Cpu) (r : Byte × Flags) : Effect [.a] c.sp c (c.setAFlags r) :=
  ((refl c).setReg8 .a r.1).setFlags r.2

theorem setHl (h : Effect l w c d) (v : Word) : Effect (.h :: .l :: l) w c (d.setHl v) :=
  (h.setReg8 .l (loByte v)).setReg8 .h (hiByte v)

theorem setRegStk (h : Effect [] w c d) (p : Reg16Stk) (v : Word) : Effect (pairStkRegs p) w c (d.setRegStk p v) := by
  cases p with
  | bc => exact (h.setReg8 .c (loByte v)).setReg8 .b (hiByte v)
  | de => exact (h.setReg8 .e (loByte v)).setReg8 .d (hiByte v)
  | hl => exact h.setHl v
  | af => exact (h.setReg8 .a (hiByte v)).setF (loByte v)

theorem setReg16 (c : Cpu) (p : Reg16) (v : Word) : Effect (pairRegs p) (c.setReg16 p v).sp c (c.setReg16 p v) := by
  cases p with
  | bc => exact ((refl c).setReg8 .c (loByte v)).setReg8 .b (hiByte v)
  | de => exact ((refl c).setReg8 .e (loByte v)).setReg8 .d (hiByte v)
  | hl => exact (refl c).setHl v
  | sp => exact (refl c).setSp v

/-- Where `pc` stood before makes no difference. -/
theorem of_setPc {v : Word} (h : Effect l w { c with pc := v } d) : Effect l w c d :=
  { h with }

end Cpu.Effect

/-! ## The CPU after the shared operations -/

@[simp] theorem storeHl_cpu (v : Byte) (s : State) : (storeHl v s).cpu = s.cpu := busWrite_cpu _ v s

@[simp] theorem storeA_cpu (a : Word) (s : State) : (storeA a s).cpu = s.cpu := busWrite_cpu a _ s

@[simp] theorem memWrite16_cpu (a v : Word) (s : State) : (memWrite16 a v s).cpu = s.cpu := by simp [memWrite16]

@[simp] theorem push16_cpu (v : Word) (s : State) : (push16 v s).cpu = { s.cpu with sp := s.cpu.sp - 2 } := by
  simp [push16_eq]

@[simp] theorem callTo_cpu (dest : Word) (s : State) :
    (callTo dest s).cpu = { s.cpu with sp := s.cpu.sp - 2, pc := dest } := by
  simp [callTo]

theorem hlInc_cpu (s : State) : (hlInc s).cpu = s.cpu.setHl (s.cpu.hl + 1) := rfl

theorem hlDec_cpu (s : State) : (hlDec s).cpu = s.cpu.setHl (s.cpu.hl - 1) := rfl

/-! ## `destRegs` and `spAfter` of the rows over a pair or a condition -/

theorem spAfter_ldRrNn (p : Reg16) (nn : Word) (s : State) : spAfter (.ldRrNn p nn) s = (s.cpu.setReg16 p nn).sp := by
  cases p <;> rfl

theorem spAfter_incRr (p : Reg16) (s : State) :
    spAfter (.incRr p) s = (s.cpu.setReg16 p (s.cpu.reg16 p + 1)).sp := by
  cases p <;> rfl

theorem spAfter_decRr (p : Reg16) (s : State) :
    spAfter (.decRr p) s = (s.cpu.setReg16 p (s.cpu.reg16 p - 1)).sp := by
  cases p <;> rfl

theorem destRegs_popRr (p : Reg16Stk) (s : State) : destRegs (resolve s (.popRr p)) = pairStkRegs p := by
  cases p <;> rfl

theorem spAfter_popRr (p : Reg16Stk) (s : State) : spAfter (resolve s (.popRr p)) s = s.cpu.sp + 2 := by
  cases p <;> rfl

theorem spAfter_callCcNn (cc : Cond) (nn : Word) (s : State) :
    spAfter (.callCcNn cc nn) s = if condHolds cc s.cpu.flags then s.cpu.sp - 2 else s.cpu.sp := by
  rw [condHolds_eq_condTrue]
  rfl

theorem spAfter_retCc (cc : Cond) (s : State) :
    spAfter (.retCc cc) s = if condHolds cc s.cpu.flags then s.cpu.sp + 2 else s.cpu.sp := by
  rw [condHolds_eq_condTrue]
  rfl

/-! ## The undefined opcodes -/

theorem exec_illegal {i : Instr} {op : Byte} (h : illegalOp i = some op) (s : State) :
    exec i s = .next (raiseIllegal op s) := by
  cases i <;> cases h <;> rfl

theorem mem_undefinedOpcodes_of_illegalOp {i : Instr} {op : Byte} (h : illegalOp i = some op) :
    op ∈ undefinedOpcodes := by
  cases i <;> cases h <;> decide

theorem raiseIllegal_cpu (op : Byte) (s : State) : (raiseIllegal op s).cpu =
    if s.cfg.illegalPolicy = .fault then { s.cpu with pc := s.cpu.pc - 1, fault := some ⟨op, s.cpu.pc - 1⟩ }
    else s.cpu := by
  unfold raiseIllegal
  cases s.cfg.illegalPolicy <;> rfl

theorem spAfter_illegal {i : Instr} {op : Byte} (h : illegalOp i = some op) (s : State) :
    spAfter (resolve s i) s = s.cpu.sp := by
  cases i <;> cases h <;> rfl

/-! ## The instruction after a 0xCB byte (30_encoding.md R136) -/

/-- By the fields of `op2`: both tables split on `x`, on whether `z` names a register, and at `x = 0` on `y`. -/
theorem exec_decodeExt (op2 : Byte) (s : State) : exec (decodeExt op2) s = execExtended op2 s := by
  unfold decodeExt execExtended
  dsimp only
  generalize opX op2 = x, reg8OfCode (opZ op2) = r, opY op2 = y
  obtain _ | _ | _ | x := x
  case zero => cases r <;> obtain _ | _ | _ | _ | _ | _ | _ | y := y <;> rfl
  all_goals cases r <;> rfl

/-- No rule for `sp` reads `pc`. -/
theorem spAfter_setPc (i : Instr) (s : State) (v : Word) : spAfter i (s.setPc v) = spAfter i s := rfl

/-! ## Every instruction -/

/-- The instructions that write a control cell, the undefined opcodes apart. -/
def WritesControl (i : Instr) : Prop := i = .di ∨ i = .ei ∨ i = .halt ∨ i = .reti

theorem not_writesControl_iff (i : Instr) : ¬WritesControl i ↔ i ≠ .di ∧ i ≠ .ei ∧ i ≠ .halt ∧ i ≠ .reti := by
  simp only [WritesControl, not_or, ne_eq]

/-- The instructions that write no control cell, but for the bare 0xCB byte, which runs another instruction. -/
def isPlain : Instr → Bool
  | .di | .ei | .halt | .reti | .prefixCb => false
  | i => (illegalOp i).isNone

theorem isPlain_iff (i : Instr) : isPlain i = true ↔ ¬WritesControl i ∧ i ≠ .prefixCb ∧ illegalOp i = none := by
  cases i <;> simp [isPlain, WritesControl, illegalOp]

theorem not_writesControl_of_illegalOp {i : Instr} {op : Byte} (h : illegalOp i = some op) : ¬WritesControl i := by
  rintro (rfl | rfl | rfl | rfl) <;> cases h

theorem decodeExt_plain (op2 : Byte) (s : State) :
    isPlain (decodeExt op2) = true ∧ resolve s (decodeExt op2) = decodeExt op2 := by
  unfold decodeExt
  dsimp only
  split
  · split <;> exact ⟨rfl, rfl⟩
  · split <;> exact ⟨rfl, rfl⟩
  all_goals exact ⟨rfl, rfl⟩

/-- A plain instruction writes its destinations, `sp` as `spAfter` says, and no control cell. -/
theorem exec_effect_of_plain {i : Instr} (hi : isPlain i = true) {s t : State} (h : exec i s = .next t) :
    Cpu.Effect (destRegs (resolve s i)) (spAfter (resolve s i) s) s.cpu t.cpu := by
  cases i with
  | di | ei | halt | reti | prefixCb | illegalD3 | illegalDB | illegalDD | illegalE3 | illegalE4 | illegalEB
  | illegalEC | illegalED | illegalF4 | illegalFC | illegalFD => cases hi
  | nop | stop pad => cases h; exact .refl _
  | ldRR | ldRN | ldRHl | resR | setR => cases h; exact Cpu.Effect.setReg8 (.refl _) _ _
  | ldABc | ldADe | ldANn | ldhAC | ldhAN => cases h; exact Cpu.Effect.setReg8 (.refl _) .a _
  | incR | decR | rlcR | rrcR | rlR | rrR | slaR | sraR | swapR | srlR =>
    cases h; exact Cpu.Effect.setFlags (.setReg8 (.refl _) _ _) _
  | addR | addHl | addN | adcR | adcHl | adcN | subR | subHl | subN | sbcR | sbcHl | sbcN | andR | andHl | andN
  | xorR | xorHl | xorN | orR | orHl | orN | daa | cpl | rlca | rrca | rla | rra =>
    cases h; exact Cpu.Effect.setAFlags _ _
  | cpR | cpHl | cpN | scf | ccf | bitR | bitHl | incHl | decHl | rlcHl | rrcHl | rlHl | rrHl | slaHl | sraHl
  | swapHl | srlHl => cases h; exact Cpu.Effect.setFlags (.refl _) _
  | ldHlR | ldHlN | resHl | setHl => cases h; rw [storeHl_cpu]; exact .refl _
  | ldBcA | ldDeA | ldNnA | ldhCA | ldhNA => cases h; rw [storeA_cpu]; exact .refl _
  | ldNnSp => cases h; rw [memWrite16_cpu]; exact .refl _
  | ldAHld | ldAHli => cases h; exact Cpu.Effect.setReg8 (.setHl (.refl _) _) .a _
  | ldHldA => cases h; rw [hlDec_cpu, storeA_cpu]; exact Cpu.Effect.setHl (.refl _) _
  | ldHliA => cases h; rw [hlInc_cpu, storeA_cpu]; exact Cpu.Effect.setHl (.refl _) _
  | ldHlSpE | addHlRr => cases h; exact Cpu.Effect.setFlags (.setHl (.refl _) _) _
  | ldRrNn p nn => cases h; exact spAfter_ldRrNn p nn s ▸ Cpu.Effect.setReg16 _ p _
  | incRr p => cases h; exact spAfter_incRr p s ▸ Cpu.Effect.setReg16 _ p _
  | decRr p => cases h; exact spAfter_decRr p s ▸ Cpu.Effect.setReg16 _ p _
  | ldSpHl => cases h; exact Cpu.Effect.setSp (.refl _) _
  | addSpE => cases h; exact Cpu.Effect.setFlags (.setSp (.refl _) _) _
  | pushRr => cases h; rw [push16_cpu]; exact Cpu.Effect.setSp (.refl _) _
  | popRr p =>
    cases h
    rw [destRegs_popRr, spAfter_popRr]
    exact Cpu.Effect.setRegStk (.setSp (.refl _) _) p _
  | popAf => cases h; exact Cpu.Effect.setRegStk (.setSp (.refl _) _) .af _
  | jpNn | jpHl | jrE => cases h; exact Cpu.Effect.setPc (.refl _) _
  | callNn | rst => cases h; rw [callTo_cpu]; exact Cpu.Effect.setPc (.setSp (.refl _) _) _
  | ret => cases h; exact Cpu.Effect.setPc (.setSp (.refl _) _) _
  | jpCcNn cc | jrCcE cc =>
    cases h
    split
    · exact Cpu.Effect.setPc (.refl _) _
    · exact .refl _
  | callCcNn cc nn =>
    cases h
    refine spAfter_callCcNn cc nn s ▸ ?_
    split
    · rw [callTo_cpu]; exact Cpu.Effect.setPc (.setSp (.refl _) _) _
    · exact .refl _
  | retCc cc =>
    cases h
    refine spAfter_retCc cc s ▸ ?_
    split
    · exact Cpu.Effect.setPc (.setSp (.refl _) _) _
    · exact .refl _

theorem exec_prefixCb_effect {s t : State} (h : exec .prefixCb s = .next t) :
    Cpu.Effect (destRegs (resolve s .prefixCb)) (spAfter (resolve s .prefixCb) s) s.cpu t.cpu := by
  obtain ⟨hplain, hresolve⟩ := decodeExt_plain (busRead s s.cpu.pc) (s.setPc (s.cpu.pc + 1))
  have heff := exec_effect_of_plain hplain ((exec_decodeExt _ _).trans h)
  rw [hresolve, spAfter_setPc] at heff
  exact heff.of_setPc

/-- What an instruction can do to the CPU: the effect of its row, with every control cell kept; one of the four
writes of IME, `ei_pending` and `halted`; or what an undefined opcode does. -/
theorem exec_cpu_cases {i : Instr} {s t : State} (h : exec i s = .next t) :
    (¬WritesControl i ∧ illegalOp i = none
        ∧ Cpu.Effect (destRegs (resolve s i)) (spAfter (resolve s i) s) s.cpu t.cpu)
    ∨ WritesControl i ∨ ∃ op, illegalOp i = some op ∧ t = raiseIllegal op s := by
  by_cases hp : i = .prefixCb
  · subst hp
    exact .inl ⟨by simp [WritesControl], rfl, exec_prefixCb_effect h⟩
  by_cases hc : WritesControl i
  · exact .inr (.inl hc)
  cases hop : illegalOp i with
  | none => exact .inl ⟨hc, rfl, exec_effect_of_plain ((isPlain_iff i).2 ⟨hc, hp, hop⟩) h⟩
  | some op =>
    cases (exec_illegal hop s).symm.trans h
    exact .inr (.inr ⟨op, rfl, rfl⟩)

end Sys2Proof.Machine

/-! PROOFS. The frames of the registers and of the control cells over all instructions (10_state.md R20 to R29). -/

namespace Sys2Proof.Machine

/-- Settles O29: a row's effect says which registers it writes and where `sp` goes; the rows that write control
cells, the undefined opcodes among them, write no 8-bit register. -/
theorem registerFrame : Obligations.RegisterFrame := by
  intro i s t h
  obtain ⟨-, -, heff⟩ | hcontrol | ⟨op, hop, rfl⟩ := exec_cpu_cases h
  · exact ⟨heff.regs, heff.sp⟩
  · rcases hcontrol with rfl | rfl | rfl | rfl <;> cases h <;> exact ⟨fun _ _ => rfl, rfl⟩
  · rw [spAfter_illegal hop, raiseIllegal_cpu]
    split <;> exact ⟨fun _ _ => rfl, rfl⟩

/-- Settles O30: a row's effect keeps the four control cells; what is left are `DI`, `EI`, `HALT`, `RETI` and the
undefined opcodes. -/
theorem controlCellFrame : Obligations.ControlCellFrame := by
  intro i s t h
  obtain ⟨hcfg, hinput, -⟩ := exec_next h
  obtain ⟨hcontrol, hlegal, heff⟩ | hcontrol | ⟨op, hop, rfl⟩ := exec_cpu_cases h
  · obtain ⟨hdi, hei, hhalt, hreti⟩ := (not_writesControl_iff i).1 hcontrol
    simp only [hdi, hei, hhalt, hreti, hlegal, if_false]
    exact ⟨heff.ime, heff.eiPending, heff.halted, heff.fault, hcfg, hinput⟩
  · rcases hcontrol with rfl | rfl | rfl | rfl <;> cases h <;> exact ⟨rfl, rfl, rfl, rfl, rfl, rfl⟩
  · obtain ⟨hdi, hei, hhalt, hreti⟩ := (not_writesControl_iff i).1 (not_writesControl_of_illegalOp hop)
    simp only [hdi, hei, hhalt, hreti, hop, if_false, raiseIllegal_cpu]
    refine ⟨?_, ?_, ?_, ?_, hcfg, hinput⟩ <;> split <;> rfl

end Sys2Proof.Machine

/-! PROOFS. The invariant along one step, part by part, and at reset. -/

namespace Sys2Proof.Machine

/-! ## The CPU's part -/

theorem Cpu.ok_iff (c : Cpu) : c.ok = true ↔
    c.f &&& 0x0F = 0 ∧ ∀ x, c.fault = some x → x.op ∈ undefinedOpcodes ∧ x.addr = c.pc := by
  cases hf : c.fault <;> simp [Cpu.ok, hf]

theorem Cpu.ok_of_fault_none {c : Cpu} (hlow : c.f &&& 0x0F = 0) (hf : c.fault = none) : c.ok = true :=
  (Cpu.ok_iff c).2 ⟨hlow, fun _ hx => nomatch hf.symm.trans hx⟩

theorem Cpu.Effect.ok {l : List Reg8} {w : Word} {c d : Cpu} (h : Cpu.Effect l w c d) (hlow : c.f &&& 0x0F = 0)
    (hf : c.fault = none) : d.ok = true :=
  Cpu.ok_of_fault_none (h.low.elim (fun he => he ▸ hlow) id) (h.fault.trans hf)

/-- From a CPU that has not stopped, every instruction keeps the CPU's part of the invariant. -/
theorem exec_cpuOk {i : Instr} {s t : State} (h : exec i s = .next t) (hlow : s.cpu.f &&& 0x0F = 0)
    (hf : s.cpu.fault = none) : t.cpu.ok = true := by
  obtain ⟨-, -, heff⟩ | hcontrol | ⟨op, hop, rfl⟩ := exec_cpu_cases h
  · exact heff.ok hlow hf
  · rcases hcontrol with rfl | rfl | rfl | rfl <;> cases h <;> exact Cpu.ok_of_fault_none hlow hf
  · rw [raiseIllegal_cpu]
    split
    · refine (Cpu.ok_iff _).2 ⟨hlow, fun x hx => ?_⟩
      cases hx
      exact ⟨mem_undefinedOpcodes_of_illegalOp hop, rfl⟩
    · exact Cpu.ok_of_fault_none hlow hf

/-! ## The three CPU steps -/

theorem fetchExecute_inv {s t : State} {m : Option Nat} (h : fetchExecute s = .next (t, m)) (hs : s.inv = true)
    (hf : s.cpu.fault = none) : t.inv = true := by
  obtain ⟨hcpu, hdev⟩ := (State.inv_iff s).1 hs
  obtain ⟨hlow, -⟩ := (Cpu.ok_iff _).1 hcpu
  obtain ⟨u, hexec, hfetch⟩ := fetchExecute_next s
  cases hfetch.symm.trans h
  obtain ⟨-, -, hkeep⟩ := exec_next hexec
  exact (State.inv_iff _).2 ⟨exec_cpuOk hexec hlow hf, hkeep hdev⟩

theorem dispatch_inv (i : Nat) {s : State} (hs : s.inv = true) (hf : s.cpu.fault = none) :
    (dispatch i s).inv = true := by
  obtain ⟨hcpu, hdev⟩ := (State.inv_iff s).1 hs
  obtain ⟨hlow, -⟩ := (Cpu.ok_iff _).1 hcpu
  rw [dispatch_eq]
  exact (State.inv_iff _).2 ⟨Cpu.ok_of_fault_none hlow hf, applyStores_devicesOk hdev _⟩

theorem setHalted_inv {s : State} (hs : s.inv = true) (v : Bool) : (s.setHalted v).inv = true := hs

theorem cpuStep_inv {s t : State} {m : Option Nat} (h : cpuStep s = .next (t, m)) (hs : s.inv = true)
    (hf : s.cpu.fault = none) : t.inv = true := by
  obtain ⟨-, -, hdispatch⟩ | ⟨-, -, -, hidle⟩ | ⟨-, -, hfetch⟩ := cpuStep_cases s
  · cases hdispatch.symm.trans h
    exact dispatch_inv _ hs hf
  · cases hidle.symm.trans h
    exact hs
  · exact fetchExecute_inv (hfetch.symm.trans h) (setHalted_inv hs false) hf

/-! ## The host's and the devices' parts -/

theorem hostPhase_inv {s : State} (hs : s.inv = true) : (hostPhase s).inv = true := by
  obtain ⟨hcpu, hdev⟩ := (State.inv_iff s).1 hs
  obtain ⟨hsame, hkeep⟩ := hostPhase_ok (s := s)
  exact (State.inv_iff _).2 ⟨hsame ▸ hcpu, hkeep hdev⟩

theorem timerRun_cpu (t : Nat) (s : State) : (timerRun t s).cpu = s.cpu := by
  unfold timerRun timaRun
  dsimp only
  split
  · simp only [timaTicks_keeps, divRun_cpu]
  · rfl

theorem advanceDevices_cpu (m : Option Nat) (s : State) : (advanceDevices m s).cpu = s.cpu := by
  cases m with
  | none => rfl
  | some k =>
    obtain ⟨hcpu, -⟩ := ppuRun_frame (s.cfg.tPerM * k) (timerRun (s.cfg.tPerM * k) s)
    exact hcpu.trans (timerRun_cpu _ s)

theorem advanceDevices_inv {s : State} (hs : s.inv = true) (m : Option Nat) : (advanceDevices m s).inv = true := by
  obtain ⟨hcpu, hdev⟩ := (State.inv_iff s).1 hs
  exact (State.inv_iff _).2 ⟨advanceDevices_cpu m s ▸ hcpu, advanceDevices_devicesOk hdev m⟩

/-! ## The step and the reset -/

/-- Settles O59: each of the three parts of a step keeps the invariant. -/
theorem stepKeepsInvariant : Obligations.StepKeepsInvariant := by
  intro s t hs h
  obtain ⟨hf, u, m, hcpu, rfl⟩ := step_cases h
  obtain ⟨hsame, -⟩ := hostPhase_ok (s := s)
  exact advanceDevices_inv (cpuStep_inv hcpu (hostPhase_inv hs) (hsame ▸ hf)) m

/-- Settles O58: the reset state is one closed term, and the invariant computes on it. -/
theorem resetMeetsInvariant : Obligations.ResetMeetsInvariant := by
  unfold Obligations.ResetMeetsInvariant
  decide

end Sys2Proof.Machine

/-! PROOFS. The OAM-DMA copy (20_memory.md R91): its source bytes, the copy of the first bytes, the whole. -/

namespace Sys2Proof.Machine

/-! ## The source bytes -/

/-- The address of source byte `i` of a copy started by `v`. -/
def dmaSource (v : Byte) (i : Nat) : Word := wordOf v 0 + BitVec.ofNat 16 i

theorem dmaSource_eq (v : Byte) (i : Nat) : dmaSource v i = BitVec.ofNat 16 (256 * v.toNat + i) := by
  have hpage : wordOf v 0 = BitVec.ofNat 16 (256 * v.toNat) := by
    apply BitVec.eq_of_toNat_eq
    have := v.isLt
    rw [wordOf, BitVec.toNat_append, BitVec.toNat_ofNat]
    simp [Nat.shiftLeft_eq]
    omega
  rw [dmaSource, hpage, BitVec.ofNat_add]

theorem dmaSource_toNat (v : Byte) {i : Nat} (hi : i < 160) : (dmaSource v i).toNat = 256 * v.toNat + i := by
  have := v.isLt
  rw [dmaSource_eq, BitVec.toNat_ofNat]
  omega

/-- The source byte that stands on OAM is the byte it is copied to (`v` is 0xFE then). -/
theorem oamIndex_of_dmaSource {s : State} {v : Byte} {i j : Nat} (hi : i < 160)
    (h : target s (dmaSource v i) = .oam j) : j = i := by
  obtain ⟨hlo, hhi, hj⟩ := target_oam h
  rw [dmaSource_toNat v hi] at hlo hhi hj
  omega

/-! ## The copy -/

/-- The copy of the first `n` bytes, as the OAM-DMA register's write makes it. -/
def dmaCopy (v : Byte) (n : Nat) (s : State) : State :=
  (List.range n).foldl (fun t i => oamStore i (busRead t (dmaSource v i)) t) s

theorem dmaCopy_succ (v : Byte) (n : Nat) (s : State) :
    dmaCopy v (n + 1) s = oamStore n (busRead (dmaCopy v n s) (dmaSource v n)) (dmaCopy v n s) := by
  simp only [dmaCopy, List.range_succ, List.foldl_append, List.foldl_cons, List.foldl_nil]

/-- The copy changes OAM alone. -/
theorem dmaCopy_frame (v : Byte) (n : Nat) (s : State) :
    dmaCopy v n s = { s with ram := { s.ram with oam := (dmaCopy v n s).ram.oam } } := by
  induction n with
  | zero => rfl
  | succ n ih =>
    rw [dmaCopy_succ, ih]
    rfl

theorem dmaCopy_oam_wf (v : Byte) (n : Nat) {s : State} (hs : s.ram.oam.wf = true) :
    (dmaCopy v n s).ram.oam.wf = true := by
  induction n with
  | zero => exact hs
  | succ n ih =>
    rw [dmaCopy_succ]
    exact Memory.wf_write ih _ _

/-- A read is the same after a change of OAM that keeps the OAM byte the address shows, if it shows one. -/
theorem busRead_withOam {s : State} {m : Memory} {a : Word}
    (h : ∀ j, target s a = .oam j → m.read j = s.ram.oam.read j) :
    busRead { s with ram := { s.ram with oam := m } } a = busRead s a := by
  unfold busRead
  change readTarget _ (target s a) = _
  cases ht : target s a with
  | oam j => exact h j ht
  | _ => rfl

/-- The OAM bytes after the copy of the first `n` bytes: those below `n` are what the bus read before the copy. -/
theorem dmaCopy_oam_read (v : Byte) {n : Nat} (hn : n ≤ 160) {s : State} (hs : s.ram.oam.wf = true) (j : Nat) :
    Memory.read (dmaCopy v n s).ram.oam j =
      if j < n then busRead s (dmaSource v j) else Memory.read s.ram.oam j := by
  induction n generalizing j with
  | zero => rfl
  | succ n ih =>
    have hwf := dmaCopy_oam_wf v n hs
    have hsrc : busRead (dmaCopy v n s) (dmaSource v n) = busRead s (dmaSource v n) := by
      rw [dmaCopy_frame]
      refine busRead_withOam fun k hk => ?_
      obtain rfl := oamIndex_of_dmaSource (by omega) hk
      rw [ih (by omega), if_neg (Nat.lt_irrefl _)]
    rw [dmaCopy_succ, hsrc, oamStore_ram]
    by_cases hj : j = n
    · subst hj
      rw [Memory.read_write_same hwf, if_pos (Nat.lt_succ_self _)]
    · rw [Memory.read_write_other hwf hj, ih (by omega)]
      exact if_congr (by omega) rfl rfl

theorem target_of_oam {s : State} {a : Word} (hlo : 0xFE00 ≤ a.toNat) (hhi : a.toNat < 0xFEA0) :
    target s a = .oam (a.toNat - 0xFE00) := by
  unfold target
  dsimp only
  rw [if_neg (by omega), if_neg (by omega), if_neg (by omega), if_neg (by omega), if_neg (by omega), if_pos hhi]

/-- From 0xFE00 on the bus reads OAM itself. -/
theorem busRead_dmaSource_oam (s : State) {v : Byte} (hv : v.toNat = 0xFE) {i : Nat} (hi : i < 160) :
    busRead s (dmaSource v i) = Memory.read s.ram.oam i := by
  have hn := dmaSource_toNat v hi
  have ht := target_of_oam (s := s) (a := dmaSource v i) (by omega) (by omega)
  rw [show (dmaSource v i).toNat - 0xFE00 = i by omega] at ht
  rw [busRead, ht]
  rfl

/-! ## The register -/

/-- A write to DMA sets the register, then copies 160 bytes (R44, R91). -/
theorem busWrite_FF46 (v : Byte) (s : State) : busWrite 0xFF46 v s = dmaCopy v 160 { s with dma := v } := rfl

theorem busRead_FF46 (s : State) : busRead s 0xFF46 = s.dma := rfl

/-- Settles O36: each byte is read before its own store and no store before it touches the source; from 0xFE00 the
source is OAM itself, so that canonical forms that read alike are the same memory. -/
theorem oamDmaCopies : Obligations.OamDmaCopies := by
  intro s v hs
  obtain ⟨-, -, -, -, hram, -⟩ := (State.inv_iff s).1 hs
  obtain ⟨-, -, hwf, -, -⟩ := Ram.wf_of_ok hram
  have hframe := dmaCopy_frame v 160 { s with dma := v }
  have hread := dmaCopy_oam_read v (Nat.le_refl 160) (s := { s with dma := v }) hwf
  have hwf' := dmaCopy_oam_wf v 160 (s := { s with dma := v }) hwf
  rw [busWrite_FF46]
  generalize dmaCopy v 160 { s with dma := v } = t at hframe hread hwf' ⊢
  refine ⟨fun i hi => ?_, ?_, hframe, fun hv => ?_⟩
  · rw [hread, if_pos hi, dmaSource_eq]
  · rw [busRead_FF46, hframe]
  · refine Memory.ext_of_wf hwf' hwf fun j => ?_
    rw [hread]
    split
    · next hj => exact busRead_dmaSource_oam _ hv hj
    · rfl

end Sys2Proof.Machine

/-! PROOFS. The I/O registers and IE at their addresses (20_memory.md R76, R78). -/

namespace Sys2Proof.Machine

/-! ## The bytes of the registers with fewer than eight bits -/

theorem append_ones3 : ∀ v : BitVec 3, 0b11111#5 ++ v = 0xF8#8 ||| v.zeroExtend 8 := by decide

theorem append_ones5 : ∀ v : BitVec 5, 0b111#3 ++ v = 0xE0#8 ||| v.zeroExtend 8 := by decide

theorem statRead_eq (s : State) : statRead s =
    0x80 ||| (s.ppu.statEnable.zeroExtend 8 <<< 3) ||| (if s.ppu.coincidence then 0x04 else 0x00)
      ||| (match s.ppu.mode with | .hblank => 0x00 | .vblank => 0x01 | .oamScan => 0x02 | .vramAccess => 0x03) := by
  have h : ∀ (e : BitVec 4) (co : Bool) (m : BitVec 2), 0b1#1 ++ e ++ BitVec.ofBool co ++ m =
      (0x80#8 ||| (e.zeroExtend 8 <<< 3) ||| (if co then 0x04#8 else 0x00#8) ||| m.zeroExtend 8) := by decide
  rw [statRead, h]
  cases s.ppu.mode <;> rfl

/-- The clock-select bits are the low two (60_exceptions.md R346). -/
theorem clockSelect_eq_iff (v : Byte) (tac : BitVec 3) :
    (v.extractLsb' 0 3).toNat % 4 = tac.toNat % 4 ↔ v.extractLsb' 0 2 = tac.extractLsb' 0 2 := by
  rw [← BitVec.toNat_inj]
  simp only [BitVec.extractLsb'_toNat, Nat.shiftRight_zero]
  omega

/-- Settles O34: at each address one register (R53), which a read returns and a write replaces. -/
theorem ioRegisters : Obligations.IoRegisters := by
  intro s v
  refine ⟨⟨rfl, rfl⟩, ⟨rfl, rfl⟩, ⟨rfl, rfl⟩, ⟨append_ones3 _, ?tac⟩, ⟨append_ones5 _, rfl⟩, ⟨statRead_eq s, rfl⟩,
    ⟨rfl, rfl⟩, ⟨rfl, rfl⟩, ⟨rfl, rfl⟩, ⟨rfl, rfl⟩, ⟨rfl, rfl⟩, ⟨rfl, rfl⟩, ⟨rfl, rfl⟩, ⟨rfl, rfl⟩, ⟨rfl, rfl⟩,
    ⟨append_ones3 _, rfl⟩, ⟨rfl, rfl⟩⟩
  case tac =>
    change tacWrite v s = _
    simp only [tacWrite, clockSelect_eq_iff]

end Sys2Proof.Machine

/-! PROOFS. The cells after `Reset(image)` (10_state.md R55). -/

namespace Sys2Proof.Machine

/-- An accepted image gives the record's cells and leaves the memories as given. -/
theorem resetWithImage_ok {r : ResetRecord} {ram : Ram} {params : Config} {image : List Byte} {s : State}
    (h : resetWithImage r ram params image = .ok s) : ∃ cfg, s = State.ofReset r ram cfg := by
  unfold resetWithImage at h
  split at h
  · cases h
  · cases h
    exact ⟨_, rfl⟩

/-- Settles O56: the accepted machine holds the record's cells, whatever the image. -/
theorem resetValues : Obligations.ResetValues := by
  intro ram params image s h
  obtain ⟨cfg, rfl⟩ := resetWithImage_ok h
  refine ⟨rfl, rfl, rfl, rfl, rfl, fun k => ?_, rfl, rfl, rfl, rfl, rfl, rfl, rfl, rfl, rfl, rfl, rfl, rfl, rfl, rfl,
    rfl, rfl, rfl, rfl, fun _ _ => rfl, rfl⟩
  cases k <;> rfl

end Sys2Proof.Machine

/-! PROOFS. The memory map (20_memory.md R62): what stands in each range of addresses, and what follows for reads and
writes there. -/

namespace Sys2Proof.Machine

/-! ## One place, for reads and writes -/

/-- A read and a write go to the place that stands at the address. -/
theorem bus_of_target {s : State} {a : Word} {x : Target} (h : target s a = x) (v : Byte) :
    busRead s a = readTarget s x ∧ busWrite a v s = writeTarget x v s := by
  rw [busRead, busWrite, h]
  exact ⟨rfl, rfl⟩

/-! ## The ranges -/

section
variable {s : State} {a : Word}

theorem target_of_vram (hlo : 0x8000 ≤ a.toNat) (hhi : a.toNat < 0xA000) : target s a = .vram (a.toNat - 0x8000) := by
  simp (disch := omega) only [target, if_neg, if_pos]

theorem target_of_eram {i : Nat} (hlo : 0xA000 ≤ a.toNat) (hhi : a.toNat < 0xC000)
    (hi : eramIndex s (a.toNat - 0xA000) = some i) : target s a = .eram i := by
  simp (disch := omega) only [target, if_neg, if_pos, hi]

theorem target_of_noEram (hlo : 0xA000 ≤ a.toNat) (hhi : a.toNat < 0xC000)
    (hi : eramIndex s (a.toNat - 0xA000) = none) : target s a = .openBus := by
  simp (disch := omega) only [target, if_neg, if_pos, hi]

theorem target_of_wram (hlo : 0xC000 ≤ a.toNat) (hhi : a.toNat < 0xE000) :
    target s a = .wram (wramIndex s a.toNat) := by
  simp (disch := omega) only [target, if_neg, if_pos]

/-- Echo RAM is the work RAM 0x2000 lower (R73). -/
theorem target_of_echo (hlo : 0xE000 ≤ a.toNat) (hhi : a.toNat < 0xFE00) : target s a = target s (a - 0x2000) := by
  have hsub : (a - 0x2000).toNat = a.toNat - 0x2000 := by bv_omega
  rw [target_of_wram (a := a - 0x2000) (by omega) (by omega), hsub]
  simp (disch := omega) only [target, if_neg, if_pos]

theorem target_of_unusable (hlo : 0xFEA0 ≤ a.toNat) (hhi : a.toNat < 0xFF00) : target s a = .openBus := by
  simp (disch := omega) only [target, if_neg, if_pos]

theorem target_of_noIoReg (hlo : 0xFF00 ≤ a.toNat) (hhi : a.toNat < 0xFF80) (hreg : ioReg a.toNat = none) :
    target s a = .openBus := by
  simp (disch := omega) only [target, if_neg, if_pos, hreg]

theorem target_of_hram (hlo : 0xFF80 ≤ a.toNat) (hhi : a.toNat < 0xFFFF) : target s a = .hram (a.toNat - 0xFF80) := by
  simp (disch := omega) only [target, if_neg, if_pos]

end

theorem wramIndex_of_fixed (s : State) {n : Nat} (h : n < 0xD000) : wramIndex s n = n - 0xC000 := if_pos h

theorem wramIndex_of_banked (s : State) {n : Nat} (h : 0xD000 ≤ n) :
    wramIndex s n = 0x1000 * wramBank s + (n - 0xD000) := by
  rw [wramIndex, if_neg (by omega), Nat.mul_comm]

/-- Settles O60: the range of the address names the memory and the byte; the bank is `wramBank`'s formula. -/
theorem ramRegions : Obligations.RamRegions := by
  intro s a v
  refine ⟨fun hlo hhi => bus_of_target (target_of_vram hlo hhi) v, fun hlo hhi => ?fixed, fun hlo hhi => ?banked,
    fun hlo hhi => bus_of_target (target_of_oam hlo hhi) v, fun hlo hhi => bus_of_target (target_of_hram hlo hhi) v⟩
  case fixed =>
    have htarget := target_of_wram (s := s) (a := a) hlo (by omega)
    rw [wramIndex_of_fixed s hhi] at htarget
    exact bus_of_target htarget v
  case banked =>
    have htarget := target_of_wram (s := s) (a := a) (by omega) hhi
    rw [wramIndex_of_banked s hlo] at htarget
    exact bus_of_target htarget v

/-! ## Echo RAM and unbacked addresses -/

/-- The addresses of the registers (R53). -/
theorem mem_of_ioReg {n : Nat} {r : IoReg} (h : ioReg n = some r) : n ∈ [0xFF00, 0xFF04, 0xFF05, 0xFF06, 0xFF07,
    0xFF0F, 0xFF40, 0xFF41, 0xFF42, 0xFF43, 0xFF44, 0xFF45, 0xFF46, 0xFF47, 0xFF48, 0xFF49, 0xFF4A, 0xFF4B, 0xFF70] := by
  unfold ioReg at h
  split at h <;> cases h <;> decide

/-- Settles O33: an echo address stands on the place of the address 0x2000 lower; the other two ranges stand on
nothing. -/
theorem echoAndOpenBus : Obligations.EchoAndOpenBus := by
  intro s a v
  refine ⟨fun hlo hhi => bus_of_target (target_of_echo hlo hhi) v,
    fun hlo hhi => bus_of_target (target_of_unusable hlo hhi) v, fun hlo hhi hlist => ?_⟩
  have hreg : ioReg a.toNat = none := Option.eq_none_iff_forall_ne_some.2 fun r hr => hlist (mem_of_ioReg hr)
  exact bus_of_target (target_of_noIoReg hlo hhi hreg) v

/-! ## External RAM (R113) -/

/-- The byte of external RAM: banked with type 1 in MODE 1, reduced by the size. -/
theorem eramIndex_eq (s : State) (n : Nat) : eramIndex s n =
    if s.cfg.cart.eramSize = 0 ∨ (s.cfg.cart.mapper = .type1 ∧ s.mapper.ramEnable = false) then none
    else some (((if s.cfg.cart.mapper = .type1 ∧ s.mapper.mode = true then s.mapper.bank2.toNat else 0) * 0x2000 + n)
      % s.cfg.cart.eramSize) := by
  unfold eramIndex
  by_cases hsize : s.cfg.cart.eramSize = 0
  · simp [hsize]
  · cases s.cfg.cart.mapper with
    | none => simp [hsize]
    | type1 => cases s.mapper.ramEnable <;> simp [hsize]

/-- Settles O39: an address of the range stands on the byte of `eramIndex`, or on nothing. -/
theorem externalRam : Obligations.ExternalRam := by
  intro s a v hlo hhi
  dsimp only
  have hindex := eramIndex_eq s (a.toNat - 0xA000)
  split
  · next hoff => exact bus_of_target (target_of_noEram hlo hhi (hindex.trans (if_pos hoff))) v
  · next hon => exact bus_of_target (target_of_eram hlo hhi (hindex.trans (if_neg hon))) v

/-! ## The cartridge's ROM and the mapper's registers (R106 to R114) -/

/-- A read of 0x0000-0x7FFF is a read of the image at the mapper's offset. -/
theorem busRead_rom (s : State) {a : Word} (h : a.toNat < 0x8000) :
    busRead s a = romByte s.cfg (romOffset s a.toNat) :=
  (bus_of_target (target_lt_8000 h) 0).1

/-- A write to 0x0000-0x7FFF goes to the mapper. -/
theorem busWrite_rom (s : State) {a : Word} (h : a.toNat < 0x8000) (v : Byte) :
    busWrite a v s = mapperWrite a.toNat v s :=
  (bus_of_target (target_lt_8000 h) v).2

theorem romOffset_none {s : State} (h : s.cfg.cart.mapper = .none) (n : Nat) : romOffset s n = n := by
  rw [romOffset, h]

theorem romOffset_type1 {s : State} (h : s.cfg.cart.mapper = .type1) (n : Nat) : romOffset s n =
    if n < 0x4000 then n else romBank s.mapper % s.cfg.cart.romBanks * 0x4000 + (n - 0x4000) := by
  rw [romOffset, h]

/-- The bank is BANK1 in its low five bits (R112). -/
theorem romBank_mod (m : Mapper) : romBank m % 32 = m.bank1.toNat := by
  have hlt : m.bank1.toNat < 32 := m.bank1.isLt
  unfold romBank
  split <;> omega

theorem romBank_eq (m : Mapper) : romBank m =
    if m.mode then m.bank1.toNat else 32 * m.bank2.toNat + m.bank1.toNat := by
  rw [romBank, Nat.mul_comm]

/-- Settles O37: the mapper's offset in each case; the low five bits of the bank are BANK1. -/
theorem romReads : Obligations.RomReads := by
  intro s a ha
  dsimp only
  rw [busRead_rom s ha, ← romBank_eq]
  refine ⟨fun hmapper => ?_, fun hmapper hlow => ?_, fun hmapper hhigh => ?_, fun hbank1 => ?_⟩
  · rw [romOffset_none hmapper]; rfl
  · rw [romOffset_type1 hmapper, if_pos hlow]; rfl
  · rw [romOffset_type1 hmapper, if_neg (by omega)]; rfl
  · rw [romBank_mod]
    exact fun h => hbank1 (BitVec.eq_of_toNat_eq h)

theorem mapperWrite_none {s : State} (h : s.cfg.cart.mapper = .none) (n : Nat) (v : Byte) : mapperWrite n v s = s := by
  rw [mapperWrite, h]

theorem mapperWrite_type1 {s : State} (h : s.cfg.cart.mapper = .type1) (n : Nat) (v : Byte) :
    mapperWrite n v s = { s with mapper := mapperRegWrite n v s.mapper } := by
  rw [mapperWrite, h]

/-- BANK1 takes five bits, and 1 for 0 (R108). -/
theorem bank1_eq (v : Byte) : (if v.extractLsb' 0 5 = (0 : BitVec 5) then 1 else v.extractLsb' 0 5) =
    if v.toNat % 32 = 0 then (1 : BitVec 5) else BitVec.ofNat 5 (v.toNat % 32) := by
  revert v
  decide +kernel

section
variable (m : Mapper) (v : Byte) {n : Nat}

theorem mapperRegWrite_ramEnable (h : n < 0x2000) :
    mapperRegWrite n v m = { m with ramEnable := decide (v.toNat % 16 = 0xA) } := if_pos h

theorem mapperRegWrite_bank1_eq (hlo : 0x2000 ≤ n) (hhi : n < 0x4000) : mapperRegWrite n v m =
    { m with bank1 := if v.toNat % 32 = 0 then 1 else BitVec.ofNat 5 (v.toNat % 32) } := by
  rw [mapperRegWrite, if_neg (by omega), if_pos hhi, ← bank1_eq]

theorem mapperRegWrite_bank2 (hlo : 0x4000 ≤ n) (hhi : n < 0x6000) :
    mapperRegWrite n v m = { m with bank2 := BitVec.ofNat 2 (v.toNat % 4) } := by
  have hbits : ∀ v : Byte, v.extractLsb' 0 2 = BitVec.ofNat 2 (v.toNat % 4) := by decide +kernel
  rw [mapperRegWrite, if_neg (by omega), if_neg (by omega), if_pos hhi, hbits]

theorem mapperRegWrite_mode (hlo : 0x6000 ≤ n) :
    mapperRegWrite n v m = { m with mode := decide (v.toNat % 2 = 1) } := by
  have hbit : ∀ v : Byte, v.getLsbD 0 = decide (v.toNat % 2 = 1) := by decide +kernel
  rw [mapperRegWrite, if_neg (by omega), if_neg (by omega), if_neg (by omega), hbit]

end

/-- Settles O38: each range writes its register; a bank written with five zero bits has BANK1 = 1 (R114). -/
theorem mapperWrites : Obligations.MapperWrites := by
  intro s a v ha
  rw [busWrite_rom s ha]
  refine ⟨fun hmapper => mapperWrite_none hmapper _ v, fun hmapper => ?_⟩
  rw [mapperWrite_type1 hmapper]
  refine ⟨fun hlow => ?_, fun hlo hhi => ?_, fun hlo hhi => ?_, fun hlo => ?_, fun hlo hhi hmode hzero => ?_⟩
  · rw [mapperRegWrite_ramEnable _ v hlow]
  · rw [mapperRegWrite_bank1_eq _ v hlo hhi]
  · rw [mapperRegWrite_bank2 _ v hlo hhi]
  · rw [mapperRegWrite_mode _ v hlo]
  · rw [mapperRegWrite_bank1_eq _ v hlo hhi, if_pos hzero, romBank_eq, hmode]
    rfl

end Sys2Proof.Machine

/-! PROOFS. What a bus write, and an instruction's list of bus writes, leaves alone (20_memory.md R98, R99). -/

namespace Sys2Proof.Machine

/-! ## One write -/

/-- An address stands on the register at that address alone (R53). -/
theorem ioReg_of_target {s : State} {a : Word} {r : IoReg} (h : target s a = .io r) : ioReg a.toNat = some r := by
  unfold target at h
  dsimp only at h
  repeat' split at h
  all_goals cases h
  assumption

theorem ioReg_dma {n : Nat} (h : ioReg n = some .dma) : n = 0xFF46 := by
  unfold ioReg at h
  split at h <;> cases h
  rfl

/-- A write to a place that is neither RAM nor the OAM-DMA register changes no memory. -/
theorem writeTarget_ram_of_not_isRam {x : Target} (hram : x.isRam = false) (hdma : x ≠ .io .dma) (v : Byte) (s : State) :
    (writeTarget x v s).ram = s.ram := by
  cases x with
  | vram | eram | wram | oam | hram => cases hram
  | rom n =>
    change (mapperWrite n v s).ram = s.ram
    unfold mapperWrite
    split <;> rfl
  | ie | openBus => rfl
  | io r =>
    cases r with
    | dma => exact absurd rfl hdma
    | lcdc =>
      change (lcdcWrite v s).ram = s.ram
      unfold lcdcWrite
      dsimp only
      split_ifs <;> rfl
    | _ => rfl

/-- Settles O32: RAM reads back place by place; of the other places only the OAM-DMA register writes to a memory. -/
theorem busWriteFrame : Obligations.BusWriteFrame := by
  intro s a v hs
  obtain ⟨-, -, -, -, hram, -⟩ := (State.inv_iff s).1 hs
  refine ⟨fun ha b => busRead_busWrite_ram (Ram.wf_of_ok hram) ha v b, fun ha hdma => ?_, fun hdma => ?_⟩
  · exact writeTarget_ram_of_not_isRam ha (fun h => hdma (ioReg_dma (ioReg_of_target h))) v s
  · obtain rfl : a = 0xFF46 := BitVec.eq_of_toNat_eq hdma
    rw [busWrite_FF46, dmaCopy_frame]

/-! ## A list of writes to RAM -/

theorem applyStores_append (l l' : List (Word × Byte)) (s : State) :
    applyStores (l ++ l') s = applyStores l' (applyStores l s) :=
  List.foldl_append

theorem target_busWrite_ram {s : State} {a : Word} (ha : (target s a).isRam = true) (v : Byte) (b : Word) :
    target (busWrite a v s) b = target s b :=
  target_writeTarget_ram ha v s b

/-- Writes to RAM change nothing the address decoder uses. -/
theorem target_applyStores_ram {l : List (Word × Byte)} {s : State} (hl : ∀ w ∈ l, (target s w.1).isRam = true)
    (b : Word) : target (applyStores l s) b = target s b := by
  induction l generalizing s with
  | nil => rfl
  | cons w l ih =>
    obtain ⟨hw, hl⟩ := List.forall_mem_cons.1 hl
    have htarget := target_busWrite_ram hw w.2
    rw [applyStores_cons, ih (by simpa only [htarget] using hl), htarget]

/-- An address on none of the places written reads as before. -/
theorem busRead_applyStores_other {l : List (Word × Byte)} {s : State} (hs : s.devicesOk)
    (hl : ∀ w ∈ l, (target s w.1).isRam = true) {a : Word} (ha : ∀ w ∈ l, target s a ≠ target s w.1) :
    busRead (applyStores l s) a = busRead s a := by
  induction l generalizing s with
  | nil => rfl
  | cons w l ih =>
    obtain ⟨hw, hl⟩ := List.forall_mem_cons.1 hl
    obtain ⟨haw, ha⟩ := List.forall_mem_cons.1 ha
    obtain ⟨-, -, -, hram, -⟩ := id hs
    have htarget := target_busWrite_ram hw w.2
    rw [applyStores_cons, ih (busWrite_devicesOk hs w.1 w.2) (by simpa only [htarget] using hl)
      (by simpa only [htarget] using ha), busRead_busWrite_ram (Ram.wf_of_ok hram) hw, if_neg haw]

/-- The byte written last reads back. -/
theorem busRead_applyStores_last {l : List (Word × Byte)} {s : State} (hs : s.devicesOk)
    (hl : ∀ w ∈ l, (target s w.1).isRam = true) {w : Word × Byte} (hw : l.getLast? = some w) :
    busRead (applyStores l s) w.1 = w.2 := by
  obtain ⟨l, rfl⟩ := List.getLast?_eq_some_iff.1 hw
  obtain ⟨hl, hw⟩ := List.forall_mem_append.1 hl
  obtain ⟨-, -, -, hram, -⟩ := applyStores_devicesOk hs l
  rw [applyStores_append, applyStores_cons, applyStores_nil, busRead_busWrite_ram (Ram.wf_of_ok hram), if_pos rfl]
  rw [target_applyStores_ram hl]
  exact hw w (List.mem_singleton_self w)

/-! ## The writes of an instruction -/

theorem raiseIllegal_withCpu (op : Byte) (s : State) : raiseIllegal op s = s.withCpu (raiseIllegal op s).cpu := by
  unfold raiseIllegal
  split <;> rfl

/-- Where `pc` stands makes no difference to the writes of an extended instruction (a call's return address is `pc`,
but no extended instruction is a call). -/
theorem stores_decodeExt_setPc (op2 : Byte) (s : State) (v : Word) :
    stores (decodeExt op2) (s.setPc v) = stores (decodeExt op2) s := by
  unfold decodeExt
  dsimp only
  split
  · split <;> rfl
  · split <;> rfl
  all_goals rfl

theorem stores_ldhCA (s : State) : stores (resolve s .ldhCA) s = [(highPage s.cpu.c, s.cpu.a)] := by
  rw [highPage_eq]
  rfl

theorem stores_ldhNA (n : Byte) (s : State) : stores (resolve s (.ldhNA n)) s = [(highPage n, s.cpu.a)] := by
  rw [highPage_eq]
  rfl

theorem stores_popRr (p : Reg16Stk) (s : State) : stores (resolve s (.popRr p)) s = [] := by
  cases p <;> rfl

theorem stores_callCcNn (cc : Cond) (nn : Word) (s : State) : stores (resolve s (.callCcNn cc nn)) s =
    if condHolds cc s.cpu.flags then [(s.cpu.sp - 1, hiByte s.cpu.pc), (s.cpu.sp - 2, loByte s.cpu.pc)] else [] := by
  rw [condHolds_eq_condTrue]
  rfl

/-- A call outside the CPU: the two writes of its push. -/
theorem callTo_eq (dest : Word) (s : State) : callTo dest s =
    (applyStores [(s.cpu.sp - 1, hiByte s.cpu.pc), (s.cpu.sp - 2, loByte s.cpu.pc)] s).withCpu (callTo dest s).cpu := by
  rw [callTo, push16_eq]
  rfl

/-- An instruction does the writes of its row (`stores`) and changes nothing else outside the CPU. The bare 0xCB
byte, which runs another instruction, stands apart. -/
theorem exec_stores_of_ne_prefixCb {i : Instr} (hi : i ≠ .prefixCb) {s t : State} (h : exec i s = .next t) :
    t = (applyStores (stores (resolve s i) s) s).withCpu t.cpu := by
  cases i with
  | prefixCb => exact absurd rfl hi
  | illegalD3 | illegalDB | illegalDD | illegalE3 | illegalE4 | illegalEB | illegalEC | illegalED | illegalF4
  | illegalFC | illegalFD => cases h; exact raiseIllegal_withCpu _ s
  | ldhCA => cases h; rw [stores_ldhCA]; rfl
  | ldhNA n => cases h; rw [stores_ldhNA]; rfl
  | pushRr p => cases h; rw [push16_eq]; rfl
  | popRr p => cases h; rw [stores_popRr]; rfl
  | callNn | rst => cases h; exact callTo_eq _ s
  | callCcNn cc nn =>
    cases h
    rw [stores_callCcNn]
    split
    · exact callTo_eq nn s
    · rfl
  | jpCcNn | jrCcE | retCc => cases h; split <;> rfl
  | _ => cases h; rfl

theorem exec_stores {i : Instr} {s t : State} (h : exec i s = .next t) :
    t = (applyStores (stores (resolve s i) s) s).withCpu t.cpu := by
  by_cases hi : i = .prefixCb
  · subst hi
    obtain ⟨hplain, hresolve⟩ := decodeExt_plain (busRead s s.cpu.pc) (s.setPc (s.cpu.pc + 1))
    obtain ⟨-, hne, -⟩ := (isPlain_iff _).1 hplain
    have ht := exec_stores_of_ne_prefixCb hne ((exec_decodeExt _ _).trans h)
    rwa [hresolve, stores_decodeExt_setPc, State.setPc, applyStores_withCpu, State.withCpu_withCpu] at ht
  · exact exec_stores_of_ne_prefixCb hi h

/-- Settles O31: the state after an instruction is its list of writes but for the CPU, which no read depends on; then
the laws of a list of writes to RAM. -/
theorem memoryFrame : Obligations.MemoryFrame := by
  intro i s t hs h
  obtain ⟨-, hdev⟩ := (State.inv_iff s).1 hs
  have ht := exec_stores h
  have hread (a : Word) : busRead t a = busRead (applyStores (stores (resolve s i) s) s) a := by
    rw [ht, busRead_withCpu]
  refine ⟨ht, fun hl => ⟨fun a ha => ?_, fun w hw => ?_⟩⟩
  · rw [hread, busRead_applyStores_other hdev hl ha]
  · rw [hread, busRead_applyStores_last hdev hl hw]

end Sys2Proof.Machine

/-! PROOFS. What the Timer and the PPU leave alone (20_memory.md R63, R120; 60_exceptions.md R324): the frame of the
Timer beside the PPU's (`ppuRun_frame`), then the requests both can make. -/

namespace Sys2Proof.Machine

/-! ## The Timer's frame -/

/-- What no part of the Timer touches. -/
def State.sameTimerFrame (s t : State) : Prop :=
  t.cpu = s.cpu ∧ t.ppu = s.ppu ∧ t.joypad = s.joypad ∧ t.mapper = s.mapper ∧ t.dma = s.dma ∧ t.svbk = s.svbk
    ∧ t.ram = s.ram ∧ t.hostInput = s.hostInput ∧ t.cfg = s.cfg ∧ t.irq.ie = s.irq.ie

theorem timaRun_frame (t : Nat) (s : State) : s.sameTimerFrame (timaRun t s) := by
  unfold timaRun
  dsimp only
  split
  · simp only [State.sameTimerFrame, timaTicks_keeps, and_self]
  · simp only [State.sameTimerFrame, and_self]

/-- The Timer touches its own part and IF alone. -/
theorem timerRun_frame (t : Nat) (s : State) : s.sameTimerFrame (timerRun t s) :=
  timaRun_frame t (divRun t s)

/-! ## The requests -/

/-- From `s` to `t` no request is withdrawn, and none of Serial or Joypad is made. -/
def State.requestsDevices (s t : State) : Prop :=
  (∀ j, s.irq.iflag.getLsbD j = true → t.irq.iflag.getLsbD j = true)
    ∧ t.irq.iflag.getLsbD 3 = s.irq.iflag.getLsbD 3 ∧ t.irq.iflag.getLsbD 4 = s.irq.iflag.getLsbD 4

theorem State.requestsDevices.refl (s : State) : s.requestsDevices s := ⟨fun _ => id, rfl, rfl⟩

theorem State.requestsDevices.trans {s t u : State} (h : s.requestsDevices t) (h' : t.requestsDevices u) :
    s.requestsDevices u := by
  obtain ⟨hkeep, hserial, hjoypad⟩ := h
  obtain ⟨hkeep', hserial', hjoypad'⟩ := h'
  exact ⟨fun j hj => hkeep' j (hkeep j hj), hserial'.trans hserial, hjoypad'.trans hjoypad⟩

/-- A request of VBlank, STAT or Timer (R323). -/
theorem raiseInt_requests {i : Nat} (hi : i < 3) (s : State) : s.requestsDevices (raiseInt i s) := by
  have hother : ∀ i < 3, (1#5 <<< i).getLsbD 3 = false ∧ (1#5 <<< i).getLsbD 4 = false := by decide
  obtain ⟨hserial, hjoypad⟩ := hother i hi
  simp only [State.requestsDevices, raiseInt_irq, BitVec.getLsbD_or, hserial, hjoypad, Bool.or_false, and_self,
    and_true]
  exact fun j hj => by rw [hj, Bool.true_or]

theorem timaTick_requests (s : State) : s.requestsDevices (timaTick s) := by
  unfold timaTick
  split
  · exact raiseInt_requests (by decide) { s with timer := { s.timer with tima := s.timer.tma } }
  · exact .refl s

theorem timaTicks_requests (k : Nat) (s : State) : s.requestsDevices (timaTicks k s) := by
  induction k generalizing s with
  | zero => exact .refl s
  | succ k ih => exact (timaTick_requests s).trans (ih (timaTick s))

theorem timerRun_requests (t : Nat) (s : State) : s.requestsDevices (timerRun t s) := by
  unfold timerRun timaRun
  dsimp only
  split
  · refine .trans ?_ (timaTicks_requests _ _)
    exact .refl s
  · exact .refl s

theorem evalStat_requests (s : State) : s.requestsDevices (evalStat s) := by
  unfold evalStat
  dsimp only
  split
  · exact raiseInt_requests (by decide) { s with ppu := { s.ppu with coincidence := _ } }
  · exact .refl s

theorem endOfLine_requests (s : State) : s.requestsDevices (endOfLine s) := by
  obtain ⟨fb, hrow⟩ := (renderScanline_pixels s.ppu.ly.toNat s).1
  unfold endOfLine
  dsimp only
  rw [hrow]
  split
  · refine .trans ?_ (raiseInt_requests (by decide) _)
    exact .refl s
  · exact .refl s

theorem vblankLine_requests (s : State) : s.requestsDevices (vblankLine s) := by
  obtain ⟨fb, hsprites⟩ := (renderSprites_pixels (setLy (s.ppu.ly + 1) s)).1
  unfold vblankLine
  dsimp only
  rw [hsprites]
  split <;> exact .refl s

theorem ppuTransition_requests (s : State) : s.requestsDevices (ppuTransition s) := by
  unfold ppuTransition
  split
  · exact .refl s
  · exact evalStat_requests (setMode .hblank s)
  · exact endOfLine_requests s
  · exact vblankLine_requests s

theorem ppuLoop_requests (k : Nat) (s : State) : s.requestsDevices (ppuLoop k s) := by
  induction k generalizing s with
  | zero => exact .refl s
  | succ k ih =>
    unfold ppuLoop
    split
    · exact (ppuTransition_requests (setModeClock (s.ppu.modeClock - s.ppu.mode.budget) s)).trans (ih _)
    · exact .refl s

theorem ppuRun_requests (t : Nat) (s : State) : s.requestsDevices (ppuRun t s) := by
  unfold ppuRun
  split
  · exact ppuLoop_requests _ (setModeClock (s.ppu.modeClock + t) s)
  · exact .refl s

theorem advanceDevices_requests (m : Option Nat) (s : State) : s.requestsDevices (advanceDevices m s) := by
  cases m with
  | none => exact .refl s
  | some k => exact (timerRun_requests _ s).trans (ppuRun_requests _ _)

/-- Settles O48: the Timer's frame, then the PPU's; both can make no other request than VBlank, STAT and Timer. -/
theorem devicesFrame : Obligations.DevicesFrame := by
  intro m s
  have hrequests := advanceDevices_requests m s
  cases m with
  | none => exact ⟨rfl, rfl, rfl, rfl, rfl, rfl, rfl, rfl, rfl, hrequests⟩
  | some k =>
    obtain ⟨tcpu, -, tjoypad, tmapper, tdma, tsvbk, tram, tinput, tcfg, tie⟩ := timerRun_frame (s.cfg.tPerM * k) s
    obtain ⟨pcpu, -, pjoypad, pmapper, pdma, psvbk, pram, pinput, pcfg, pie⟩ :=
      ppuRun_frame (s.cfg.tPerM * k) (timerRun (s.cfg.tPerM * k) s)
    exact ⟨pcpu.trans tcpu, pram.trans tram, pjoypad.trans tjoypad, pmapper.trans tmapper, pdma.trans tdma,
      psvbk.trans tsvbk, pcfg.trans tcfg, pinput.trans tinput, pie.trans tie, hrequests⟩

end Sys2Proof.Machine

/-! PROOFS. Loading an image (20_memory.md R101 to R105): which header codes are accepted and what they fix. -/

namespace Sys2Proof.Machine

/-! ## The header codes -/

theorem mapperOfType_eq (code : Byte) : mapperOfType code =
    if code.toNat ∈ [0, 1, 2, 3, 8, 9] then
      some (if code.toNat ∈ [1, 2, 3] then .type1 else .none, decide (code.toNat ∉ [0, 1]))
    else none := by
  revert code
  decide +kernel

theorem romBanksOfCode_eq (code : Byte) :
    romBanksOfCode code = if code.toNat > 8 then none else some (2 <<< code.toNat) := by
  simp only [romBanksOfCode, Nat.shiftLeft_eq, gt_iff_lt, ← not_le, ite_not]

theorem eramSizeOfCode_eq (code : Byte) : eramSizeOfCode code =
    if code.toNat > 5 then none else some ([0, 2048, 8192, 32768, 131072, 65536].getD code.toNat 0) := by
  revert code
  decide +kernel

/-! ## The image -/

theorem Memory.read_cons (j : Nat) (v : Byte) (rest : Memory) (k : Nat) :
    Memory.read ((j, v) :: rest) k = if k = j then v else if k < j then 0 else Memory.read rest k := rfl

/-- The cells listed for an image hold its bytes: those not listed are 0x00. -/
theorem read_imageCells (image : List Byte) (start k : Nat) :
    Memory.read (imageCells start image) k = if k < start then 0 else image.getD (k - start) 0 := by
  induction image generalizing start with
  | nil => simp [imageCells]
  | cons v rest ih =>
    have hnext (h : start < k) : (v :: rest).getD (k - start) 0 = rest.getD (k - (start + 1)) 0 := by
      rw [show k - start = k - (start + 1) + 1 by omega, List.getD_cons_succ]
    by_cases hv : v = 0
    · rw [imageCells, if_pos hv, ih]
      rcases Nat.lt_trichotomy k start with hlt | rfl | hgt
      · rw [if_pos hlt, if_pos (by omega)]
      · simp [hv]
      · rw [if_neg (by omega), if_neg (by omega), hnext hgt]
    · rw [imageCells, if_neg hv, Memory.read_cons, ih]
      rcases Nat.lt_trichotomy k start with hlt | rfl | hgt
      · rw [if_neg (by omega)]
        simp [hlt]
      · simp
      · simp (disch := omega) only [if_neg, hnext hgt]

/-! ## Refused and accepted images -/

/-- The number in header byte `k`. -/
def headerCode (image : List Byte) (k : Nat) : Nat := (image.getD k 0).toNat

/-- The images of R103 to R105 that no cartridge is made from. -/
def imageRefused (image : List Byte) : Prop :=
  image.length < 0x150 ∨ headerCode image 0x147 ∉ [0, 1, 2, 3, 8, 9] ∨ headerCode image 0x148 > 8
    ∨ headerCode image 0x149 > 5

/-- The cartridge of an accepted image. -/
def cartridgeOf (image : List Byte) : Cartridge where
  mapper := if headerCode image 0x147 ∈ [1, 2, 3] then .type1 else .none
  romBanks := 2 <<< headerCode image 0x148
  eramSize :=
    if headerCode image 0x147 ∈ [0, 1] then 0 else [0, 2048, 8192, 32768, 131072, 65536].getD (headerCode image 0x149) 0
  romLen := image.length
  rom := imageCells 0 image

theorem loadCartridge_of_refused {image : List Byte} (h : imageRefused image) : ∃ e, loadCartridge image = .error e := by
  unfold loadCartridge
  split
  · exact ⟨_, rfl⟩
  · next hlen =>
    split
    · exact ⟨_, rfl⟩
    · exact ⟨_, rfl⟩
    · exact ⟨_, rfl⟩
    · next kind hasRam banks size htype hrom hram =>
      rw [mapperOfType_eq] at htype
      rw [romBanksOfCode_eq] at hrom
      rw [eramSizeOfCode_eq] at hram
      obtain ⟨htype, -⟩ := Option.ite_none_right_eq_some.1 htype
      obtain ⟨hrom, -⟩ := Option.ite_none_left_eq_some.1 hrom
      obtain ⟨hram, -⟩ := Option.ite_none_left_eq_some.1 hram
      rcases h with h | h | h | h
      · exact absurd h hlen
      · exact absurd htype h
      · exact absurd h hrom
      · exact absurd h hram

theorem loadCartridge_of_accepted {image : List Byte} (h : ¬imageRefused image) :
    loadCartridge image = .ok (cartridgeOf image) := by
  simp only [imageRefused, not_or, not_not] at h
  obtain ⟨hlen, htype, hrom, hram⟩ := h
  have hkind := (mapperOfType_eq _).trans (if_pos htype)
  have hbanks := (romBanksOfCode_eq _).trans (if_neg hrom)
  have hsize := (eramSizeOfCode_eq _).trans (if_neg hram)
  rw [loadCartridge, if_neg hlen, hkind, hbanks, hsize]
  simp only [decide_eq_true_eq, ite_not]
  rfl

/-- Settles O57: every image is refused or makes the cartridge its header names. -/
theorem loadRefusals : Obligations.LoadRefusals := by
  intro image
  change (imageRefused image ↔ _) ∧ _
  by_cases h : imageRefused image
  · obtain ⟨e, he⟩ := loadCartridge_of_refused h
    exact ⟨⟨fun _ => ⟨e, he⟩, fun _ => h⟩, fun cart hcart => nomatch he.symm.trans hcart⟩
  · have hok := loadCartridge_of_accepted h
    refine ⟨⟨fun hbad => absurd hbad h, fun ⟨e, he⟩ => nomatch hok.symm.trans he⟩, fun cart hcart => ?_⟩
    cases hok.symm.trans hcart
    exact ⟨rfl, rfl, rfl, rfl, read_imageCells image 0⟩

end Sys2Proof.Machine

/-! PROOFS. The decoder and the encoder (30_encoding.md R131 to R139): the fields of an opcode byte, the entries of the
two tables against the bit patterns of the encoder, then what `decode` answers on a list of bytes. -/

namespace Sys2Proof.Machine

/-! ## Fields and operand codes (R131, R132) -/

section Fields

variable (x : BitVec 2) (y z : BitVec 3)

/-- A byte from its fields `x`, `y`, `z`. -/
theorem op8_fields : op8 (64 * x.toNat + 8 * y.toNat + z.toNat) = x ++ y ++ z := by
  revert x y z
  decide +kernel

@[simp] theorem opX_fields : opX (x ++ y ++ z) = x.toNat := by
  revert x y z
  decide +kernel

@[simp] theorem opY_fields : opY (x ++ y ++ z) = y.toNat := by
  revert x y z
  decide +kernel

@[simp] theorem opZ_fields : opZ (x ++ y ++ z) = z.toNat := by
  revert x y z
  decide +kernel

end Fields

@[simp] theorem reg8OfCode_code (r : Reg8) : reg8OfCode r.code.toNat = some r := by
  cases r <;> rfl

theorem r8Code_eq (r : Reg8) : r8Code r = r.code.toNat := by
  cases r <;> rfl

theorem opLength_bounds (op : Byte) : 1 ≤ opLength op ∧ opLength op ≤ 3 := by
  unfold opLength
  split
  · decide
  · split <;> decide

/-! ## The bit instructions and `RST`, whose opcodes hold a 3-bit operand -/

section Bits

variable (b : BitVec 3) (r : Reg8)

theorem decodeExt_bitR : decodeExt (0b01#2 ++ b ++ r.code) = .bitR b r := by simp [decodeExt]
theorem decodeExt_resR : decodeExt (0b10#2 ++ b ++ r.code) = .resR b r := by simp [decodeExt]
theorem decodeExt_setR : decodeExt (0b11#2 ++ b ++ r.code) = .setR b r := by simp [decodeExt]
theorem decodeExt_bitHl : decodeExt (0b01#2 ++ b ++ 0b110#3) = .bitHl b := by simp [decodeExt, reg8OfCode]
theorem decodeExt_resHl : decodeExt (0b10#2 ++ b ++ 0b110#3) = .resHl b := by simp [decodeExt, reg8OfCode]
theorem decodeExt_setHl : decodeExt (0b11#2 ++ b ++ 0b110#3) = .setHl b := by simp [decodeExt, reg8OfCode]

end Bits

theorem decodeBytes_rst (t : BitVec 3) (n1 n2 : Byte) : decodeBytes (0b11#2 ++ t ++ 0b111#3) n1 n2 = .rst t := by
  have hprefix : ∀ t : BitVec 3, 0b11#2 ++ t ++ 0b111#3 ≠ (0xCB : Byte) := by decide
  rw [decodeBytes, if_neg (hprefix t)]
  simp [decodePrimary, decodeX3]

/-! ## Decoding an encoding -/

/-- The bytes at the head of the encoding select the instruction, whatever bytes follow it. -/
def DecodesBack (i : Instr) : Prop := ∃ op tl, encode i = op :: tl
    ∧ ∀ rest : List Byte, decodeBytes op ((tl ++ rest).getD 0 0) ((tl ++ rest).getD 1 0) = i

/-- After 0xCB one byte, whose entry in the extended table is the instruction (R136). -/
theorem DecodesBack.of_ext {i : Instr} {op2 : Byte} (henc : encode i = [0xCB, op2]) (hext : decodeExt op2 = i) :
    DecodesBack i :=
  ⟨0xCB, [op2], henc, fun _ => hext⟩

/-- By instruction, by register or condition where it names one, over the bytes of the word where it holds one. -/
theorem decodesBack {i : Instr} (hwf : i.wf = true) (hprefix : i ≠ .prefixCb) : DecodesBack i := by
  cases i with
  | prefixCb => exact absurd rfl hprefix
  | popRr p =>
    cases p with
    | af => cases hwf
    | bc | de | hl => exact ⟨_, _, rfl, fun _ => rfl⟩
  | ldRR dst src => cases dst <;> cases src <;> exact ⟨_, _, rfl, fun _ => rfl⟩
  | ldRN r | ldRHl r | ldHlR r | addR r | adcR r | subR r | sbcR r | andR r | xorR r | orR r | cpR r | incR r | decR r =>
    cases r <;> exact ⟨_, _, rfl, fun _ => rfl⟩
  | rlcR r | rrcR r | rlR r | rrR r | slaR r | sraR r | swapR r | srlR r => cases r <;> exact .of_ext rfl rfl
  | rlcHl | rrcHl | rlHl | rrHl | slaHl | sraHl | swapHl | srlHl => exact .of_ext rfl rfl
  | addHlRr p | incRr p | decRr p | pushRr p => cases p <;> exact ⟨_, _, rfl, fun _ => rfl⟩
  | jrCcE cc | retCc cc => cases cc <;> exact ⟨_, _, rfl, fun _ => rfl⟩
  | ldANn nn => exact ⟨_, _, rfl, fun _ => congrArg Instr.ldANn (wordOf_hiByte_loByte nn)⟩
  | ldNnA nn => exact ⟨_, _, rfl, fun _ => congrArg Instr.ldNnA (wordOf_hiByte_loByte nn)⟩
  | ldNnSp nn => exact ⟨_, _, rfl, fun _ => congrArg Instr.ldNnSp (wordOf_hiByte_loByte nn)⟩
  | jpNn nn => exact ⟨_, _, rfl, fun _ => congrArg Instr.jpNn (wordOf_hiByte_loByte nn)⟩
  | callNn nn => exact ⟨_, _, rfl, fun _ => congrArg Instr.callNn (wordOf_hiByte_loByte nn)⟩
  | ldRrNn p nn => cases p <;> exact ⟨_, _, rfl, fun _ => congrArg (Instr.ldRrNn _) (wordOf_hiByte_loByte nn)⟩
  | jpCcNn cc nn => cases cc <;> exact ⟨_, _, rfl, fun _ => congrArg (Instr.jpCcNn _) (wordOf_hiByte_loByte nn)⟩
  | callCcNn cc nn => cases cc <;> exact ⟨_, _, rfl, fun _ => congrArg (Instr.callCcNn _) (wordOf_hiByte_loByte nn)⟩
  | bitR b r => exact .of_ext rfl (decodeExt_bitR b r)
  | resR b r => exact .of_ext rfl (decodeExt_resR b r)
  | setR b r => exact .of_ext rfl (decodeExt_setR b r)
  | bitHl b => exact .of_ext rfl (decodeExt_bitHl b)
  | resHl b => exact .of_ext rfl (decodeExt_resHl b)
  | setHl b => exact .of_ext rfl (decodeExt_setHl b)
  | rst t => exact ⟨_, _, rfl, fun _ => decodeBytes_rst t _ _⟩
  | _ => exact ⟨_, _, rfl, fun _ => rfl⟩

/-! ## Encoding what is decoded -/

/-- An entry of the extended table, back to its two bytes. -/
theorem encode_decodeExt (op2 : Byte) : (decodeExt op2).wf = true ∧ encode (decodeExt op2) = [0xCB, op2] := by
  revert op2
  decide +kernel

/-- The 64 opcodes of one value of field `x`. -/
theorem exists_of_opX {op : Byte} {x : Nat} (hx : opX op = x) : ∃ k < 64, op = op8 (64 * x + k) := by
  refine ⟨op.toNat % 64, Nat.mod_lt _ (by decide), ?_⟩
  rw [← hx, opX, Nat.div_add_mod, op8, BitVec.ofNat_toNat, BitVec.setWidth_eq]

/-- The rows with `x` = 0, by opcode. -/
theorem encode_decodeX0 {op : Byte} (hx : opX op = 0) (nn : Word) : (decodeX0 op (loByte nn) nn).wf = true
    ∧ encode (decodeX0 op (loByte nn) nn) = [op, loByte nn, hiByte nn].take (opLength op) := by
  obtain ⟨k, hk, rfl⟩ := exists_of_opX hx
  interval_cases k <;> exact ⟨rfl, rfl⟩

/-- The rows with `x` = 3, by opcode; 0xCB is number 11 of them. -/
theorem encode_decodeX3 {op : Byte} (hx : opX op = 3) (hprefix : op ≠ 0xCB) (nn : Word) :
    (decodeX3 op (loByte nn) nn).wf = true
      ∧ encode (decodeX3 op (loByte nn) nn) = [op, loByte nn, hiByte nn].take (opLength op) := by
  obtain ⟨k, hk, rfl⟩ := exists_of_opX hx
  have hne : k ≠ 11 := by
    rintro rfl
    exact hprefix rfl
  obtain hlt | hgt := Nat.lt_or_gt_of_ne hne
  · interval_cases k <;> exact ⟨rfl, rfl⟩
  · interval_cases k <;> exact ⟨rfl, rfl⟩

theorem encode_decodeX1 : ∀ op : Byte, opX op = 1 →
    (decodeX1 op).wf = true ∧ encode (decodeX1 op) = [op] ∧ opLength op = 1 := by
  decide +kernel

theorem encode_decodeAlu : ∀ op : Byte, opX op = 2 →
    (decodeAlu (opY op) (reg8OfCode (opZ op))).wf = true
      ∧ encode (decodeAlu (opY op) (reg8OfCode (opZ op))) = [op] ∧ opLength op = 1 := by
  decide +kernel

/-- An entry of the primary table, back to its bytes: field `x` selects the rows. -/
theorem encode_decodePrimary {op : Byte} (hprefix : op ≠ 0xCB) (n1 n2 : Byte) : (decodePrimary op n1 n2).wf = true
    ∧ encode (decodePrimary op n1 n2) = [op, n1, n2].take (opLength op) := by
  have hlo : loByte (wordOf n2 n1) = n1 := loByte_append n2 n1
  have hhi : hiByte (wordOf n2 n1) = n2 := hiByte_append n2 n1
  have hlt : opX op < 4 := Nat.div_lt_of_lt_mul op.isLt
  obtain hx | hx | hx | hx : opX op = 0 ∨ opX op = 1 ∨ opX op = 2 ∨ opX op = 3 := by omega
  · simpa only [decodePrimary, hx, hlo, hhi] using encode_decodeX0 hx (wordOf n2 n1)
  · simp only [decodePrimary, hx, encode_decodeX1 op hx, List.take_succ_cons, List.take_zero, and_self]
  · simp only [decodePrimary, hx, encode_decodeAlu op hx, List.take_succ_cons, List.take_zero, and_self]
  · simpa only [decodePrimary, hx, hlo, hhi] using encode_decodeX3 hx hprefix (wordOf n2 n1)

theorem encode_decodeBytes (b0 b1 b2 : Byte) : (decodeBytes b0 b1 b2).wf = true
    ∧ encode (decodeBytes b0 b1 b2) = [b0, b1, b2].take (opLength b0) := by
  unfold decodeBytes
  split
  case isTrue h =>
    subst h
    exact encode_decodeExt b1
  case isFalse h => exact encode_decodePrimary h b1 b2

/-- The zeros that `decode` reads for missing bytes are no part of a whole instruction. -/
theorem take_cons_getD {b0 : Byte} {tl : List Byte} {k : Nat} (hk : k ≤ 3) (hlen : k ≤ tl.length + 1) :
    [b0, tl.getD 0 0, tl.getD 1 0].take k = (b0 :: tl).take k := by
  match tl with
  | [] =>
    change k ≤ 1 at hlen
    interval_cases k <;> rfl
  | [b1] =>
    change k ≤ 2 at hlen
    interval_cases k <;> rfl
  | b1 :: b2 :: tl => interval_cases k <;> rfl

/-! ## What `decode` answers -/

/-- A list that holds a whole instruction decodes to it and the bytes after it. -/
theorem decode_of_complete {b0 : Byte} {tl : List Byte} (h : opLength b0 ≤ tl.length + 1) : decode (b0 :: tl) =
    .ok (decodeBytes b0 (tl.getD 0 0) (tl.getD 1 0), (b0 :: tl).drop (opLength b0)) := by
  have hprefix : ¬(b0 = 0xCB ∧ tl = []) := by
    rintro ⟨rfl, rfl⟩
    exact absurd h (by decide)
  obtain ⟨hpos, -⟩ := opLength_bounds b0
  rw [decode, if_neg hprefix, if_neg (Nat.not_lt.2 h), List.drop_cons hpos]

/-- A list decodes as the lone byte 0xCB, or because it holds a whole instruction. -/
theorem decode_ok_cases {bs rest : List Byte} {i : Instr} (h : decode bs = .ok (i, rest)) :
    (bs = [0xCB] ∧ i = .prefixCb ∧ rest = [])
    ∨ ∃ b0 tl, bs = b0 :: tl ∧ opLength b0 ≤ tl.length + 1
        ∧ i = decodeBytes b0 (tl.getD 0 0) (tl.getD 1 0) ∧ rest = bs.drop (opLength b0) := by
  cases bs with
  | nil => cases h
  | cons b0 tl =>
    by_cases hlen : opLength b0 ≤ tl.length + 1
    · cases (decode_of_complete hlen).symm.trans h
      exact .inr ⟨b0, tl, rfl, hlen, rfl, rfl⟩
    · by_cases hprefix : b0 = 0xCB ∧ tl = []
      · rw [decode, if_pos hprefix] at h
        obtain ⟨rfl, rfl⟩ := hprefix
        cases h
        exact .inl ⟨rfl, rfl, rfl⟩
      · rw [decode, if_neg hprefix, if_pos (Nat.not_le.1 hlen)] at h
        cases h

end Sys2Proof.Machine

/-! PROOFS. The statements on the encoding (30_encoding.md). -/

namespace Sys2Proof.Machine

/-- Settles O1: the three bytes at the head of the encoding select the instruction, so it is as long as its first byte
says, and `decode` splits the list just behind it. -/
theorem decodeInvertsEncode : Obligations.DecodeInvertsEncode := by
  refine ⟨fun i rest hwf hprefix => ?_, rfl⟩
  obtain ⟨op, tl, henc, hback⟩ := decodesBack hwf hprefix
  have hlength : (encode i).length = opLength op := by
    rw [← hback []]
    exact encode_decodeBytes_length _ _ _
  have hcomplete : opLength op ≤ (tl ++ rest).length + 1 := by
    rw [← hlength, henc, List.length_cons, List.length_append]
    omega
  calc decode (encode i ++ rest)
    _ = .ok (i, (encode i ++ rest).drop (opLength op)) := by
      rw [henc, List.cons_append, decode_of_complete hcomplete, hback]
    _ = .ok (i, rest) := by rw [← hlength, List.drop_left]

/-- Settles O2: a list that decodes is the lone byte 0xCB, or holds a whole instruction, whose encoding is the bytes
that `decode` takes. -/
theorem encodeInvertsDecode : Obligations.EncodeInvertsDecode := by
  refine ⟨fun b0 b1 b2 => ⟨_, _, decode_three b0 b1 b2⟩, fun bs i rest h => ?_⟩
  obtain ⟨rfl, rfl, rfl⟩ | ⟨b0, tl, rfl, hcomplete, rfl, rfl⟩ := decode_ok_cases h
  · exact ⟨rfl, rfl⟩
  · obtain ⟨hwf, henc⟩ := encode_decodeBytes b0 (tl.getD 0 0) (tl.getD 1 0)
    obtain ⟨-, hle⟩ := opLength_bounds b0
    exact ⟨hwf, by rw [henc, take_cons_getD hle hcomplete, List.take_append_drop]⟩

/-- Settles O3: each word is closed, and the decoder computes on it. -/
theorem encodedWordsDecode : Obligations.EncodedWordsDecode :=
  ⟨rfl, rfl, rfl, rfl, rfl, rfl, rfl, rfl, rfl, rfl, rfl, rfl, rfl, rfl⟩

/-- Settles O4: all 256 bytes for the encoding; then the rows with `x` = 0 by operation and register, and the bit
instructions by their fields. -/
theorem extendedTableIsTotal : Obligations.ExtendedTableIsTotal := by
  refine ⟨encode_decodeExt, fun k r hk => ?_, fun k hk => ?_, fun b r => ?_, fun b => ?_⟩
  · interval_cases k <;> cases r <;> rfl
  · interval_cases k <;> rfl
  · rw [r8Code_eq]
    exact ⟨op8_fields 1 b r.code ▸ decodeExt_bitR b r, op8_fields 2 b r.code ▸ decodeExt_resR b r,
      op8_fields 3 b r.code ▸ decodeExt_setR b r⟩
  · exact ⟨op8_fields 1 b 6 ▸ decodeExt_bitHl b, op8_fields 2 b 6 ▸ decodeExt_resHl b,
      op8_fields 3 b 6 ▸ decodeExt_setHl b⟩

end Sys2Proof.Machine

/-! PROOFS. The step that runs an instruction (30_encoding.md R134; 60_exceptions.md R328). -/

namespace Sys2Proof.Machine

/-- From a machine that has not stopped, a CPU step that answers makes the step. -/
theorem step_of_cpuStep {s t : State} {m : Option Nat} (hfault : s.cpu.fault = none)
    (h : cpuStep (hostPhase s) = .next (t, m)) : step s = .next (advanceDevices m t) := by
  simp only [step, hfault, systemStep, h]

/-- The fetch finds the instruction that the three bytes at `pc` decode to, and moves `pc` past its encoding. -/
theorem fetch_of_decode {s : State} {i : Instr} {rest : List Byte}
    (h : decode [busRead s s.cpu.pc, busRead s (s.cpu.pc + 1), busRead s (s.cpu.pc + 2)] = .ok (i, rest)) :
    fetchInstr s = i ∧ afterFetch s = s.withCpu { s.cpu with
      pc := s.cpu.pc + BitVec.ofNat 16 (encode i).length
      ime := s.cpu.ime || s.cpu.eiPending
      eiPending := false } := by
  cases (decode_three _ _ _).symm.trans h
  exact ⟨rfl, by rw [encode_decodeBytes_length, afterFetch]⟩

/-- Settles O50: with neither a dispatch nor an idle step, the CPU step is `FetchExecute` with `halted` cleared, and
reads do not depend on `halted`. -/
theorem stepRunsTheDecodedInstruction : Obligations.StepRunsTheDecodedInstruction := by
  intro s i rest u hfault hdispatch hidle hdecode v
  obtain ⟨hime, hpending, -⟩ | ⟨-, hhalted, hpending, -⟩ | ⟨-, -, hcpu⟩ := cpuStep_cases u
  · exact absurd (hdispatch hime) hpending
  · exact absurd hpending (hidle hhalted)
  · obtain ⟨hinstr, hafter⟩ := fetch_of_decode (s := u.setHalted false) hdecode
    obtain ⟨t, hexec, hfetch⟩ := fetchExecute_next (u.setHalted false)
    rw [hinstr, hafter] at hexec hfetch
    exact ⟨t, hexec, step_of_cpuStep hfault (hcpu.trans hfetch)⟩

end Sys2Proof.Machine

/-! PROOFS. The 8-bit loads (40_load8.md R160 to R178): the bytes of the rows that hold an operand, the store with the
step of HL, then the three statements. What is left of each is the row's own arm of `encode`, `exec` and `cycles`. -/

namespace Sys2Proof.Machine

/-! ## The bytes of the rows with an operand -/

theorem encode_ldRR (dst src : Reg8) : encode (.ldRR dst src) = [op8 (0x40 + 8 * r8Code dst + r8Code src)] := by
  rw [encode, r8Code_eq, r8Code_eq]
  exact congrArg (fun op => [op]) (op8_fields 1 dst.code src.code).symm

theorem encode_ldRN (r : Reg8) (n : Byte) : encode (.ldRN r n) = [op8 (0x06 + 8 * r8Code r), n] := by
  cases r <;> rfl

theorem encode_ldRHl (r : Reg8) : encode (.ldRHl r) = [op8 (0x46 + 8 * r8Code r)] := by
  cases r <;> rfl

theorem encode_ldHlR (r : Reg8) : encode (.ldHlR r) = [op8 (0x70 + r8Code r)] := by
  cases r <;> rfl

theorem encode_ldANn (hi lo : Byte) : encode (.ldANn (hi ++ lo)) = [0xFA, lo, hi] := by
  rw [encode, loByte_append, hiByte_append]

theorem encode_ldNnA (hi lo : Byte) : encode (.ldNnA (hi ++ lo)) = [0xEA, lo, hi] := by
  rw [encode, loByte_append, hiByte_append]

/-! ## The high page (R171 to R174) -/

theorem loadA_highPage (n : Byte) (s : State) : loadA (highPage n) s = loadA (0xFF00 + n.zeroExtend 16) s := by
  rw [highPage_eq]

theorem storeA_highPage (n : Byte) (s : State) : storeA (highPage n) s = storeA (0xFF00 + n.zeroExtend 16) s := by
  rw [highPage_eq]

/-! ## A store of A, then the step of HL (R176, R178): the store leaves the CPU, so HL steps from its old value -/

theorem hlDec_storeA (a : Word) (s : State) :
    hlDec (storeA a s) = (busWrite a s.cpu.a s).withCpu (s.cpu.setHl (s.cpu.hl - 1)) := by
  rw [hlDec, storeA_cpu, storeA]

theorem hlInc_storeA (a : Word) (s : State) :
    hlInc (storeA a s) = (busWrite a s.cpu.a s).withCpu (s.cpu.setHl (s.cpu.hl + 1)) := by
  rw [hlInc, storeA_cpu, storeA]

/-! ## The statements -/

/-- Settles O5: the opcode holds the codes of the registers; effect and count are the row's own. -/
theorem loadRegisterForms : Obligations.LoadRegisterForms := fun _ =>
  ⟨fun dst src => ⟨encode_ldRR dst src, rfl, rfl⟩,
    fun r n => ⟨encode_ldRN r n, rfl, rfl⟩,
    fun r => ⟨encode_ldRHl r, rfl, rfl⟩,
    fun r => ⟨encode_ldHlR r, rfl, rfl⟩,
    fun _ => ⟨rfl, rfl, rfl⟩⟩

/-- Settles O6: the address is a pair, the two bytes after the opcode with the low one first, or a byte of the high
page. -/
theorem loadAccumulatorForms : Obligations.LoadAccumulatorForms := by
  intro s
  refine ⟨?ldABc, ?ldADe, ?ldBcA, ?ldDeA, fun lo hi => ?ldANn, fun lo hi => ?ldNnA, ?ldhAC, ?ldhCA, fun n => ?ldhAN,
    fun n => ?ldhNA⟩
  case ldABc | ldADe | ldBcA | ldDeA => exact ⟨rfl, rfl, rfl⟩
  case ldANn => exact ⟨encode_ldANn hi lo, rfl, rfl⟩
  case ldNnA => exact ⟨encode_ldNnA hi lo, rfl, rfl⟩
  case ldhAC => exact ⟨rfl, congrArg _ (loadA_highPage s.cpu.c s), rfl⟩
  case ldhCA => exact ⟨rfl, congrArg _ (storeA_highPage s.cpu.c s), rfl⟩
  case ldhAN => exact ⟨rfl, congrArg _ (loadA_highPage n s), rfl⟩
  case ldhNA => exact ⟨rfl, congrArg _ (storeA_highPage n s), rfl⟩

/-- Settles O7: a load writes A and leaves HL to step; a store leaves the whole CPU. -/
theorem loadAndStepHl : Obligations.LoadAndStepHl := fun s =>
  ⟨⟨rfl, rfl, rfl⟩,
    ⟨rfl, congrArg _ (hlDec_storeA s.cpu.hl s), rfl⟩,
    ⟨rfl, rfl, rfl⟩,
    ⟨rfl, congrArg _ (hlInc_storeA s.cpu.hl s), rfl⟩⟩

end Sys2Proof.Machine

/-! PROOFS. The 16-bit loads and the stack (41_load16_stack.md R185, R186, R190 to R196): the bytes of the rows with an
immediate word, what a written pair holds, then a pop after a push, which gives the pushed word back where the two stack
bytes stand on different places of RAM; then the three statements. -/

namespace Sys2Proof.Machine

/-! ## The bytes of the rows with an immediate word -/

theorem encode_ldRrNn (p : Reg16) (hi lo : Byte) :
    encode (.ldRrNn p (hi ++ lo)) = [op8 (0x01 + 16 * r16Code p), lo, hi] := by
  rw [encode, loByte_append, hiByte_append]
  cases p <;> rfl

theorem encode_ldNnSp (hi lo : Byte) : encode (.ldNnSp (hi ++ lo)) = [0x08, lo, hi] := by
  rw [encode, loByte_append, hiByte_append]

/-! ## Writing flags and pairs -/

/-- The flags of the adder of a signed displacement (43_alu16.md R240). -/
theorem addSpE_pack (w : Word) (e : Byte) : (addSpE w e).2.pack =
    flagByte false false (decide (w.toNat % 16 + e.toNat % 16 > 0x0F)) (decide (w.toNat % 256 + e.toNat > 0xFF)) :=
  pack_eq_flagByte _ _ _ _

theorem Cpu.setRegStk_bc (r : Cpu) (hi lo : Byte) : r.setRegStk .bc (hi ++ lo) = { r with b := hi, c := lo } := by
  rw [Cpu.setRegStk, hiByte_append, loByte_append]

theorem Cpu.setRegStk_de (r : Cpu) (hi lo : Byte) : r.setRegStk .de (hi ++ lo) = { r with d := hi, e := lo } := by
  rw [Cpu.setRegStk, hiByte_append, loByte_append]

theorem Cpu.setRegStk_hl (r : Cpu) (hi lo : Byte) : r.setRegStk .hl (hi ++ lo) = { r with h := hi, l := lo } := by
  rw [Cpu.setRegStk, Cpu.setHl, hiByte_append, loByte_append]

/-- The write to F is masked (R22, R196). -/
theorem Cpu.setRegStk_af (r : Cpu) (hi lo : Byte) :
    r.setRegStk .af (hi ++ lo) = { r with a := hi, f := lo &&& 0xF0 } := by
  rw [Cpu.setRegStk, Cpu.setF, hiByte_append, loByte_append]

theorem and_F0_of_low_nibble_zero {f : Byte} (h : f &&& 0x0F = 0) : f &&& 0xF0 = f := by
  have hsplit : f &&& (0x0F ||| 0xF0) = f := BitVec.and_allOnes
  rw [BitVec.and_or_distrib_left, h] at hsplit
  exact BitVec.zero_or.symm.trans hsplit

/-- Writing back its own AF changes nothing where F is a flag byte: the mask of R22 meets zeros. -/
theorem Cpu.setRegStk_af_self {c : Cpu} (hlow : c.f &&& 0x0F = 0) : c.setRegStk .af c.af = c := by
  rw [Cpu.af, wordOf, Cpu.setRegStk_af, and_F0_of_low_nibble_zero hlow]

/-! ## Push and pop -/

theorem word_sub_two_add_one (w : Word) : w - 2 + 1 = w - 1 := by bv_omega

theorem push16_eq_storeWordDown (v : Word) (s : State) :
    push16 v s = (storeWordDown (s.cpu.sp - 2) v s).withCpu { s.cpu with sp := s.cpu.sp - 2 } := by
  rw [push16_eq, storeWordDown, word_sub_two_add_one, applyStores_cons, applyStores_cons, applyStores_nil]

theorem popState_push16_cpu (v : Word) (s : State) : (popState (push16 v s)).cpu = s.cpu := by
  rw [popState, State.setSp_cpu, push16_cpu, BitVec.sub_add_cancel]

/-- What was pushed is popped: the low byte is written last, and the high byte is not on its place (R185, R186). -/
theorem popValue_push16 {s : State} (hs : s.devicesOk) (hhi : (target s (s.cpu.sp - 1)).isRam = true)
    (hlo : (target s (s.cpu.sp - 2)).isRam = true) (hne : target s (s.cpu.sp - 1) ≠ target s (s.cpu.sp - 2))
    (v : Word) : popValue (push16 v s) = v := by
  have hread (a : Word) : busRead (push16 v s) a =
      if target s a = target s (s.cpu.sp - 2) then loByte v
      else if target s a = target s (s.cpu.sp - 1) then hiByte v else busRead s a := by
    obtain ⟨-, -, -, hram, -⟩ := id hs
    obtain ⟨-, -, -, hram', -⟩ := busWrite_devicesOk hs (s.cpu.sp - 1) (hiByte v)
    have htarget := target_busWrite_ram hhi (hiByte v)
    rw [push16_eq, busRead_withCpu, applyStores_cons, applyStores_cons, applyStores_nil,
      busRead_busWrite_ram (Ram.wf_of_ok hram') (by rwa [htarget]), htarget, htarget,
      busRead_busWrite_ram (Ram.wf_of_ok hram) hhi]
  have hhigh : busRead (push16 v s) (s.cpu.sp - 1) = hiByte v := by rw [hread, if_neg hne, if_pos rfl]
  have hlow : busRead (push16 v s) (s.cpu.sp - 2) = loByte v := by rw [hread, if_pos rfl]
  rw [popValue, push16_cpu, word_sub_two_add_one, hhigh, hlow, wordOf_hiByte_loByte]

/-! ## The instructions -/

theorem exec_ldHlSpE (e : Byte) (s : State) : exec (.ldHlSpE e) s =
    .next (s.withCpu { s.cpu.setHl (s.cpu.sp + e.signExtend 16) with f := (addSpE s.cpu.sp e).2.pack }) := rfl

theorem exec_pushRr (p : Reg16Stk) (s : State) : exec (.pushRr p) s = .next (push16 (s.cpu.regStk p) s) := rfl

theorem exec_popRr (p : Reg16Stk) (s : State) : exec (.popRr p) s =
    .next (s.withCpu (Cpu.setRegStk { s.cpu with sp := s.cpu.sp + 2 } p
      (busRead s (s.cpu.sp + 1) ++ busRead s s.cpu.sp))) := rfl

/-- The row of `POP AF` does what `POP rr` would do with AF. -/
theorem exec_popAf (s : State) : exec .popAf s = exec (.popRr .af) s := rfl

/-! ## The statements -/

/-- Settles O10: the pop gives AF back and leaves the other cells of the CPU as the push found them; the mask loses
nothing, because F's low nibble is zero. -/
theorem pushAfPopAfRestores : Obligations.PushAfPopAfRestores := by
  intro s hs hhi hlo hne
  obtain ⟨hcpu, hdev⟩ := (State.inv_iff s).1 hs
  obtain ⟨hlow, -⟩ := (Cpu.ok_iff _).1 hcpu
  let t := push16 s.cpu.af s
  refine ⟨t, (popState t).withCpu ((popState t).cpu.setRegStk .af (popValue t)), rfl, rfl, ?_⟩
  rw [State.withCpu_cpu, popState_push16_cpu, popValue_push16 hdev hhi hlo hne, Cpu.setRegStk_af_self hlow]

/-- Settles O8: the immediate's low byte comes first in the instruction and in memory; the flags of `LD HL,SP+e` are
those of its adder. -/
theorem loadSixteenBit : Obligations.LoadSixteenBit := by
  intro s
  refine ⟨fun p lo hi => ?ldRrNn, fun lo hi => ?ldNnSp, ?ldSpHl, fun e => ?ldHlSpE⟩
  case ldRrNn => exact ⟨encode_ldRrNn p hi lo, rfl, rfl⟩
  case ldNnSp => exact ⟨encode_ldNnSp hi lo, rfl, rfl⟩
  case ldSpHl => exact ⟨rfl, rfl, rfl⟩
  case ldHlSpE => exact ⟨rfl, by rw [exec_ldHlSpE, addSpE_pack]; rfl, rfl⟩

/-- Settles O9: a push stores the pair downwards, a pop writes the pair with the two bytes read. -/
theorem pushAndPop : Obligations.PushAndPop := by
  intro s
  refine ⟨?pushBc, ?pushDe, ?pushHl, ?pushAf, ?popBc, ?popDe, ?popHl, ?popAf⟩
  case pushBc | pushDe | pushHl | pushAf => exact ⟨rfl, by rw [exec_pushRr, push16_eq_storeWordDown]; rfl, rfl⟩
  case popBc => exact ⟨rfl, by rw [exec_popRr, Cpu.setRegStk_bc], rfl⟩
  case popDe => exact ⟨rfl, by rw [exec_popRr, Cpu.setRegStk_de], rfl⟩
  case popHl => exact ⟨rfl, by rw [exec_popRr, Cpu.setRegStk_hl], rfl⟩
  case popAf => exact ⟨rfl, by rw [exec_popAf, exec_popRr, Cpu.setRegStk_af], rfl⟩

end Sys2Proof.Machine

/-! PROOFS. The 8-bit additions, subtractions, logic and single steps (42_alu8.md R200, R201, R203 to R230): the
opcode that holds a register, then result and flag byte of each computation, then the four statements. -/

namespace Sys2Proof.Machine

/-! ## The opcode of a row over a register in its low three bits -/

theorem op8_alu (k : BitVec 5) (r : Reg8) : op8 (8 * k.toNat + r8Code r) = k ++ r.code := by
  rw [r8Code_eq]
  generalize r.code = z
  revert k z
  decide +kernel

theorem encode_reg_eq_op8 (k : BitVec 5) (r : Reg8) : [k ++ r.code] = [op8 (8 * k.toNat + r8Code r)] := by
  rw [op8_alu]

theorem encode_incR (r : Reg8) : encode (.incR r) = [op8 (0x04 + 8 * r8Code r)] := by
  cases r <;> rfl

theorem encode_decR (r : Reg8) : encode (.decR r) = [op8 (0x05 + 8 * r8Code r)] := by
  cases r <;> rfl

/-! ## The states the rows end in -/

theorem State.withCpu_setAFlags (s : State) (r : Byte × Flags) :
    s.withCpu (s.cpu.setAFlags r) = s.withAF r.1 r.2.pack := rfl

theorem State.withF_busWrite (a : Word) (v f : Byte) (s : State) :
    (busWrite a v s).withF f = (busWrite a v s).withCpu { s.cpu with f := f } := by
  rw [State.withF, busWrite_cpu]

/-! ## Results and flag bytes, in the integers -/

/-- The Z flag of a result, on its number. -/
theorem decide_eq_zero (v : Byte) : decide (v = 0) = decide (v.toNat = 0) :=
  decide_eq_decide.2 (byte_eq_zero_iff v)

theorem add8_fst (a x : Byte) (cin : Bool) :
    (add8 a x cin).1 = BitVec.ofNat 8 ((a.toNat + x.toNat + cin.toNat) % 256) :=
  BitVec.eq_of_toNat_eq (by simp [add8])

theorem add8_pack (a x : Byte) (cin : Bool) : (add8 a x cin).2.pack =
    flagByte (decide ((a.toNat + x.toNat + cin.toNat) % 256 = 0)) false
      (decide (a.toNat % 16 + x.toNat % 16 + cin.toNat > 0x0F)) (decide (a.toNat + x.toNat + cin.toNat > 0xFF)) := by
  simp only [add8, pack_eq_flagByte, decide_eq_zero, BitVec.toNat_ofNat]

theorem andFlags_pack (v : Byte) : (andFlags v).pack = flagByte (decide (v.toNat = 0)) false true false := by
  rw [andFlags, pack_eq_flagByte, decide_eq_zero]

theorem orFlags_pack (v : Byte) : (orFlags v).pack = flagByte (decide (v.toNat = 0)) false false false := by
  rw [orFlags, pack_eq_flagByte, decide_eq_zero]

theorem add_one_eq_zero_iff (v : Byte) : v + 1 = 0 ↔ v.toNat = 0xFF := by bv_omega

theorem sub_one_eq_zero_iff (v : Byte) : v - 1 = 0 ↔ v.toNat = 0x01 := by bv_omega

theorem inc8_pack (v : Byte) (old : Flags) : (inc8 v old).2.pack =
    flagByte (decide (v.toNat = 0xFF)) false (decide (v.toNat % 16 = 0x0F)) old.c := by
  simp only [inc8, pack_eq_flagByte, add_one_eq_zero_iff]

theorem dec8_pack (v : Byte) (old : Flags) : (dec8 v old).2.pack =
    flagByte (decide (v.toNat = 0x01)) true (decide (v.toNat % 16 = 0x00)) old.c := by
  simp only [dec8, pack_eq_flagByte, sub_one_eq_zero_iff]

/-! ## The state after each computation -/

section

variable (x : Byte) (cin : Bool) (s : State)

theorem withCpu_add8 : s.withCpu (s.cpu.setAFlags (add8 s.cpu.a x cin)) =
    s.withAF (BitVec.ofNat 8 ((s.cpu.a.toNat + x.toNat + cin.toNat) % 256))
      (flagByte (decide ((s.cpu.a.toNat + x.toNat + cin.toNat) % 256 = 0)) false
        (decide (s.cpu.a.toNat % 16 + x.toNat % 16 + cin.toNat > 0x0F))
        (decide (s.cpu.a.toNat + x.toNat + cin.toNat > 0xFF))) := by
  rw [State.withCpu_setAFlags, add8_fst, add8_pack]

theorem withCpu_sub8 : s.withCpu (s.cpu.setAFlags (sub8 s.cpu.a x cin)) =
    s.withAF (BitVec.ofInt 8 (s.cpu.a.toNat - x.toNat - cin.toNat))
      (flagByte (decide (((s.cpu.a.toNat : Int) - x.toNat - cin.toNat) % 256 = 0)) true
        (decide (s.cpu.a.toNat % 16 < x.toNat % 16 + cin.toNat)) (decide (s.cpu.a.toNat < x.toNat + cin.toNat))) := by
  rw [State.withCpu_setAFlags, sub8_pack]
  rfl

theorem aluCp_eq : aluCp x s =
    s.withF (flagByte (decide (((s.cpu.a.toNat : Int) - x.toNat - false.toNat) % 256 = 0)) true
      (decide (s.cpu.a.toNat % 16 < x.toNat % 16 + false.toNat)) (decide (s.cpu.a.toNat < x.toNat + false.toNat))) := by
  rw [← sub8_pack]
  rfl

theorem withCpu_andFlags (v : Byte) : s.withCpu (s.cpu.setAFlags (v, andFlags v)) =
    s.withAF v (flagByte (decide (v.toNat = 0)) false true false) := by
  rw [State.withCpu_setAFlags, andFlags_pack]

theorem withCpu_orFlags (v : Byte) : s.withCpu (s.cpu.setAFlags (v, orFlags v)) =
    s.withAF v (flagByte (decide (v.toNat = 0)) false false false) := by
  rw [State.withCpu_setAFlags, orFlags_pack]

theorem exec_incR (r : Reg8) : exec (.incR r) s =
    .next ((s.withReg r (s.cpu.reg8 r + 1)).withF (inc8 (s.cpu.reg8 r) s.cpu.flags).2.pack) := rfl

theorem exec_decR (r : Reg8) : exec (.decR r) s =
    .next ((s.withReg r (s.cpu.reg8 r - 1)).withF (dec8 (s.cpu.reg8 r) s.cpu.flags).2.pack) := rfl

theorem exec_incHl : exec .incHl s =
    .next ((busWrite s.cpu.hl (atHl s + 1) s).withF (inc8 (atHl s) s.cpu.flags).2.pack) := by
  rw [State.withF_busWrite]
  rfl

theorem exec_decHl : exec .decHl s =
    .next ((busWrite s.cpu.hl (atHl s - 1) s).withF (dec8 (atHl s) s.cpu.flags).2.pack) := by
  rw [State.withF_busWrite]
  rfl

end

/-! ## The statements -/

/-- Settles O11: all six forms are `add8` of A and the operand, without or with the carry flag. -/
theorem addAndAddWithCarry : Obligations.AddAndAddWithCarry := fun s =>
  ⟨fun r => ⟨encode_reg_eq_op8 0b10000 r, congrArg _ (withCpu_add8 _ false s), rfl⟩,
    ⟨rfl, congrArg _ (withCpu_add8 _ false s), rfl⟩,
    fun _ => ⟨rfl, congrArg _ (withCpu_add8 _ false s), rfl⟩,
    fun r => ⟨encode_reg_eq_op8 0b10001 r, congrArg _ (withCpu_add8 _ (flagC s) s), rfl⟩,
    ⟨rfl, congrArg _ (withCpu_add8 _ (flagC s) s), rfl⟩,
    fun _ => ⟨rfl, congrArg _ (withCpu_add8 _ (flagC s) s), rfl⟩⟩

/-- Settles O12: all nine forms are `sub8` of A and the operand; CP drops its result. -/
theorem subtractAndCompare : Obligations.SubtractAndCompare := fun s =>
  ⟨fun r => ⟨encode_reg_eq_op8 0b10010 r, congrArg _ (withCpu_sub8 _ false s), rfl⟩,
    ⟨rfl, congrArg _ (withCpu_sub8 _ false s), rfl⟩,
    fun _ => ⟨rfl, congrArg _ (withCpu_sub8 _ false s), rfl⟩,
    fun r => ⟨encode_reg_eq_op8 0b10011 r, congrArg _ (withCpu_sub8 _ (flagC s) s), rfl⟩,
    ⟨rfl, congrArg _ (withCpu_sub8 _ (flagC s) s), rfl⟩,
    fun _ => ⟨rfl, congrArg _ (withCpu_sub8 _ (flagC s) s), rfl⟩,
    fun r => ⟨encode_reg_eq_op8 0b10111 r, congrArg _ (aluCp_eq _ s), rfl⟩,
    ⟨rfl, congrArg _ (aluCp_eq _ s), rfl⟩,
    fun _ => ⟨rfl, congrArg _ (aluCp_eq _ s), rfl⟩⟩

/-- Settles O13: the flags are those of the result, with Hf set by AND alone. -/
theorem andXorOr : Obligations.AndXorOr := fun s =>
  ⟨fun r => ⟨encode_reg_eq_op8 0b10100 r, congrArg _ (withCpu_andFlags s _), rfl⟩,
    ⟨rfl, congrArg _ (withCpu_andFlags s _), rfl⟩,
    fun _ => ⟨rfl, congrArg _ (withCpu_andFlags s _), rfl⟩,
    fun r => ⟨encode_reg_eq_op8 0b10101 r, congrArg _ (withCpu_orFlags s _), rfl⟩,
    ⟨rfl, congrArg _ (withCpu_orFlags s _), rfl⟩,
    fun _ => ⟨rfl, congrArg _ (withCpu_orFlags s _), rfl⟩,
    fun r => ⟨encode_reg_eq_op8 0b10110 r, congrArg _ (withCpu_orFlags s _), rfl⟩,
    ⟨rfl, congrArg _ (withCpu_orFlags s _), rfl⟩,
    fun _ => ⟨rfl, congrArg _ (withCpu_orFlags s _), rfl⟩⟩

/-- Settles O14: the flags are those of the operand before the step, with the old Cf. -/
theorem incrementAndDecrement : Obligations.IncrementAndDecrement := by
  intro s
  refine ⟨fun r => ⟨encode_incR r, ?incR, rfl⟩, ⟨rfl, ?incHl, rfl⟩, fun r => ⟨encode_decR r, ?decR, rfl⟩,
    ⟨rfl, ?decHl, rfl⟩⟩
  case incR => rw [exec_incR, inc8_pack]; rfl
  case incHl => rw [exec_incHl, inc8_pack]; rfl
  case decR => rw [exec_decR, dec8_pack]; rfl
  case decHl => rw [exec_decHl, dec8_pack]; rfl

end Sys2Proof.Machine

/-! PROOFS. DAA and the carry flag (42_alu8.md R231 to R234), and that DAA after ADC or SBC is decimal arithmetic. -/

namespace Sys2Proof.Machine

/-! ## The adjustment of DAA: 0x06 where the low digit needs it, 0x60 where the high one does -/

def daaLow (a : Byte) (old : Flags) : Bool := old.h || (!old.n && decide (a.toNat % 16 > 9))

def daaHigh (a : Byte) (old : Flags) : Bool := old.c || (!old.n && decide (a.toNat > 0x99))

def daaByte (low high : Bool) : Byte := (if low then 0x06 else 0x00) + (if high then 0x60 else 0x00)

theorem daaAdjust_eq (a : Byte) (old : Flags) : daaAdjust a old = daaByte (daaLow a old) (daaHigh a old) := by
  have hbits : ∀ h c low high : Bool, (if h then 0x06 else 0x00) ||| (if c then 0x60 else 0x00)
      ||| (if low then 0x06 else 0x00) ||| (if high then 0x60 else 0x00) = daaByte (h || low) (c || high) := by decide
  exact hbits old.h old.c _ _

theorem daaByte_toNat (low high : Bool) : (daaByte low high).toNat = 6 * low.toNat + 96 * high.toNat := by
  cases low <;> cases high <;> rfl

theorem daaByte_carry (low high : Bool) : decide ((daaByte low high).toNat ≥ 0x60) = high := by
  cases low <;> cases high <;> rfl

/-- The result of DAA. -/
def daaResult (a : Byte) (old : Flags) : Byte :=
  if old.n then a - daaByte (daaLow a old) (daaHigh a old) else a + daaByte (daaLow a old) (daaHigh a old)

theorem daa8_eq (a : Byte) (old : Flags) : daa8 a old =
    (daaResult a old, ⟨decide (daaResult a old = 0), old.n, false, daaHigh a old⟩) := by
  rw [daa8, daaAdjust_eq, daaByte_carry]
  rfl

theorem exec_daa (s : State) : exec .daa s = .next (s.withAF (daaResult s.cpu.a s.cpu.flags)
    (flagByte (decide ((daaResult s.cpu.a s.cpu.flags).toNat = 0)) (flagN s) false (daaHigh s.cpu.a s.cpu.flags))) := by
  rw [← decide_eq_zero, ← pack_eq_flagByte, ← flags_n]
  exact congrArg (fun r => Host.Outcome.next (s.withCpu (s.cpu.setAFlags r))) (daa8_eq s.cpu.a s.cpu.flags)

/-! ## CPL, SCF and CCF -/

theorem exec_cpl (s : State) :
    exec .cpl s = .next (s.withAF (~~~s.cpu.a) (flagByte (flagZ s) true true (flagC s))) := by
  rw [← pack_eq_flagByte]
  rfl

theorem exec_scf (s : State) : exec .scf s = .next (s.withF (flagByte (flagZ s) false false true)) := by
  rw [← pack_eq_flagByte]
  rfl

theorem exec_ccf (s : State) : exec .ccf s = .next (s.withF (flagByte (flagZ s) false false (!flagC s))) := by
  rw [← pack_eq_flagByte]
  rfl

/-! ## Packed decimal bytes -/

/-- Both hexadecimal digits are decimal. -/
def IsDecimal (v : Byte) : Prop := v.toNat % 16 < 10 ∧ v.toNat / 16 < 10

/-- The number a packed decimal byte stands for. -/
def decimal (v : Byte) : Nat := 10 * (v.toNat / 16) + v.toNat % 16

/-- The byte of a number below 100. -/
def packedDecimal (d : Nat) : Byte := BitVec.ofNat 8 (16 * (d / 10) + d % 10)

theorem packedDecimal_toNat {d : Nat} (hd : d < 100) : (packedDecimal d).toNat = 16 * (d / 10) + d % 10 := by
  rw [packedDecimal, BitVec.toNat_ofNat]
  omega

theorem packedDecimal_eq_zero_iff {d : Nat} (hd : d < 100) : packedDecimal d = 0 ↔ d = 0 := by
  rw [byte_eq_zero_iff, packedDecimal_toNat hd]
  omega

/-- The byte of a number's last two decimal digits. -/
theorem packedDecimal_mod_hundred {n k h l : Nat} (hh : h < 10) (hl : l < 10) (hn : n = 100 * k + 10 * h + l) :
    packedDecimal (n % 100) = BitVec.ofNat 8 (16 * h + l) := by
  have hmod : n % 100 = 10 * h + l := by omega
  rw [hmod, packedDecimal, Nat.mul_add_div (by decide), Nat.mul_add_mod, Nat.div_eq_of_lt hl, Nat.mod_eq_of_lt hl,
    Nat.add_zero]

/-- Taking the carry off a sum of two digits leaves a digit. -/
theorem toNat_decide_ge {m b : Nat} (hm : m < 2 * b) :
    b * (decide (m ≥ b)).toNat ≤ m ∧ m < b * (decide (m ≥ b)).toNat + b := by
  by_cases h : m ≥ b
  · rw [decide_eq_true h]
    exact ⟨by simpa using h, by simpa [two_mul] using hm⟩
  · rw [decide_eq_false h]
    exact ⟨by simp, by simpa using h⟩

/-- Adding the borrow to a difference of two digits leaves a digit. -/
theorem toNat_decide_lt {m k b : Nat} (hm : m < b) (hk : k ≤ b) :
    k ≤ m + b * (decide (m < k)).toNat ∧ m + b * (decide (m < k)).toNat < k + b := by
  by_cases h : m < k
  · rw [decide_eq_true h]
    exact ⟨by simp; omega, by simpa using h⟩
  · rw [decide_eq_false h]
    exact ⟨by simpa using h, by simp; omega⟩

/-! ## DAA after an addition or a subtraction of packed decimal bytes -/

/-- After a subtraction the low adjustment is the borrow into bit 4, whatever the digits. -/
theorem daaLow_sub8 (a x : Byte) (cin : Bool) : daaLow (sub8 a x cin).1 (sub8 a x cin).2 =
    decide (a.toNat % 16 < x.toNat % 16 + cin.toNat) := by
  change (decide _ || false) = _
  rw [Bool.or_false, decide_eq_decide]
  omega

section

variable {a x : Byte} (ha : IsDecimal a) (hx : IsDecimal x) (cin : Bool)
include ha hx

/-- The low digit is adjusted where the digits' sum leaves the decimal range. -/
theorem daaLow_add8 : daaLow (add8 a x cin).1 (add8 a x cin).2 =
    decide (a.toNat % 16 + x.toNat % 16 + cin.toNat ≥ 10) := by
  obtain ⟨hal, -⟩ := ha
  obtain ⟨hxl, -⟩ := hx
  have hc := cin.toNat_le
  change (decide _ || decide ((a.toNat + x.toNat + cin.toNat) % 256 % 16 > 9)) = _
  rw [← Bool.decide_or, decide_eq_decide]
  omega

/-- The high digit is adjusted where the decimal sum carries. -/
theorem daaHigh_add8 : daaHigh (add8 a x cin).1 (add8 a x cin).2 =
    decide (decimal a + decimal x + cin.toNat ≥ 100) := by
  obtain ⟨hal, hah⟩ := ha
  obtain ⟨hxl, hxh⟩ := hx
  have hc := cin.toNat_le
  change (decide _ || decide ((a.toNat + x.toNat + cin.toNat) % 256 > 0x99)) = _
  rw [← Bool.decide_or, decide_eq_decide]
  unfold decimal
  omega

/-- After a subtraction the binary borrow is the decimal one. -/
theorem daaHigh_sub8 : daaHigh (sub8 a x cin).1 (sub8 a x cin).2 =
    decide (decimal a < decimal x + cin.toNat) := by
  obtain ⟨hal, hah⟩ := ha
  obtain ⟨hxl, hxh⟩ := hx
  have hc := cin.toNat_le
  change (decide _ || false) = _
  rw [Bool.or_false, decide_eq_decide]
  unfold decimal
  obtain hlt | heq | hgt := lt_trichotomy (a.toNat / 16) (x.toNat / 16) <;> omega

/-- The two adjustments are the decimal carries: each takes 10 off its digit, and the digits left are those of the
decimal sum. -/
theorem daaResult_add8 : daaResult (add8 a x cin).1 (add8 a x cin).2 =
    packedDecimal ((decimal a + decimal x + cin.toNat) % 100) := by
  rw [daaResult, daaLow_add8 ha hx, daaHigh_add8 ha hx, if_neg (by simp [add8])]
  obtain ⟨hal, hah⟩ := ha
  obtain ⟨hxl, hxh⟩ := hx
  have hc := cin.toNat_le
  have hdec : decimal a + decimal x + cin.toNat < 2 * 100 := by unfold decimal; omega
  have hlow := toNat_decide_ge (m := a.toNat % 16 + x.toNat % 16 + cin.toNat) (b := 10) (by omega)
  have hhigh := toNat_decide_ge hdec
  generalize hl : decide (a.toNat % 16 + x.toNat % 16 + cin.toNat ≥ 10) = low at *
  generalize hh : decide (decimal a + decimal x + cin.toNat ≥ 100) = high at *
  unfold decimal at *
  rw [packedDecimal_mod_hundred (k := high.toNat) (h := a.toNat / 16 + x.toNat / 16 + low.toNat - 10 * high.toNat)
    (l := a.toNat % 16 + x.toNat % 16 + cin.toNat - 10 * low.toNat) (by omega) (by omega) (by omega)]
  apply BitVec.eq_of_toNat_eq
  rw [BitVec.toNat_add, daaByte_toNat, add8_fst, BitVec.toNat_ofNat, BitVec.toNat_ofNat, Nat.mod_mod, Nat.mod_add_mod]
  omega

/-- The two adjustments are the decimal borrows: each adds 10 to its digit, and the digits left are those of the
decimal difference. -/
theorem daaResult_sub8 : daaResult (sub8 a x cin).1 (sub8 a x cin).2 =
    packedDecimal ((100 + decimal a - decimal x - cin.toNat) % 100) := by
  rw [daaResult, daaLow_sub8, daaHigh_sub8 ha hx, if_pos (by simp [sub8])]
  obtain ⟨hal, hah⟩ := ha
  obtain ⟨hxl, hxh⟩ := hx
  have hc := cin.toNat_le
  have hlow := toNat_decide_lt (m := a.toNat % 16) (k := x.toNat % 16 + cin.toNat) (b := 10) (by omega) (by omega)
  have hhigh := toNat_decide_lt (m := decimal a) (k := decimal x + cin.toNat) (b := 100) (by unfold decimal; omega)
    (by unfold decimal; omega)
  generalize hl : decide (a.toNat % 16 < x.toNat % 16 + cin.toNat) = low at *
  generalize hh : decide (decimal a < decimal x + cin.toNat) = high at *
  unfold decimal at *
  have hone := high.toNat_le
  rw [packedDecimal_mod_hundred (k := 1 - high.toNat)
    (h := a.toNat / 16 + 10 * high.toNat - x.toNat / 16 - low.toNat)
    (l := a.toNat % 16 + 10 * low.toNat - x.toNat % 16 - cin.toNat) (by omega) (by omega) (by omega)]
  apply BitVec.eq_of_toNat_eq
  rw [BitVec.toNat_sub, daaByte_toNat, BitVec.toNat_ofNat, sub8, BitVec.toNat_ofInt]
  omega

end

/-! ## DAA after an instruction that writes A and the flags -/

/-- The state after DAA, where A and the flags are `r` before it. -/
def daaAfter (s : State) (r : Byte × Flags) : State := s.withCpu (s.cpu.setAFlags (daa8 r.1 r.2))

theorem exec_daa_after (s : State) (r : Byte × Flags) :
    exec .daa (s.withCpu (s.cpu.setAFlags r)) = .next (daaAfter s r) := by
  have hflags : (s.cpu.setAFlags r).flags = r.2 := ofByte_pack r.2
  rw [exec, execDaa, State.withCpu_cpu, hflags]
  rfl

theorem daaAfter_a (s : State) (r : Byte × Flags) : (daaAfter s r).cpu.a = daaResult r.1 r.2 :=
  congrArg Prod.fst (daa8_eq r.1 r.2)

theorem daaAfter_flags (s : State) (r : Byte × Flags) : (daaAfter s r).cpu.flags = (daa8 r.1 r.2).2 :=
  ofByte_pack (daa8 r.1 r.2).2

theorem flagC_daaAfter (s : State) (r : Byte × Flags) : flagC (daaAfter s r) = daaHigh r.1 r.2 := by
  rw [← flags_c, daaAfter_flags, daa8_eq]

theorem flagZ_daaAfter (s : State) (r : Byte × Flags) : flagZ (daaAfter s r) = decide (daaResult r.1 r.2 = 0) := by
  rw [← flags_z, daaAfter_flags, daa8_eq]

/-- DAA turns A and the flags `r` of a binary operation into the last two decimal digits of `d` and the carry or
borrow `c`. -/
theorem exec_daa_of_decimal (s : State) {r : Byte × Flags} {d : Nat} {c : Bool}
    (hd : daaResult r.1 r.2 = packedDecimal (d % 100)) (hc : daaHigh r.1 r.2 = c) :
    ∃ u, exec .daa (s.withCpu (s.cpu.setAFlags r)) = .next u ∧ u.cpu.a = packedDecimal (d % 100) ∧ flagC u = c
      ∧ flagZ u = decide (d % 100 = 0) := by
  refine ⟨daaAfter s r, exec_daa_after s r, (daaAfter_a s r).trans hd, (flagC_daaAfter s r).trans hc, ?_⟩
  rw [flagZ_daaAfter, hd]
  exact decide_eq_decide.2 (packedDecimal_eq_zero_iff (Nat.mod_lt d (by decide)))

/-! ## The statements -/

/-- Settles O15: each row's effect with its flag byte written out. -/
theorem adjustAndCarryFlag : Obligations.AdjustAndCarryFlag := fun s =>
  ⟨⟨rfl, exec_daa s, rfl⟩, ⟨rfl, exec_cpl s, rfl⟩, ⟨rfl, exec_scf s, rfl⟩, ⟨rfl, exec_ccf s, rfl⟩⟩

/-- Settles O16: ADC and SBC leave the flags by which DAA adjusts the binary result to the decimal one. -/
theorem daaIsDecimal : Obligations.DaaIsDecimal := by
  intro s n hal hah hnl hnh
  have ha : IsDecimal s.cpu.a := ⟨hal, hah⟩
  have hn : IsDecimal n := ⟨hnl, hnh⟩
  obtain ⟨u, hu⟩ := exec_daa_of_decimal s (daaResult_add8 ha hn (flagC s)) (daaHigh_add8 ha hn (flagC s))
  obtain ⟨v, hv⟩ := exec_daa_of_decimal s (daaResult_sub8 ha hn (flagC s)) (daaHigh_sub8 ha hn (flagC s))
  exact ⟨⟨_, u, rfl, hu⟩, ⟨_, v, rfl, hv⟩⟩

end Sys2Proof.Machine

/-! PROOFS. The flag table (42_alu8.md R202): what it means that an update of the CPU obeys a row, then every
instruction by the flags it writes. -/

namespace Sys2Proof.Machine

/-! ## Obeying a row of the table -/

theorem FlagEffect.allows_keep (b : Bool) : FlagEffect.keep.allows b b = true := beq_self_eq_true b

theorem FlagEffect.allows_flip (b : Bool) : FlagEffect.flip.allows b (!b) = true := by
  cases b <;> rfl

/-- Each flag of `d` is what its column allows after the flag of `c`; a row that keeps all four keeps F. -/
def FlagColumns.Obeyed (k : FlagColumns) (c d : Cpu) : Prop :=
  k.z.allows c.flags.z d.flags.z = true ∧ k.n.allows c.flags.n d.flags.n = true
    ∧ k.h.allows c.flags.h d.flags.h = true ∧ k.c.allows c.flags.c d.flags.c = true
    ∧ (k = ⟨.keep, .keep, .keep, .keep⟩ → d.f = c.f)

namespace FlagColumns.Obeyed

variable {k : FlagColumns} {c d : Cpu}

/-- A row that writes no flag is obeyed where F is the old one. -/
theorem of_keep (h : d.f = c.f) : Obeyed ⟨.keep, .keep, .keep, .keep⟩ c d := by
  have hfl : d.flags = c.flags := congrArg Flags.ofByte h
  rw [Obeyed, hfl]
  exact ⟨FlagEffect.allows_keep _, FlagEffect.allows_keep _, FlagEffect.allows_keep _, FlagEffect.allows_keep _,
    fun _ => h⟩

/-- A row that writes flags (all of them write Hf) is obeyed where the flags written are allowed. -/
theorem of_flags {fl : Flags} (hf : d.f = fl.pack) (hk : (k.h != .keep) = true)
    (hz : k.z.allows c.flags.z fl.z = true) (hn : k.n.allows c.flags.n fl.n = true)
    (hh : k.h.allows c.flags.h fl.h = true) (hc : k.c.allows c.flags.c fl.c = true) : Obeyed k c d := by
  have hfl : d.flags = fl := (congrArg Flags.ofByte hf).trans (ofByte_pack fl)
  rw [Obeyed, hfl]
  refine ⟨hz, hn, hh, hc, fun h => ?_⟩
  rw [h] at hk
  cases hk

end FlagColumns.Obeyed

/-! ## F after the operations that keep it -/

theorem Cpu.setReg16_f (c : Cpu) (p : Reg16) (v : Word) : (c.setReg16 p v).f = c.f := by
  cases p <;> rfl

theorem raiseIllegal_f (op : Byte) (s : State) : (raiseIllegal op s).cpu.f = s.cpu.f := by
  rw [raiseIllegal_cpu]
  split <;> rfl

theorem push16_f (v : Word) (s : State) : (push16 v s).cpu.f = s.cpu.f := by
  rw [push16_cpu]

theorem callTo_f (dest : Word) (s : State) : (callTo dest s).cpu.f = s.cpu.f := by
  rw [callTo_cpu]

/-! ## Every instruction -/

/-- An instruction obeys its row: by the flags it packs into F, grouped by the columns that keep or complement a flag
(the others are fixed or free), or because it keeps F. The bare 0xCB byte, which runs another instruction, stands
apart. -/
theorem exec_flags_of_ne_prefixCb {i : Instr} (hi : i ≠ .prefixCb) {s t : State} (h : exec i s = .next t) :
    (flagColumns (resolve s i)).Obeyed s.cpu t.cpu := by
  cases i with
  | prefixCb => exact absurd rfl hi
  | addR | addHl | addN | adcR | adcHl | adcN | subR | subHl | subN | sbcR | sbcHl | sbcN | cpR | cpHl | cpN
  | andR | andHl | andN | xorR | xorHl | xorN | orR | orHl | orN | addSpE | ldHlSpE | rlca | rrca | rla | rra
  | rlcR | rlcHl | rrcR | rrcHl | rlR | rlHl | rrR | rrHl | slaR | slaHl | sraR | sraHl | srlR | srlHl | swapR
  | swapHl => cases h; exact .of_flags rfl rfl rfl rfl rfl rfl
  | incR | incHl | decR | decHl | bitR | bitHl =>
    cases h; exact .of_flags rfl rfl rfl rfl rfl (FlagEffect.allows_keep _)
  | daa => cases h; exact .of_flags rfl rfl rfl (FlagEffect.allows_keep _) rfl rfl
  | cpl => cases h; exact .of_flags rfl rfl (FlagEffect.allows_keep _) rfl rfl (FlagEffect.allows_keep _)
  | ccf => cases h; exact .of_flags rfl rfl (FlagEffect.allows_keep _) rfl rfl (FlagEffect.allows_flip _)
  | scf | addHlRr => cases h; exact .of_flags rfl rfl (FlagEffect.allows_keep _) rfl rfl rfl
  | popAf => cases h; exact ⟨rfl, rfl, rfl, rfl, nofun⟩
  | popRr p =>
    cases h
    cases p with
    | af => exact ⟨rfl, rfl, rfl, rfl, nofun⟩
    | bc | de | hl => exact .of_keep rfl
  | nop | stop | halt | di | ei | ldABc | ldADe | ldANn | ldhAC | ldhAN | ldAHld | ldAHli | ldSpHl | jpNn | jpHl | jrE
  | ret | reti => cases h; exact .of_keep rfl
  | ldRR | ldRN | ldRHl | resR | setR => cases h; exact .of_keep (Cpu.setReg8_f _ _ _)
  | ldRrNn | incRr | decRr => cases h; exact .of_keep (Cpu.setReg16_f _ _ _)
  | ldHlR | ldHlN | resHl | setHl => cases h; exact .of_keep (congrArg Cpu.f (storeHl_cpu _ s))
  | ldBcA | ldDeA | ldNnA | ldhCA | ldhNA => cases h; exact .of_keep (congrArg Cpu.f (storeA_cpu _ s))
  | ldHldA => cases h; exact .of_keep (congrArg (fun t => t.cpu.f) (hlDec_storeA _ s))
  | ldHliA => cases h; exact .of_keep (congrArg (fun t => t.cpu.f) (hlInc_storeA _ s))
  | ldNnSp => cases h; exact .of_keep (congrArg Cpu.f (memWrite16_cpu _ _ s))
  | pushRr => cases h; exact .of_keep (push16_f _ s)
  | callNn | rst => cases h; exact .of_keep (callTo_f _ s)
  | jpCcNn | jrCcE | retCc =>
    cases h
    split <;> exact .of_keep rfl
  | callCcNn cc nn =>
    cases h
    split
    · exact .of_keep (callTo_f nn s)
    · exact .of_keep rfl
  | illegalD3 | illegalDB | illegalDD | illegalE3 | illegalE4 | illegalEB | illegalEC | illegalED | illegalF4
  | illegalFC | illegalFD => cases h; exact .of_keep (raiseIllegal_f _ s)

/-- Settles O28: by the flags each instruction writes; the bare 0xCB byte runs an extended instruction, which is not
0xCB again, and obeys that one's row. -/
theorem flagColumnsHold : Obligations.FlagColumnsHold := by
  intro i s t h
  by_cases hi : i = .prefixCb
  · subst hi
    obtain ⟨hplain, hresolve⟩ := decodeExt_plain (busRead s s.cpu.pc) (s.setPc (s.cpu.pc + 1))
    obtain ⟨-, hne, -⟩ := (isPlain_iff _).1 hplain
    have hobeyed := exec_flags_of_ne_prefixCb hne ((exec_decodeExt _ _).trans h)
    rwa [hresolve] at hobeyed
  · exact exec_flags_of_ne_prefixCb hi h

end Sys2Proof.Machine

/-! PROOFS. The 16-bit arithmetic (43_alu16.md R240 to R244): the opcode that holds a pair, the flag byte of `ADD HL,rr`
in the integers, then the statement. The flag byte of `ADD SP,e` is `addSpE_pack`, shared with `LD HL,SP+e`. -/

namespace Sys2Proof.Machine

/-! ## The opcode of a row over a pair -/

theorem op8_pair (k : BitVec 4) (p : Reg16) : op8 (k.toNat + 16 * r16Code p) = 0b00#2 ++ p.code ++ k := by
  cases p <;> revert k <;> decide

theorem encode_pair_eq_op8 (k : BitVec 4) (p : Reg16) :
    [0b00#2 ++ p.code ++ k] = [op8 (k.toNat + 16 * r16Code p)] := by
  rw [op8_pair]

/-! ## The additions -/

/-- The flags of `ADD HL,rr`: Z is the old one, whatever the sum (R241). -/
theorem add16_pack (a b : Word) (old : Flags) : (add16 a b old).2.pack =
    flagByte old.z false (decide (a.toNat % 0x1000 + b.toNat % 0x1000 > 0x0FFF))
      (decide (a.toNat + b.toNat > 0xFFFF)) :=
  pack_eq_flagByte _ _ _ _

theorem exec_addHlRr (p : Reg16) (s : State) : exec (.addHlRr p) s =
    .next (s.withCpu { s.cpu.setHl (s.cpu.hl + s.cpu.reg16 p) with
      f := (add16 s.cpu.hl (s.cpu.reg16 p) s.cpu.flags).2.pack }) := rfl

theorem exec_addSpE (e : Byte) (s : State) : exec (.addSpE e) s =
    .next (s.withCpu { s.cpu with sp := s.cpu.sp + e.signExtend 16, f := (addSpE s.cpu.sp e).2.pack }) := rfl

/-! ## The statement -/

/-- Settles O17: the additions write the sum and the flag byte of their adder; INC and DEC write the pair alone. -/
theorem sixteenBitArithmetic : Obligations.SixteenBitArithmetic := by
  intro s
  refine ⟨fun p => ⟨encode_pair_eq_op8 0b1001 p, ?addHlRr, rfl⟩, fun p => ⟨encode_pair_eq_op8 0b0011 p, rfl, rfl⟩,
    fun p => ⟨encode_pair_eq_op8 0b1011 p, rfl, rfl⟩, fun e => ⟨rfl, ?addSpE, rfl⟩⟩
  case addHlRr => rw [exec_addHlRr, add16_pack]; rfl
  case addSpE => rw [exec_addSpE, addSpE_pack]

end Sys2Proof.Machine

/-! PROOFS. The rotates, shifts and bit instructions (44_rotate_shift_bit.md R250 to R276): the opcode after 0xCB, then
the state after a rotate, given its result and its carry, and the flag byte of BIT; then the four statements. -/

namespace Sys2Proof.Machine

/-! ## The byte after 0xCB -/

theorem encode_extReg_eq_op8 (k : BitVec 5) (r : Reg8) :
    [0xCB, k ++ r.code] = [0xCB, op8 (8 * k.toNat + r8Code r)] := by
  rw [op8_alu]

theorem encode_bitReg_eq_op8 (x : BitVec 2) (b : BitVec 3) (r : Reg8) :
    [0xCB, x ++ b ++ r.code] = [0xCB, op8 (64 * x.toNat + 8 * b.toNat + r8Code r)] := by
  rw [r8Code_eq, op8_fields]

/-- Register code 6 is the byte at HL (R132). -/
theorem encode_bitHl_eq_op8 (x : BitVec 2) (b : BitVec 3) :
    [0xCB, x ++ b ++ 0b110#3] = [0xCB, op8 (64 * x.toNat + 6 + 8 * b.toNat)] := by
  rw [Nat.add_right_comm (64 * x.toNat) 6]
  exact congrArg (fun op => [0xCB, op]) (op8_fields x b 0b110).symm

/-! ## The state after a rotate, from its result and the bit that left -/

section

variable {k : RotKind} {s : State} {v : Byte} {co : Bool}

theorem rotAcc_eq (h : rotOp k s.cpu.a (flagC s) = (v, co)) :
    rotAcc k s = s.withAF v (flagByte false false false co) := by
  rw [rotAcc, flags_c, h, State.withCpu_setAFlags, rotAccFlags, pack_eq_flagByte]

/-- The flags of the register and `(HL)` forms: unlike the accumulator forms they set Z on a zero result. -/
theorem rotFlags_pack (v : Byte) (co : Bool) :
    (rotFlags v co).pack = flagByte (decide (v.toNat = 0)) false false co := by
  rw [rotFlags, pack_eq_flagByte, decide_eq_zero]

theorem rotReg_eq {r : Reg8} (h : rotOp k (s.cpu.reg8 r) (flagC s) = (v, co)) :
    rotReg k r s = (s.withReg r v).withF (flagByte (decide (v.toNat = 0)) false false co) := by
  rw [rotReg, flags_c, h, ← rotFlags_pack]
  rfl

theorem rotHl_eq (h : rotOp k (busRead s s.cpu.hl) (flagC s) = (v, co)) :
    rotHl k s = (busWrite s.cpu.hl v s).withF (flagByte (decide (v.toNat = 0)) false false co) := by
  rw [rotHl, atHl, flags_c, h, ← rotFlags_pack, State.withF_busWrite]
  rfl

end

/-! ## The tested bit -/

theorem not_bitOf_eq (v : Byte) (i : Nat) : (!bitOf v i) = decide (v.toNat / 2 ^ i % 2 = 0) := by
  rw [bitOf, BitVec.getLsbD, Nat.testBit_eq_decide_div_mod_eq, ← decide_not, decide_eq_decide,
    Nat.mod_two_not_eq_one]

theorem bitFlags_pack (v : Byte) (b : BitVec 3) (old : Flags) :
    (bitFlags v b old).pack = flagByte (decide (v.toNat / 2 ^ b.toNat % 2 = 0)) false true old.c := by
  rw [bitFlags, pack_eq_flagByte, not_bitOf_eq]

/-- BIT writes F alone; Cf is the old one (R271, R272). -/
theorem withCpu_bitFlags (v : Byte) (b : BitVec 3) (s : State) :
    s.withCpu (s.cpu.setFlags (bitFlags v b s.cpu.flags)) =
      s.withF (flagByte (decide (v.toNat / 2 ^ b.toNat % 2 = 0)) false true (flagC s)) := by
  rw [← flags_c, ← bitFlags_pack]
  rfl

/-! ## The statements -/

/-- Settles O18: the rotate of A, with a flag byte that holds the bit that left and nothing else. -/
theorem accumulatorRotates : Obligations.AccumulatorRotates := by
  intro s
  obtain ⟨hrlc, hrrc, hrl, hrr, -⟩ := rotOp_eq s.cpu.a (flagC s)
  exact ⟨⟨rfl, congrArg _ (rotAcc_eq hrlc), rfl⟩,
    ⟨rfl, congrArg _ (rotAcc_eq hrrc), rfl⟩,
    ⟨rfl, congrArg _ (rotAcc_eq hrl), rfl⟩,
    ⟨rfl, congrArg _ (rotAcc_eq hrr), rfl⟩⟩

/-- Settles O19: the operation stands in bits 5 to 3 of the second opcode byte, the register in bits 2 to 0. -/
theorem rotateShiftRegister : Obligations.RotateShiftRegister := by
  intro s r
  obtain ⟨hrlc, hrrc, hrl, hrr, hsla, hsra, hswap, hsrl⟩ := rotOp_eq (s.cpu.reg8 r) (flagC s)
  exact ⟨⟨encode_extReg_eq_op8 0b00000 r, congrArg _ (rotReg_eq hrlc), rfl⟩,
    ⟨encode_extReg_eq_op8 0b00001 r, congrArg _ (rotReg_eq hrrc), rfl⟩,
    ⟨encode_extReg_eq_op8 0b00010 r, congrArg _ (rotReg_eq hrl), rfl⟩,
    ⟨encode_extReg_eq_op8 0b00011 r, congrArg _ (rotReg_eq hrr), rfl⟩,
    ⟨encode_extReg_eq_op8 0b00100 r, congrArg _ (rotReg_eq hsla), rfl⟩,
    ⟨encode_extReg_eq_op8 0b00101 r, congrArg _ (rotReg_eq hsra), rfl⟩,
    ⟨encode_extReg_eq_op8 0b00110 r, congrArg _ (rotReg_eq hswap), rfl⟩,
    ⟨encode_extReg_eq_op8 0b00111 r, congrArg _ (rotReg_eq hsrl), rfl⟩⟩

/-- Settles O20: the write to HL leaves the CPU, so the flags are set on the CPU before it. -/
theorem rotateShiftMemory : Obligations.RotateShiftMemory := by
  intro s
  obtain ⟨hrlc, hrrc, hrl, hrr, hsla, hsra, hswap, hsrl⟩ := rotOp_eq (busRead s s.cpu.hl) (flagC s)
  exact ⟨⟨rfl, congrArg _ (rotHl_eq hrlc), rfl⟩,
    ⟨rfl, congrArg _ (rotHl_eq hrrc), rfl⟩,
    ⟨rfl, congrArg _ (rotHl_eq hrl), rfl⟩,
    ⟨rfl, congrArg _ (rotHl_eq hrr), rfl⟩,
    ⟨rfl, congrArg _ (rotHl_eq hsla), rfl⟩,
    ⟨rfl, congrArg _ (rotHl_eq hsra), rfl⟩,
    ⟨rfl, congrArg _ (rotHl_eq hswap), rfl⟩,
    ⟨rfl, congrArg _ (rotHl_eq hsrl), rfl⟩⟩

/-- Settles O21: BIT writes F, RES and SET the place they read; bit number and register are fields of the second opcode
byte. -/
theorem bitTestResetSet : Obligations.BitTestResetSet := fun s b =>
  ⟨fun r => ⟨encode_bitReg_eq_op8 0b01 b r, congrArg _ (withCpu_bitFlags _ b s), rfl⟩,
    ⟨encode_bitHl_eq_op8 0b01 b, congrArg _ (withCpu_bitFlags _ b s), rfl⟩,
    fun r => ⟨encode_bitReg_eq_op8 0b10 b r, rfl, rfl⟩,
    ⟨encode_bitHl_eq_op8 0b10 b, rfl, rfl⟩,
    fun r => ⟨encode_bitReg_eq_op8 0b11 b r, rfl, rfl⟩,
    ⟨encode_bitHl_eq_op8 0b11 b, rfl, rfl⟩⟩

end Sys2Proof.Machine

/-! PROOFS. Jumps, calls and returns (45_control_flow.md R280 to R291): the opcode that holds a condition, one rule for
all conditional forms, the states that a jump, a call and a return end in; then the three statements. -/

namespace Sys2Proof.Machine

/-! ## The opcode of a row over a condition, and of `RST` -/

theorem op8_cond (x z : BitVec 3) (cc : Cond) :
    op8 (32 * x.toNat + z.toNat + 8 * ccCode cc) = x ++ cc.code ++ z := by
  cases cc <;> revert x z <;> decide

theorem encode_jpCcNn (cc : Cond) (hi lo : Byte) :
    encode (.jpCcNn cc (hi ++ lo)) = [op8 (0xC2 + 8 * ccCode cc), lo, hi] := by
  rw [encode, loByte_append, hiByte_append, ← op8_cond]
  rfl

theorem encode_jrCcE (cc : Cond) (e : Byte) : encode (.jrCcE cc e) = [op8 (0x20 + 8 * ccCode cc), e] := by
  rw [encode, ← op8_cond]
  rfl

theorem encode_callCcNn (cc : Cond) (hi lo : Byte) :
    encode (.callCcNn cc (hi ++ lo)) = [op8 (0xC4 + 8 * ccCode cc), lo, hi] := by
  rw [encode, loByte_append, hiByte_append, ← op8_cond]
  rfl

theorem encode_retCc (cc : Cond) : encode (.retCc cc) = [op8 (0xC0 + 8 * ccCode cc)] := by
  rw [encode, ← op8_cond]
  rfl

theorem encode_jpNn (hi lo : Byte) : encode (.jpNn (hi ++ lo)) = [0xC3, lo, hi] := by
  rw [encode, loByte_append, hiByte_append]

theorem encode_callNn (hi lo : Byte) : encode (.callNn (hi ++ lo)) = [0xCD, lo, hi] := by
  rw [encode, loByte_append, hiByte_append]

/-- The restart number stands in bits 5 to 3 (R291). -/
theorem encode_rst (t : BitVec 3) : encode (.rst t) = [op8 (0xC7 + 8 * t.toNat)] := by
  rw [encode, ← op8_fields, Nat.add_right_comm]
  rfl

/-! ## The effects -/

/-- A conditional form is decided by `cc` on the flags after the fetch, in effect and count alike; with `cc` false it
changes nothing (R280, R282, R285, R287, R289). -/
theorem does_conditional {i : Instr} {bytes : List Byte} {cc : Cond} {s t : State} {taken notTaken : Nat}
    (hencode : encode i = bytes) (hexec : exec i s = .next (if condHolds cc s.cpu.flags then t else s))
    (hcycles : cycles i s = condCycles cc s taken notTaken) :
    Does i bytes s (if condTrue cc s then t else s) (if condTrue cc s then taken else notTaken) := by
  rw [condHolds_eq_condTrue] at hexec
  rw [condCycles, condHolds_eq_condTrue] at hcycles
  exact ⟨hencode, hexec, hcycles⟩

/-- The target of a relative jump in the integers (R284). -/
theorem jumpRel_eq (e : Byte) (s : State) :
    jumpRel e s = s.withCpu { s.cpu with pc := BitVec.ofInt 16 (s.cpu.pc.toNat + e.toInt) } := by
  rw [← add_sext16]
  rfl

/-- A call is the push of `pc` and the jump (R286). -/
theorem callTo_eq_storeWordDown (dest : Word) (s : State) : callTo dest s =
    (storeWordDown (s.cpu.sp - 2) s.cpu.pc s).withCpu { s.cpu with sp := s.cpu.sp - 2, pc := dest } := by
  rw [callTo, push16_eq_storeWordDown]
  rfl

/-! ## The statements -/

/-- Settles O22: each form writes `pc` alone; the displacement of JR is added in the integers. -/
theorem jumps : Obligations.Jumps := by
  intro s
  refine ⟨fun lo hi => ?jpNn, fun cc lo hi => ?jpCcNn, ?jpHl, fun e => ?jrE, fun cc e => ?jrCcE⟩
  case jpNn => exact ⟨encode_jpNn hi lo, rfl, rfl⟩
  case jpCcNn => exact does_conditional (encode_jpCcNn cc hi lo) rfl rfl
  case jpHl => exact ⟨rfl, rfl, rfl⟩
  case jrE => exact ⟨rfl, congrArg _ (jumpRel_eq e s), rfl⟩
  case jrCcE => simp only [← jumpRel_eq]; exact does_conditional (encode_jrCcE cc e) rfl rfl

/-- Settles O23: all three forms are `callTo`, with the target in the two bytes after the opcode or in the opcode. -/
theorem callsAndRestarts : Obligations.CallsAndRestarts := by
  intro s
  simp only [← callTo_eq_storeWordDown]
  exact ⟨fun lo hi => ⟨encode_callNn hi lo, rfl, rfl⟩,
    fun cc lo hi => does_conditional (encode_callCcNn cc hi lo) rfl rfl,
    fun t => ⟨encode_rst t, rfl, rfl⟩⟩

/-- Settles O24: the word at `sp` goes to `pc`; RETI writes IME with it and leaves `ei_pending`. -/
theorem returns : Obligations.Returns := fun _ =>
  ⟨⟨rfl, rfl, rfl⟩, fun cc => does_conditional (encode_retCc cc) rfl rfl, ⟨rfl, rfl, rfl⟩⟩

end Sys2Proof.Machine

/-! PROOFS. CPU control, the row of 0xCB and the undefined opcodes (46_cpu_control.md R300 to R306): each instruction,
then the steps around them (60_exceptions.md R328). -/

namespace Sys2Proof.Machine

/-! ## The instructions -/

/-- By the fields of `op2`, as in `exec_decodeExt`: 2 cycles on a register; on `(HL)` the rows with `x` = 1 take 3. -/
theorem cycles_decodeExt (op2 : Byte) (s : State) : cycles (decodeExt op2) s = some (extCycles op2) := by
  unfold decodeExt extCycles
  dsimp only
  generalize opX op2 = x, reg8OfCode (opZ op2) = r, opY op2 = y
  obtain _ | _ | _ | x := x
  case zero => cases r <;> obtain _ | _ | _ | _ | _ | _ | _ | y := y <;> rfl
  all_goals cases r <;> rfl

theorem encode_illegal {i : Instr} {op : Byte} (h : illegalOp i = some op) : encode i = [op] := by
  cases i <;> cases h <;> rfl

theorem cycles_illegal {i : Instr} {op : Byte} (h : illegalOp i = some op) (s : State) :
    cycles i s = illegalCycles s := by
  cases i <;> cases h <;> rfl

theorem raiseIllegal_of_fault {s : State} (h : s.cfg.illegalPolicy = .fault) (op : Byte) : raiseIllegal op s =
    s.withCpu { s.cpu with pc := s.cpu.pc - 1, fault := some ⟨op, s.cpu.pc - 1⟩ } := by
  rw [raiseIllegal, h]

theorem raiseIllegal_of_nop {s : State} (h : s.cfg.illegalPolicy = .nop) (op : Byte) : raiseIllegal op s = s := by
  rw [raiseIllegal, h]

theorem illegalCycles_of_fault {s : State} (h : s.cfg.illegalPolicy = .fault) : illegalCycles s = none := by
  rw [illegalCycles, h]

theorem illegalCycles_of_nop {s : State} (h : s.cfg.illegalPolicy = .nop) : illegalCycles s = some 1 := by
  rw [illegalCycles, h]

/-- Settles O25: each row is one update of the control cells, or none. -/
theorem cpuControl : Obligations.CpuControl := fun _ =>
  ⟨⟨rfl, rfl, rfl⟩, ⟨rfl, rfl, rfl⟩, fun _ => ⟨rfl, rfl, rfl⟩, ⟨rfl, rfl, rfl⟩, ⟨rfl, rfl, rfl⟩⟩

/-- Settles O26: the meaning and the count of the row of 0xCB are those of the extended table, and every instruction
completes (`exec_shape`). -/
theorem prefixRunsExtended : Obligations.PrefixRunsExtended := by
  intro s i s'
  have hcycles : cycles .prefixCb s = some (extCycles (busRead s s.cpu.pc)) := rfl
  obtain ⟨l, c, hnext⟩ := exec_shape .prefixCb s
  exact ⟨rfl, (exec_decodeExt _ s').symm, hcycles.trans (cycles_decodeExt _ s').symm, _, _, hnext, hcycles⟩

/-- Settles O27: the undefined opcodes share one meaning, `raiseIllegal`, and one count, each decided by the policy. -/
theorem undefinedOpcodes_hold : Obligations.UndefinedOpcodes := by
  intro s i op h
  rw [exec_illegal h, cycles_illegal h]
  refine ⟨encode_illegal h, mem_undefinedOpcodes_of_illegalOp h, fun hfault => ?fault, fun hnop => ?nop⟩
  case fault => exact ⟨congrArg _ (raiseIllegal_of_fault hfault op), illegalCycles_of_fault hfault⟩
  case nop => exact ⟨congrArg _ (raiseIllegal_of_nop hnop op), illegalCycles_of_nop hnop⟩

/-! ## The step that fetches -/

theorem step_of_running {s : State} (h : s.cpu.fault = none) : step s = systemStep (hostPhase s) := by
  rw [step, h]

theorem step_of_fault {s : State} {x : IllegalOpcode} (h : s.cpu.fault = some x) :
    step s = .fault (.stopped x.op x.addr) := by
  rw [step, h]

theorem hostPhase_of_nil {s : State} (h : s.hostInput = []) : hostPhase s = s := by
  rw [hostPhase, h]

theorem advanceDevices_hostInput (m : Option Nat) (s : State) : (advanceDevices m s).hostInput = s.hostInput := by
  obtain ⟨-, -, -, -, -, -, -, hinput, -⟩ := devicesFrame m s
  exact hinput

/-- What makes the next step of `s` fetch at once: the machine has neither stopped nor halted, no host action is due,
and no interrupt is dispatched. -/
structure State.FetchesNext (s : State) : Prop where
  running     : s.cpu.fault = none
  noHost      : s.hostInput = []
  awake       : s.cpu.halted = false
  noInterrupt : s.cpu.ime = true → pending s = 0

/-- The state after the fetch of a one-byte instruction (30_encoding.md R134). -/
def State.fetchedByte (s : State) : State :=
  s.withCpu { s.cpu with pc := s.cpu.pc + 1, ime := s.cpu.ime || s.cpu.eiPending, eiPending := false }

theorem afterFetch_of_opLength_one {s : State} (h : opLength (busRead s s.cpu.pc) = 1) :
    afterFetch s = s.fetchedByte := by
  rw [afterFetch, h]
  rfl

theorem State.FetchesNext.cpuStep_eq {s : State} (h : s.FetchesNext) : cpuStep s = fetchExecute s := by
  have hnone : ¬(s.cpu.ime = true ∧ pending s ≠ 0) := fun ⟨hime, hpending⟩ => hpending (h.noInterrupt hime)
  have hawake : ¬s.cpu.halted = true := Bool.eq_false_iff.1 h.awake
  rw [cpuStep, if_neg hnone, if_neg hawake]

/-- The step from such a state runs the instruction at `pc`, then the devices by its count. -/
theorem State.FetchesNext.step_eq {s : State} (h : s.FetchesNext) : ∃ t, exec (fetchInstr s) (afterFetch s) = .next t
    ∧ step s = .next (advanceDevices (cycles (fetchInstr s) (afterFetch s)) t) := by
  obtain ⟨t, hexec, hfetch⟩ := fetchExecute_next s
  refine ⟨t, hexec, step_of_cpuStep h.running ?_⟩
  rw [hostPhase_of_nil h.noHost, h.cpuStep_eq, hfetch]

/-- The same for an instruction of one byte, whose effect is known. -/
theorem State.FetchesNext.step_of_oneByte {s t : State} {i : Instr} (h : s.FetchesNext)
    (hlength : opLength (busRead s s.cpu.pc) = 1) (hinstr : fetchInstr s = i)
    (hexec : exec i s.fetchedByte = .next t) : step s = .next (advanceDevices (cycles i s.fetchedByte) t) := by
  obtain ⟨u, hu, hstep⟩ := h.step_eq
  rw [hinstr, afterFetch_of_opLength_one hlength] at hu hstep
  cases hexec.symm.trans hu
  exact hstep

/-! ## HALT (R301, R328) -/

theorem hostAct_withCpu (act : HostAction) (s : State) (c : Cpu) :
    hostAct act (s.withCpu c) = (hostAct act s).withCpu c := by
  cases act with
  | setButton k p =>
    simp only [hostAct, setButton]
    rw [apply_ite (State.withCpu · c)]
    rfl
  | clearFrameReady => rfl

theorem hostActs_withCpu (acts : List HostAction) (s : State) (c : Cpu) :
    acts.foldl (fun t act => hostAct act t) (s.withCpu c)
      = (acts.foldl (fun t act => hostAct act t) s).withCpu c := by
  induction acts generalizing s with
  | nil => rfl
  | cons act acts ih => rw [List.foldl_cons, List.foldl_cons, hostAct_withCpu, ih]

/-- The host neither reads nor writes the CPU. -/
theorem hostPhase_withCpu (s : State) (c : Cpu) : hostPhase (s.withCpu c) = (hostPhase s).withCpu c := by
  unfold hostPhase
  rw [State.withCpu_hostInput]
  split
  · rfl
  · exact hostActs_withCpu _ { s with hostInput := _ } c

theorem hostPhase_setHalted (s : State) (v : Bool) : hostPhase (s.setHalted v) = (hostPhase s).setHalted v := by
  obtain ⟨hcpu, -⟩ := hostPhase_ok (s := s)
  rw [State.setHalted, State.setHalted, hostPhase_withCpu, hcpu]

/-- With an interrupt pending, a halted CPU steps as one not halted: it dispatches with IME set and fetches else. -/
theorem cpuStep_setHalted_false {s : State} (hpending : pending s ≠ 0) : cpuStep (s.setHalted false) = cpuStep s := by
  obtain ⟨hime, -, hdispatch⟩ | ⟨-, -, hzero, -⟩ | ⟨hnone, -, hfetch⟩ := cpuStep_cases s
  · have hboth : (s.setHalted false).cpu.ime = true ∧ pending (s.setHalted false) ≠ 0 := ⟨hime, hpending⟩
    rw [hdispatch, cpuStep, if_pos hboth]
    rfl
  · exact absurd hzero hpending
  · have hnone' : ¬((s.setHalted false).cpu.ime = true ∧ pending (s.setHalted false) ≠ 0) := hnone
    rw [hfetch, cpuStep, if_neg hnone', if_neg (by simp)]

theorem cpuStep_idle {s : State} (hhalted : s.cpu.halted = true) (hzero : pending s = 0) :
    cpuStep s = .next (s, some s.cfg.haltIdleCost) := by
  have hnone : ¬(s.cpu.ime = true ∧ pending s ≠ 0) := fun ⟨_, hpending⟩ => hpending hzero
  rw [cpuStep, if_neg hnone, if_pos hhalted, if_pos hzero]

/-- Settles O52: the host's actions leave the CPU halted, so with nothing pending the CPU step is the idle step; else
`halted` makes no difference to it. -/
theorem haltIdlesAndWakes : Obligations.HaltIdlesAndWakes := by
  refine ⟨fun _ => ⟨rfl, rfl, rfl⟩, fun s hfault hhalted => ?_⟩
  obtain ⟨hcpu, -⟩ := hostPhase_ok (s := s)
  refine ⟨fun hzero => ?idles, fun hpending => ?wakes⟩
  case idles =>
    rw [← hostPhase_cfg s]
    exact step_of_cpuStep hfault (cpuStep_idle (hcpu.symm ▸ hhalted) hzero)
  case wakes =>
    calc step s
      _ = systemStep (hostPhase s) := step_of_running hfault
      _ = systemStep ((hostPhase s).setHalted false) := by
        rw [systemStep, systemStep, cpuStep_setHalted_false hpending]
      _ = systemStep (hostPhase (s.setHalted false)) := by rw [hostPhase_setHalted]
      _ = step (s.setHalted false) := (step_of_running (s := s.setHalted false) hfault).symm

/-! ## The undefined opcodes (R306) -/

/-- An undefined opcode is one byte, whatever bytes follow it, and its row of the table names it. -/
theorem decodeBytes_undefined {op : Byte} (h : op ∈ undefinedOpcodes) (b1 b2 : Byte) :
    illegalOp (decodeBytes op b1 b2) = some op ∧ opLength op = 1 := by
  simp only [undefinedOpcodes, List.mem_cons, List.not_mem_nil, or_false] at h
  rcases h with rfl | rfl | rfl | rfl | rfl | rfl | rfl | rfl | rfl | rfl | rfl <;> exact ⟨rfl, rfl⟩

/-- Settles O53: the fetch moves `pc` one byte on and `raiseIllegal` takes it back; without a count the devices stand
still. -/
theorem undefinedOpcodeStops : Obligations.UndefinedOpcodeStops := by
  refine ⟨fun s hfault hinput hpolicy hhalted hdispatch hop => ⟨?stops, ?stopped⟩, fun _ _ => step_of_fault⟩
  case stops =>
    obtain ⟨hillegal, hlength⟩ := decodeBytes_undefined hop (busRead s (s.cpu.pc + 1)) (busRead s (s.cpu.pc + 2))
    have hready : s.FetchesNext := ⟨hfault, hinput, hhalted, hdispatch⟩
    have hpolicy' : s.fetchedByte.cfg.illegalPolicy = .fault := hpolicy
    rw [hready.step_of_oneByte hlength rfl (exec_illegal hillegal _), fetchInstr, cycles_illegal hillegal,
      illegalCycles_of_fault hpolicy', raiseIllegal_of_fault hpolicy']
    simp [advanceDevices, State.fetchedByte, State.withCpu_withCpu]
  case stopped => exact step_of_fault (x := ⟨busRead s s.cpu.pc, s.cpu.pc⟩) rfl

/-! ## EI and DI (R303, R304) -/

theorem State.FetchesNext.step_ei {s : State} (h : s.FetchesNext) (hop : busRead s s.cpu.pc = 0xFB) :
    step s = .next (advanceDevices (some 1) (s.fetchedByte.setEiPending true)) :=
  h.step_of_oneByte (i := .ei) (hop ▸ rfl) (by rw [fetchInstr, hop]; rfl) rfl

theorem State.FetchesNext.step_di {s : State} (h : s.FetchesNext) (hop : busRead s s.cpu.pc = 0xF3) :
    step s = .next (advanceDevices (some 1) ((s.fetchedByte.setIme false).setEiPending false)) :=
  h.step_of_oneByte (i := .di) (hop ▸ rfl) (by rw [fetchInstr, hop]; rfl) rfl

/-- Settles O54: the step of `EI` and its fetch decide the control cells of `t`, and the devices touch none; so the next
step fetches from `t` unless an interrupt is dispatched, and its fetch moves the pending `EI` into IME. -/
theorem eiDelaysOneInstruction : Obligations.EiDelaysOneInstruction := by
  intro s hfault hinput hhalted hdispatch hop
  have hready : s.FetchesNext := ⟨hfault, hinput, hhalted, hdispatch⟩
  refine ⟨_, hready.step_ei hop, ?_⟩
  generalize ht : advanceDevices (some 1) (s.fetchedByte.setEiPending true) = t
  have hcpu : t.cpu =
      { s.cpu with pc := s.cpu.pc + 1, ime := s.cpu.ime || s.cpu.eiPending, eiPending := true } := by
    rw [← ht, advanceDevices_cpu]
    rfl
  have hinput' : t.hostInput = [] := by
    rw [← ht, advanceDevices_hostInput]
    exact hinput
  have hready' (hdispatch' : t.cpu.ime = true → pending t = 0) : t.FetchesNext :=
    ⟨hcpu ▸ hfault, hinput', hcpu ▸ hhalted, hdispatch'⟩
  refine ⟨hcpu, fun hdispatch' i rest hdecode => ?next, fun hime hop' => ?di⟩
  case next =>
    obtain ⟨hinstr, hafter⟩ := fetch_of_decode hdecode
    have hset : (t.cpu.ime || t.cpu.eiPending) = true := by rw [hcpu, Bool.or_true]
    rw [hset] at hafter
    have hnext := (hready' hdispatch').step_eq
    rw [hinstr, hafter] at hnext
    exact hnext
  case di =>
    have hnone : t.cpu.ime = true → pending t = 0 := by simp [hime]
    refine ⟨_, (hready' hnone).step_di hop', ?_⟩
    rw [advanceDevices_cpu, ← word_add_one_one]
    simp [State.fetchedByte, hcpu]

end Sys2Proof.Machine

/-! PROOFS. The joypad and what the host does to it (60_exceptions.md R377, R391 to R393), and the writes to LCDC
(R364). -/

namespace Sys2Proof.Machine

/-! ## The buttons -/

theorem Buttons.get_set (b : Buttons) (k q : Button) (pressed : Bool) :
    (b.set k pressed).get q = if q = k then pressed else b.get q := by
  cases k <;> cases q <;> rfl

/-- Settles O49: both outcomes of the test for an edge set the button alone, one of them with the request. -/
theorem hostActions : Obligations.HostActions := by
  intro s k pressed b t
  have hedge : (pressed && !b.get k) = true ↔ pressed = true ∧ b.get k = false := by simp
  have ht : t =
      { s with
        joypad := { s.joypad with buttons := b.set k pressed }
        irq := if pressed = true ∧ b.get k = false then { s.irq with iflag := s.irq.iflag ||| 0b10000 } else s.irq } := by
    simp only [t, hostAct, setButton, hedge, b]
    split <;> rfl
  rw [ht]
  refine ⟨?same, fun q hq => ?other, rfl, rfl, rfl⟩
  case same => exact (Buttons.get_set b k k pressed).trans (if_pos rfl)
  case other => exact (Buttons.get_set b k q pressed).trans (if_neg hq)

/-! ## P1 -/

/-- The two select bits and the eight buttons, in all their values. -/
theorem p1_bits : ∀ selAction selDir right left up down a b select start : Bool,
    p1Read ⟨selAction, selDir, ⟨right, left, up, down, a, b, select, start⟩⟩ =
      let on (b : Bool) (n : Nat) : Byte := if b then BitVec.ofNat 8 n else 0
      let n0 : Byte := 0x0F
      let n1 := if selDir then n0 else n0 &&& ~~~(on right 1 ||| on left 2 ||| on up 4 ||| on down 8)
      let n2 := if selAction then n1 else n1 &&& ~~~(on a 1 ||| on b 2 ||| on select 4 ||| on start 8)
      0xC0 ||| on selAction 0x20 ||| on selDir 0x10 ||| n2 := by
  decide +kernel

/-- Settles O40: the address decoder leads to `p1Read` and `p1Write`. -/
theorem joypadRegister : Obligations.JoypadRegister := by
  intro s v
  exact ⟨p1_bits _ _ _ _ _ _ _ _ _ _, rfl⟩

/-! ## LCDC -/

theorem bitOf_seven (v : Byte) : bitOf v 7 = decide (v.toNat ≥ 0x80) := BitVec.msb_eq_decide v

/-- Settles O35: the address decoder leads to `lcdcWrite`, and bit 7 is set from 0x80 on. -/
theorem lcdcWrite_holds : Obligations.LcdcWrite := by
  intro s v
  refine ⟨rfl, ?_⟩
  change lcdcWrite v s = _
  have hon : (lcdcBit s 7 && !bitOf v 7) = true ↔ s.ppu.lcdc.toNat ≥ 0x80 ∧ v.toNat < 0x80 := by
    simp [lcdcBit, bitOf_seven]
  have hoff : (!lcdcBit s 7 && bitOf v 7) = true ↔ s.ppu.lcdc.toNat < 0x80 ∧ v.toNat ≥ 0x80 := by
    simp [lcdcBit, bitOf_seven]
  simp only [lcdcWrite, hon, hoff]
  split_ifs <;> rfl

end Sys2Proof.Machine

/-! PROOFS. Interrupt entry (60_exceptions.md R325 to R329): which request is taken, and the state it leads to. -/

namespace Sys2Proof.Machine

theorem getLsbD_pending (s : State) {n : Nat} (hn : n < 5) :
    (pending s).getLsbD n = (s.irq.ie.getLsbD n && s.irq.iflag.getLsbD n) := by
  simp [pending, hn]

/-- The priority is by number (R327). -/
theorem lowestSet_eq {v : BitVec 5} {n : Nat} (hn : n < 5) (hset : v.getLsbD n = true)
    (hlower : ∀ j, j < n → v.getLsbD j = false) : lowestSet v = n := by
  interval_cases n <;>
    simp only [lowestSet, hset, hlower, Nat.reduceLT, Nat.lt_add_one, if_true, if_false, Bool.false_eq_true]

theorem dispatch_eq_storeWordDown (i : Nat) (s : State) : dispatch i s =
    clearInt i ((storeWordDown (s.cpu.sp - 2) s.cpu.pc s).withCpu { s.cpu with
      sp := s.cpu.sp - 2, halted := false, ime := false, eiPending := false, pc := vectorOf i }) := by
  rw [dispatch_eq, storeWordDown, word_sub_two_add_one, applyStores_cons, applyStores_cons, applyStores_nil]

theorem shiftLeft_one_eq_ofNat (i : Nat) : 1#5 <<< i = BitVec.ofNat 5 (2 ^ i) := by
  apply BitVec.eq_of_toNat_eq
  simp [Nat.shiftLeft_eq]

/-- Settles O51: the pending request with the lowest number is the one that `cpuStep` dispatches. -/
theorem stepDispatchesLowest : Obligations.StepDispatchesLowest := by
  intro s n u hfault hime hn hie hiflag hlower w
  have hset : (pending u).getLsbD n = true := by rw [getLsbD_pending u hn, hie, hiflag, Bool.and_self]
  have hlowest : lowestSet (pending u) = n := by
    refine lowestSet_eq hn hset fun j hj => ?_
    rw [getLsbD_pending u (hj.trans hn), hlower j hj]
  have hpending : pending u ≠ 0 := fun h => by simp [h] at hset
  have hcpu : cpuStep u = .next (dispatch n u, some 5) := by
    rw [cpuStep, if_pos ⟨hime, hpending⟩, hlowest]
  rw [step_of_cpuStep hfault hcpu, dispatch_eq_storeWordDown]
  simp only [clearInt, shiftLeft_one_eq_ofNat]
  rfl

end Sys2Proof.Machine

/-! PROOFS. The Timer (60_exceptions.md R341 to R343, R347): DIV's counter and TIMA's ticks apart from one another, then
what so many ticks give. -/

namespace Sys2Proof.Machine

/-! ## The two counters -/

/-- Splitting a count of cycles splits the periods in it, the remainder carried. -/
theorem add_div_carry (x b : Nat) {p : Nat} (hp : 0 < p) : (x + b) / p = x / p + (x % p + b) / p := by
  conv_lhs => rw [← Nat.div_add_mod x p, Nat.add_assoc, Nat.mul_add_div hp]

theorem divRun_add (a b : Nat) (s : State) : divRun (a + b) s = divRun b (divRun a s) := by
  simp only [divRun, ← Nat.add_assoc, add_div_carry (s.timer.divSub + a) b (p := 256) (by decide), BitVec.ofNat_add,
    Nat.mod_add_mod, BitVec.add_assoc]

theorem timaTick_of_last {s : State} (h : s.timer.tima = 0xFF) :
    timaTick s = raiseInt 2 { s with timer := { s.timer with tima := s.timer.tma } } := if_pos h

theorem timaTick_of_not_last {s : State} (h : s.timer.tima ≠ 0xFF) :
    timaTick s = { s with timer := { s.timer with tima := s.timer.tima + 1 } } := if_neg h

theorem timaTicks_add (j k : Nat) (s : State) : timaTicks (j + k) s = timaTicks k (timaTicks j s) := by
  induction j generalizing s with
  | zero => rw [Nat.zero_add, timaTicks]
  | succ j ih => rw [Nat.succ_add, timaTicks, timaTicks, ih]

/-- The cells of the Timer that a tick of TIMA neither reads nor writes. -/
def State.withCounters (s : State) (div : Byte) (divSub timaSub : Nat) : State :=
  { s with timer := { s.timer with div := div, divSub := divSub, timaSub := timaSub } }

theorem timaTick_withCounters (s : State) (d : Byte) (m n : Nat) :
    timaTick (s.withCounters d m n) = (timaTick s).withCounters d m n := by
  by_cases hlast : s.timer.tima = 0xFF
  · rw [timaTick_of_last hlast, timaTick_of_last (s := s.withCounters d m n) hlast]
    rfl
  · rw [timaTick_of_not_last hlast, timaTick_of_not_last (s := s.withCounters d m n) hlast]
    rfl

theorem timaTicks_withCounters (k : Nat) (s : State) (d : Byte) (m n : Nat) :
    timaTicks k (s.withCounters d m n) = (timaTicks k s).withCounters d m n := by
  induction k generalizing s with
  | zero => rfl
  | succ k ih => rw [timaTicks, timaTicks, timaTick_withCounters, ih]

/-! ## The Timer as a whole -/

/-- With TAC bit 2 clear DIV alone counts. -/
theorem timerRun_of_disabled {s : State} (h : s.timer.tac.getLsbD 2 = false) (t : Nat) : timerRun t s = divRun t s := by
  have hoff : ¬(divRun t s).timer.tac.getLsbD 2 = true := Bool.eq_false_iff.1 h
  rw [timerRun, timaRun, if_neg hoff]

/-- With TAC bit 2 set TIMA ticks once a period, beside DIV. -/
theorem timerRun_of_enabled {s : State} (h : s.timer.tac.getLsbD 2 = true) (t : Nat) : timerRun t s =
    (timaTicks ((s.timer.timaSub + t) / timaPeriod s.timer.tac) s).withCounters
      (s.timer.div + BitVec.ofNat 8 ((s.timer.divSub + t) / 256)) ((s.timer.divSub + t) % 256)
      ((s.timer.timaSub + t) % timaPeriod s.timer.tac) := by
  rw [← timaTicks_withCounters, timerRun, timaRun]
  exact if_pos h

/-- Settles O41: DIV carries its remainder; TIMA's ticks of both runs are those of the whole, and its remainder is
carried too. -/
theorem timerAdditive : Obligations.TimerAdditive := by
  intro s a b
  cases henable : s.timer.tac.getLsbD 2 with
  | false => 
    rw [timerRun_of_disabled henable, timerRun_of_disabled henable, timerRun_of_disabled (s := divRun a s) henable,
      divRun_add]
  | true =>
    have hp := timaPeriod_pos s.timer.tac
    generalize hu : timerRun a s = u
    rw [timerRun_of_enabled henable] at hu
    have htac : u.timer.tac = s.timer.tac := by
      rw [← hu]
      simp only [State.withCounters, timaTicks_keeps]
    rw [timerRun_of_enabled henable, timerRun_of_enabled (htac ▸ henable), htac, ← hu, timaTicks_withCounters,
      ← Nat.add_assoc, add_div_carry _ b hp, timaTicks_add]
    simp only [State.withCounters, ← Nat.add_assoc, Nat.mod_add_mod, BitVec.ofNat_add, BitVec.add_assoc,
      add_div_carry (s.timer.divSub + a) b (p := 256) (by decide)]

/-! ## TIMA's count -/

/-- Up to 0xFF the ticks count. -/
theorem timaTicks_of_lt {k : Nat} {s : State} (h : s.timer.tima.toNat + k < 256) :
    timaTicks k s = { s with timer := { s.timer with tima := s.timer.tima + BitVec.ofNat 8 k } } := by
  induction k generalizing s with
  | zero => simp [timaTicks]
  | succ k ih =>
    have hlast : s.timer.tima ≠ 0xFF := by bv_omega
    have hnext : (s.timer.tima + 1).toNat = s.timer.tima.toNat + 1 := by bv_omega
    rw [timaTicks, timaTick_of_not_last hlast, ih (by rw [hnext]; omega), Nat.add_comm k 1, BitVec.ofNat_add,
      ← BitVec.add_assoc]
    rfl

/-- The tick past 0xFF reloads TIMA and makes the request. -/
theorem timaTicks_reload (s : State) : timaTicks (256 - s.timer.tima.toNat) s =
    raiseInt 2 { s with timer := { s.timer with tima := s.timer.tma } } := by
  have hlt := s.timer.tima.isLt
  have hsplit : 256 - s.timer.tima.toNat = (255 - s.timer.tima.toNat) + 1 := by omega
  have hlast : s.timer.tima + BitVec.ofNat 8 (255 - s.timer.tima.toNat) = 0xFF := by bv_omega
  rw [hsplit, timaTicks_add, timaTicks_of_lt (s := s) (by omega), hlast, timaTicks, timaTicks, timaTick_of_last rfl]

theorem timaPeriod_eq_getD : ∀ tac : BitVec 3, [1024, 16, 64, 256].getD (tac.toNat % 4) 0 = timaPeriod tac := by
  decide

theorem ofNat_toNat_add (v : Byte) (k : Nat) : BitVec.ofNat 8 (v.toNat + k) = v + BitVec.ofNat 8 k := by
  rw [BitVec.ofNat_add, BitVec.ofNat_toNat, BitVec.setWidth_eq]

/-- Settles O42: the ticks are the periods that fit; fewer than `256 - TIMA` count, so many reload. -/
theorem timerOverflow : Obligations.TimerOverflow := by
  intro s t p sum u
  have hperiod : p = timaPeriod s.timer.tac := timaPeriod_eq_getD _
  have hp : 0 < p := hperiod ▸ timaPeriod_pos _
  have hdisabled (h : s.timer.tac.getLsbD 2 = false) : u = divRun t s := timerRun_of_disabled h t
  have henabled (h : s.timer.tac.getLsbD 2 = true) : u = (timaTicks (sum / p) s).withCounters
      (s.timer.div + BitVec.ofNat 8 ((s.timer.divSub + t) / 256)) ((s.timer.divSub + t) % 256) (sum % p) := by
    rw [hperiod]
    exact timerRun_of_enabled h t
  refine ⟨?div, fun h => ?off, fun h => ?on⟩
  case div =>
    rw [ofNat_toNat_add]
    cases h : s.timer.tac.getLsbD 2 with
    | false => exact hdisabled h ▸ ⟨rfl, rfl⟩
    | true => exact henabled h ▸ ⟨rfl, rfl⟩
  case off => exact hdisabled h ▸ ⟨rfl, rfl, rfl⟩
  case on =>
    rw [henabled h]
    refine ⟨rfl, fun hbefore => ?counts, fun hfrom hpast => ?reloads⟩
    case counts =>
      have hticks : sum / p < 256 - s.timer.tima.toNat := Nat.div_lt_of_lt_mul hbefore
      rw [timaTicks_of_lt (by omega), ofNat_toNat_add]
      exact ⟨rfl, rfl⟩
    case reloads =>
      have hticks : sum / p = 256 - s.timer.tima.toNat := by
        have hlo := (Nat.le_div_iff_mul_le hp).2 (Nat.mul_comm _ _ ▸ hfrom)
        have hhi := Nat.div_lt_of_lt_mul hpast
        omega
      rw [hticks, timaTicks_reload]
      exact ⟨rfl, rfl⟩

end Sys2Proof.Machine

/-! PROOFS. The pixels that rendering writes (60_exceptions.md R372 to R376): a loop that sets one pixel in each of its
rounds, then a row of the background, then a sprite and the sprites over one another. -/

namespace Sys2Proof.Machine

/-! ## Drawing from a state -/

/-- What rendering from `s` passes through: the pixels alone differ from `s`, and they keep their canonical form. -/
def State.drawing (s t : State) : Prop := s.sameButPixels t ∧ fbOk t

theorem State.drawing_of_inv {s : State} (h : s.inv = true) : s.drawing s := by
  obtain ⟨-, -, hppu, -⟩ := (State.inv_iff s).1 h
  simp only [Ppu.ok, Bool.and_eq_true] at hppu
  obtain ⟨⟨-, hwf⟩, hbelow⟩ := hppu
  exact ⟨.refl s, hwf, hbelow⟩

theorem State.drawing.step {s t u : State} (h : s.drawing t) (hu : t.sameButPixels u ∧ (fbOk t → fbOk u)) :
    s.drawing u :=
  ⟨h.1.trans hu.1, hu.2 h.2⟩

theorem pixelAt_setPixel {t : State} (ht : fbOk t) {y x : Nat} (hy : y < 144) (hx : x < 160) (y' x' : Nat)
    (v : BitVec 2) : pixelAt (setPixel y' x' v t) y x = if y = y' ∧ x = x' then v else pixelAt t y x := by
  unfold setPixel
  split_ifs with hin hat hat
  · obtain ⟨rfl, rfl⟩ := hat
    exact Cells.read_write_same ht.1 _ v
  · obtain ⟨-, hx'⟩ := hin
    have hother : lcdW * y + x ≠ lcdW * y' + x' := fun he => hat (by simp only [lcdW] at he hx'; omega)
    exact Cells.read_write_other ht.1 hother v
  · obtain ⟨rfl, rfl⟩ := hat
    exact absurd ⟨hy, hx⟩ hin
  · rfl

/-- A loop changes a pixel as its one round that touches the pixel does. -/
theorem pixelAt_foldl_once {f : State → Nat → State} {s t : State} {y x k : Nat} {g : BitVec 2 → BitVec 2}
    (hkeep : ∀ u i, s.drawing u → s.drawing (f u i))
    (hother : ∀ u i, s.drawing u → i ≠ k → pixelAt (f u i) y x = pixelAt u y x)
    (hround : ∀ u, s.drawing u → pixelAt (f u k) y x = g (pixelAt u y x)) (ht : s.drawing t) (n : Nat) :
    s.drawing ((List.range n).foldl f t)
      ∧ pixelAt ((List.range n).foldl f t) y x = if k < n then g (pixelAt t y x) else pixelAt t y x := by
  induction n with
  | zero => exact ⟨ht, rfl⟩
  | succ n ih =>
    obtain ⟨hdraw, hpixel⟩ := ih
    rw [List.range_succ, List.foldl_append, List.foldl_cons, List.foldl_nil]
    refine ⟨hkeep _ n hdraw, ?_⟩
    by_cases hk : n = k
    · subst hk
      rw [hround _ hdraw, hpixel, if_neg (Nat.lt_irrefl n), if_pos (Nat.lt_succ_self n)]
    · have hiff : k < n + 1 ↔ k < n := by omega
      rw [hother _ n hdraw hk, hpixel]
      simp only [hiff]

/-! ## A row of the background -/

/-- The shade of a pixel depends on VRAM and the registers, not on the pixels drawn before it. -/
theorem scanlineShade_of_drawing {s t : State} (h : s.drawing t) (x ly : Nat) :
    scanlineShade t x ly = scanlineShade s x ly := by
  obtain ⟨⟨fb, rfl⟩, -⟩ := h
  rfl

theorem scanlineShade_eq (s : State) (x ly : Nat) : scanlineShade s x ly =
    if s.ppu.lcdc.getLsbD 0 = false then 0
    else if s.ppu.lcdc.getLsbD 5 = true ∧ s.ppu.wy.toNat ≤ ly ∧ s.ppu.wx.toNat ≤ x + 7 then
      paletteShade s.ppu.bgp (mapPoint s (if s.ppu.lcdc.getLsbD 6 then 0x9C00 else 0x9800)
        (x + 7 - s.ppu.wx.toNat) (ly - s.ppu.wy.toNat))
    else
      paletteShade s.ppu.bgp (mapPoint s (if s.ppu.lcdc.getLsbD 3 then 0x9C00 else 0x9800)
        ((s.ppu.scx.toNat + x) % 256) ((s.ppu.scy.toNat + ly) % 256)) := by
  have hoff : (!lcdcBit s 0) = true ↔ s.ppu.lcdc.getLsbD 0 = false := by simp [lcdcBit, bitOf]
  simp only [scanlineShade, hoff, windowCovers_iff, shade_eq_paletteShade, winColour, bgColour, mapColour_toNat]
  rfl

theorem pixelAt_renderScanline {s : State} (hs : s.drawing s) (ly : Nat) {y x : Nat} (hy : y < 144) (hx : x < 160) :
    pixelAt (renderScanline ly s) y x = if y = ly then scanlineShade s x ly else pixelAt s y x := by
  have hset (u : State) (i : Nat) (hu : s.drawing u) : pixelAt (setPixel ly i (scanlineShade u i ly) u) y x =
      if y = ly ∧ x = i then scanlineShade s i ly else pixelAt u y x := by
    rw [pixelAt_setPixel hu.2 hy hx, scanlineShade_of_drawing hu]
  obtain ⟨-, hrow⟩ := pixelAt_foldl_once (f := fun t x => setPixel ly x (scanlineShade t x ly) t) (k := x)
    (g := fun p => if y = ly then scanlineShade s x ly else p)
    (fun u i hu => hu.step ⟨setPixel_sameButPixels _ _ _ _, fun h => setPixel_fbOk h _ _ _⟩)
    (fun u i hu hi => by rw [hset u i hu, if_neg fun h => hi h.2.symm])
    (fun u hu => by simp only [hset u x hu, and_true]) hs lcdW
  exact hrow.trans (if_pos hx)

/-- Settles O46: the loop over the row sets its pixels one by one (`pixelAt_renderScanline`), each to the shade that the
laws of the picture helpers write out. -/
theorem scanlinePixels : Obligations.ScanlinePixels := by
  intro s ly y x hinv _ hy hx lcdc wx wy
  rw [pixelAt_renderScanline (State.drawing_of_inv hinv) ly hy hx, scanlineShade_eq, ite_not]

end Sys2Proof.Machine

/-! PROOFS. The sprites (60_exceptions.md R375, R376): a pixel of a sprite, a row, a sprite, all of them. -/

namespace Sys2Proof.Machine

/-! ## One sprite -/

/-- The colour index of pixel (r, c) of a sprite as it is turned (R375). -/
def spriteColour (s : State) (sp : Sprite) (r c : Nat) : BitVec 2 :=
  tileRowColour s (0x8000 + 16 * spriteTile s sp) (if bitOf sp.attr 6 then spriteHeight s - 1 - r else r)
    (if bitOf sp.attr 5 then 7 - c else c)

def spriteShade (s : State) (sp : Sprite) (r c : Nat) : BitVec 2 :=
  shade (if bitOf sp.attr 4 then s.ppu.obp1 else s.ppu.obp0) (spriteColour s sp r c)

/-- What pixel (r, c) of a sprite makes of the shade `p` under it (R375). -/
def spriteDot (s : State) (sp : Sprite) (r c : Nat) (p : BitVec 2) : BitVec 2 :=
  if spriteColour s sp r c = 0 then p
  else if bitOf sp.attr 7 && decide (p ≠ shade s.ppu.bgp 0) then p
  else spriteShade s sp r c

/-- The screen line and column of a sprite's first pixel (R375). -/
def Sprite.top (sp : Sprite) : Int := sp.y.toNat - 16

def Sprite.left (sp : Sprite) : Int := sp.x.toNat - 8

/-- The pixel of the sprite at screen point (y, x), if it has one, drawn over `p`. -/
def spriteOver (s : State) (sp : Sprite) (y x : Nat) (p : BitVec 2) : BitVec 2 :=
  if sp.top ≤ y ∧ y < sp.top + spriteHeight s ∧ sp.left ≤ x ∧ x < sp.left + 8 then
    spriteDot s sp (y - sp.top).toNat (x - sp.left).toNat p
  else p

section
variable {s t : State} {y x : Nat} (sp : Sprite)

theorem State.drawing.renderSpritePixel (ht : s.drawing t) (r c : Nat) : s.drawing (renderSpritePixel sp r c t) :=
  ht.step (renderSpritePixel_pixels sp r c t)

theorem State.drawing.renderSprite (ht : s.drawing t) : s.drawing (renderSprite sp t) :=
  ht.step (renderSprite_pixels sp t)

theorem renderSpritePixel_eq (r c : Nat) (t : State) : renderSpritePixel sp r c t =
    if sp.top + r < 0 ∨ sp.top + r ≥ 144 ∨ sp.left + c < 0 ∨ sp.left + c ≥ 160 then t
    else if spriteColour t sp r c = 0 then t
    else if bitOf sp.attr 7
        && decide (pixelAt t (sp.top + r).toNat (sp.left + c).toNat ≠ shade t.ppu.bgp 0) then t
    else setPixel (sp.top + r).toNat (sp.left + c).toNat (spriteShade t sp r c) t := rfl

theorem spriteDot_of_drawing (ht : s.drawing t) (r c : Nat) : spriteDot t sp r c = spriteDot s sp r c := by
  obtain ⟨⟨fb, rfl⟩, -⟩ := ht
  rfl

theorem pixelAt_renderSpritePixel (ht : s.drawing t) (hy : y < 144) (hx : x < 160) (r c : Nat) :
    pixelAt (renderSpritePixel sp r c t) y x =
      if y = sp.top + r ∧ x = sp.left + c then spriteDot s sp r c (pixelAt t y x) else pixelAt t y x := by
  rw [renderSpritePixel_eq, ← spriteDot_of_drawing sp ht]
  by_cases hat : y = sp.top + r ∧ x = sp.left + c
  case pos =>
    have hin : ¬(sp.top + r < 0 ∨ sp.top + r ≥ 144 ∨ sp.left + c < 0 ∨ sp.left + c ≥ 160) := by omega
    have hrow : (sp.top + r).toNat = y := by omega
    have hcol : (sp.left + c).toNat = x := by omega
    rw [if_neg hin, if_pos hat, hrow, hcol, spriteDot]
    split_ifs
    · rfl
    · rfl
    · rw [pixelAt_setPixel ht.2 hy hx, if_pos ⟨rfl, rfl⟩]
  case neg =>
    rw [if_neg hat]
    split_ifs with hout
    · rfl
    · rfl
    · rfl
    · rw [pixelAt_setPixel ht.2 hy hx, if_neg (by omega)]

/-- One row of the sprite: its column at `x` is the only one that touches the pixel. -/
theorem pixelAt_renderSpriteRow (ht : s.drawing t) (hy : y < 144) (hx : x < 160) (r : Nat) :
    let u := (List.range 8).foldl (fun u c => renderSpritePixel sp r c u) t
    s.drawing u ∧ pixelAt u y x =
      if y = sp.top + r ∧ sp.left ≤ x ∧ x < sp.left + 8 then spriteDot s sp r (x - sp.left).toNat (pixelAt t y x)
      else pixelAt t y x := by
  obtain ⟨hdraw, hrow⟩ := pixelAt_foldl_once (f := fun u c => renderSpritePixel sp r c u) (k := (x - sp.left).toNat)
    (g := fun p => if y = sp.top + r ∧ sp.left ≤ x then spriteDot s sp r (x - sp.left).toNat p else p)
    (fun u c hu => hu.renderSpritePixel sp r c)
    (fun u c hu hc => by rw [pixelAt_renderSpritePixel sp hu hy hx, if_neg (by omega)])
    (fun u hu => by
      have hiff : (x : Int) = sp.left + (x - sp.left).toNat ↔ sp.left ≤ x := by omega
      simp only [pixelAt_renderSpritePixel sp hu hy hx, hiff])
    ht 8
  refine ⟨hdraw, hrow.trans ?_⟩
  rw [← ite_and]
  congr 1
  rw [eq_iff_iff]
  omega

theorem spriteOffScreen_iff : spriteOffScreen t sp = true ↔
    sp.top + spriteHeight t ≤ 0 ∨ sp.top ≥ 144 ∨ sp.left + 8 ≤ 0 ∨ sp.left ≥ 160 := by
  simp only [spriteOffScreen, Bool.or_eq_true, decide_eq_true_eq, or_assoc]
  rfl

theorem pixelAt_renderSprite (ht : s.drawing t) (hy : y < 144) (hx : x < 160) :
    pixelAt (renderSprite sp t) y x = spriteOver s sp y x (pixelAt t y x) := by
  have hheight : spriteHeight t = spriteHeight s := by
    obtain ⟨⟨fb, rfl⟩, -⟩ := ht
    rfl
  obtain ⟨-, hrows⟩ := pixelAt_foldl_once
    (f := fun t r => (List.range 8).foldl (fun u c => renderSpritePixel sp r c u) t) (k := (y - sp.top).toNat)
    (g := fun p => if sp.top ≤ y ∧ sp.left ≤ x ∧ x < sp.left + 8 then
      spriteDot s sp (y - sp.top).toNat (x - sp.left).toNat p else p)
    (fun u r hu => (pixelAt_renderSpriteRow sp hu hy hx r).1)
    (fun u r hu hr => by rw [(pixelAt_renderSpriteRow sp hu hy hx r).2, if_neg (by omega)])
    (fun u hu => by
      have hiff : (y : Int) = sp.top + (y - sp.top).toNat ↔ sp.top ≤ y := by omega
      simp only [(pixelAt_renderSpriteRow sp hu hy hx _).2, hiff])
    ht (spriteHeight s)
  unfold renderSprite
  split
  · next hoff =>
    rw [spriteOffScreen_iff, hheight] at hoff
    exact (if_neg (by omega)).symm
  · rw [hheight, hrows, ← ite_and, spriteOver]
    congr 1
    rw [eq_iff_iff]
    omega

end

/-! ## The sprites over one another -/

theorem spriteTile_spriteAt (s : State) (i : Nat) : spriteTile s (spriteAt s i) =
    if s.ppu.lcdc.getLsbD 2 = true then (oamByte s i 2).toNat / 2 * 2 else (oamByte s i 2).toNat := by
  have heven : ∀ v : Byte, (v &&& 0xFE).toNat = v.toNat / 2 * 2 := by decide +kernel
  rw [spriteTile, heven]
  rfl

theorem spriteColour_spriteAt_toNat (s : State) (i r : Nat) {c : Nat} (hc : c < 8) :
    (spriteColour s (spriteAt s i) r c).toNat =
      planeColour s (0x8000 + 16 * spriteTile s (spriteAt s i)
          + 2 * (if (oamByte s i 3).getLsbD 6 then spriteHeight s - 1 - r else r))
        (if (oamByte s i 3).getLsbD 5 then 7 - c else c) :=
  tileRowColour_toNat s _ _ (by split <;> omega)

theorem spriteColourAt_eq (s : State) (i y x : Nat) : spriteColourAt s i y x =
    if (spriteAt s i).top ≤ y ∧ y < (spriteAt s i).top + spriteHeight s ∧ (spriteAt s i).left ≤ x
        ∧ x < (spriteAt s i).left + 8 then
      (spriteColour s (spriteAt s i) (y - (spriteAt s i).top).toNat (x - (spriteAt s i).left).toNat).toNat
    else 0 := by
  split
  case isTrue hin =>
    rw [spriteColour_spriteAt_toNat s i _ (by omega), spriteTile_spriteAt]
    exact if_pos hin
  case isFalse hout => exact if_neg hout

/-- A sprite of OAM over a pixel, in the terms of the claims. -/
theorem spriteOver_eq_overlay (s : State) (i y x : Nat) (p : BitVec 2) :
    spriteOver s (spriteAt s i) y x p = overlay s y x p i := by
  unfold spriteOver overlay
  rw [spriteColourAt_eq]
  split
  case isTrue =>
    have hzero (v : BitVec 2) : v.toNat = 0 ↔ v = 0 := BitVec.toNat_inj (y := 0)
    simp only [spriteDot, spriteShade, shade_eq_paletteShade, hzero, Bool.and_eq_true, decide_eq_true_eq]
    rfl
  case isFalse => exact (if_pos rfl).symm

theorem spriteAt_of_drawing {s t : State} (h : s.drawing t) (i : Nat) : spriteAt t i = spriteAt s i := by
  obtain ⟨⟨fb, rfl⟩, -⟩ := h
  rfl

theorem pixelAt_foldl_renderSprite {s t : State} (ht : s.drawing t) {y x : Nat} (hy : y < 144) (hx : x < 160)
    (l : List Nat) : pixelAt (l.foldl (fun t k => renderSprite (spriteAt t (39 - k)) t) t) y x =
      l.foldl (fun p k => overlay s y x p (39 - k)) (pixelAt t y x) := by
  induction l generalizing t with
  | nil => rfl
  | cons k l ih =>
    rw [List.foldl_cons, List.foldl_cons, ih (ht.renderSprite _), spriteAt_of_drawing ht,
      pixelAt_renderSprite _ ht hy hx, spriteOver_eq_overlay]

/-- Settles O47: the loop over OAM lays one entry after the other over the pixel, each as `overlay` says. -/
theorem spritePixels : Obligations.SpritePixels := by
  intro s y x hinv hy hx
  split
  case isTrue hoff => rw [renderSprites_off hoff]
  case isFalse hon =>
    have hbit : lcdcBit s 1 = true := Bool.not_eq_false _ ▸ hon
    rw [renderSprites, if_pos hbit]
    exact pixelAt_foldl_renderSprite (State.drawing_of_inv hinv) hy hx _

end Sys2Proof.Machine

/-! PROOFS. The timing of the PPU (60_exceptions.md R361 to R371): rendering does not depend on the cells of the timing,
so `PpuRun` is a walk through the modes, and running it for two counts is running it for their sum. -/

namespace Sys2Proof.Machine

/-! ## Rendering and the cells of the timing -/

/-- The machine `s` with the cells that the timing machine moves as `u` has them. -/
def State.retimed (s u : State) : State :=
  { s with
    irq := u.irq
    ppu := { s.ppu with
      coincidence := u.ppu.coincidence
      mode := u.ppu.mode
      modeClock := u.ppu.modeClock
      ly := u.ppu.ly
      frameReady := u.ppu.frameReady } }

theorem setPixel_retimed (y x : Nat) (v : BitVec 2) (s u : State) :
    setPixel y x v (s.retimed u) = (setPixel y x v s).retimed u := by
  rw [setPixel, setPixel, apply_ite (State.retimed · u)]
  rfl

theorem foldl_retimed {f : State → Nat → State} {u : State} (hf : ∀ t i, f (t.retimed u) i = (f t i).retimed u)
    (l : List Nat) (s : State) : l.foldl f (s.retimed u) = (l.foldl f s).retimed u :=
  List.foldl_hom (State.retimed · u) hf

theorem renderScanline_retimed (ly : Nat) (s u : State) :
    renderScanline ly (s.retimed u) = (renderScanline ly s).retimed u :=
  foldl_retimed (fun t x => setPixel_retimed ly x (scanlineShade t x ly) t u) _ s

theorem renderSpritePixel_retimed (sp : Sprite) (r c : Nat) (s u : State) :
    renderSpritePixel sp r c (s.retimed u) = (renderSpritePixel sp r c s).retimed u := by
  simp only [renderSpritePixel_eq, setPixel_retimed, apply_ite (State.retimed · u)]
  rfl

theorem renderSprite_retimed (sp : Sprite) (s u : State) :
    renderSprite sp (s.retimed u) = (renderSprite sp s).retimed u := by
  rw [renderSprite, renderSprite, apply_ite (State.retimed · u),
    foldl_retimed fun t r => foldl_retimed (fun t c => renderSpritePixel_retimed sp r c t u) _ t]
  rfl

theorem renderSprites_retimed (s u : State) : renderSprites (s.retimed u) = (renderSprites s).retimed u := by
  rw [renderSprites, renderSprites, apply_ite (State.retimed · u),
    foldl_retimed fun t k => renderSprite_retimed (spriteAt t (39 - k)) t u]
  rfl

/-- A state that differs from `s` at most in the cells of the timing. -/
def State.sameButTiming (s t : State) : Prop := ∃ u, t = s.retimed u

theorem State.sameButTiming.refl (s : State) : s.sameButTiming s := ⟨s, rfl⟩

theorem State.sameButTiming.trans {s t u : State} (h : s.sameButTiming t) (h' : t.sameButTiming u) :
    s.sameButTiming u := by
  obtain ⟨a, rfl⟩ := h
  obtain ⟨b, rfl⟩ := h'
  exact ⟨b, rfl⟩

theorem State.sameButTiming.framebuffer {s t : State} (h : s.sameButTiming t) :
    t.ppu.framebuffer = s.ppu.framebuffer := by
  obtain ⟨u, rfl⟩ := h
  rfl

theorem State.sameButTiming.renderScanline {s t : State} (h : s.sameButTiming t) (ly : Nat) :
    (renderScanline ly s).sameButTiming (renderScanline ly t) := by
  obtain ⟨u, rfl⟩ := h
  exact ⟨u, renderScanline_retimed ly s u⟩

theorem State.sameButTiming.renderSprites {s t : State} (h : s.sameButTiming t) :
    (renderSprites s).sameButTiming (renderSprites t) := by
  obtain ⟨u, rfl⟩ := h
  exact ⟨u, renderSprites_retimed s u⟩

theorem sameButTiming_setMode (s : State) (m : PpuMode) : s.sameButTiming (setMode m s) := ⟨setMode m s, rfl⟩

theorem sameButTiming_setLy (s : State) (v : Byte) : s.sameButTiming (setLy v s) := ⟨setLy v s, rfl⟩

/-! ## The transitions -/

theorem evalStat_eq (s : State) : evalStat s =
    { s with
      ppu := { s.ppu with coincidence := decide (s.ppu.ly = s.ppu.lyc) }
      irq :=
        if s.ppu.statEnable.getLsbD 0 || (s.ppu.statEnable.getLsbD 3 && decide (s.ppu.ly = s.ppu.lyc)) then
          { s.irq with iflag := s.irq.iflag ||| 0b00010 }
        else s.irq } := by
  unfold evalStat
  dsimp only
  split <;> rfl

theorem endOfLine_eq (s : State) : endOfLine s =
    { s with
      ppu := { s.ppu with
        ly := s.ppu.ly + 1
        mode := if s.ppu.ly + 1 = 144 then .vblank else .oamScan
        framebuffer := (renderScanline s.ppu.ly.toNat s).ppu.framebuffer }
      irq := if s.ppu.ly + 1 = 144 then { s.irq with iflag := s.irq.iflag ||| 0b00001 } else s.irq } := by
  obtain ⟨fb, hrow⟩ := (renderScanline_pixels s.ppu.ly.toNat s).1
  unfold endOfLine
  dsimp only
  rw [hrow]
  by_cases hlast : s.ppu.ly + 1 = 144
  · refine (if_pos hlast).trans ?_
    rw [if_pos hlast, if_pos hlast]
    rfl
  · refine (if_neg hlast).trans ?_
    rw [if_neg hlast, if_neg hlast]
    rfl

/-- The end of the frame (R370): the sprites over the rows, line 0, `frame_ready` set. -/
def endOfFrame (s : State) : State :=
  { s with ppu := { s.ppu with
      ly := 0
      mode := .oamScan
      frameReady := true
      framebuffer := (renderSprites s).ppu.framebuffer } }

theorem vblankLine_eq (s : State) :
    vblankLine s = if s.ppu.ly + 1 = 154 then endOfFrame s else setLy (s.ppu.ly + 1) s := by
  obtain ⟨fb, hsprites⟩ := (renderSprites_pixels (setLy (s.ppu.ly + 1) s)).1
  have hfb := (sameButTiming_setLy s (s.ppu.ly + 1)).renderSprites.framebuffer
  rw [hsprites] at hfb
  rw [endOfFrame, ← hfb, vblankLine]
  dsimp only
  rw [hsprites]
  rfl

/-! ### Rendering and the transitions do not read the mode clock -/

theorem renderScanline_setModeClock (k n : Nat) (s : State) :
    renderScanline n (setModeClock k s) = setModeClock k (renderScanline n s) := by
  obtain ⟨fb, hrow⟩ := (renderScanline_pixels n s).1
  exact (renderScanline_retimed n s (setModeClock k s)).trans (by rw [hrow]; rfl)

theorem renderSprites_setModeClock (k : Nat) (s : State) :
    renderSprites (setModeClock k s) = setModeClock k (renderSprites s) := by
  obtain ⟨fb, hsprites⟩ := (renderSprites_pixels s).1
  exact (renderSprites_retimed s (setModeClock k s)).trans (by rw [hsprites]; rfl)

theorem evalStat_setModeClock (k : Nat) (s : State) :
    evalStat (setModeClock k s) = setModeClock k (evalStat s) := by
  rw [evalStat_eq, evalStat_eq]
  rfl

theorem endOfLine_setModeClock (k : Nat) (s : State) :
    endOfLine (setModeClock k s) = setModeClock k (endOfLine s) := by
  rw [endOfLine_eq, endOfLine_eq, renderScanline_setModeClock]
  rfl

theorem vblankLine_setModeClock (k : Nat) (s : State) :
    vblankLine (setModeClock k s) = setModeClock k (vblankLine s) := by
  rw [vblankLine_eq, vblankLine_eq, apply_ite (setModeClock k), endOfFrame, renderSprites_setModeClock]
  rfl

section
variable {s : State}

theorem ppuTransition_of_oamScan (h : s.ppu.mode = .oamScan) : ppuTransition s = setMode .vramAccess s := by
  rw [ppuTransition, h]

theorem ppuTransition_of_vramAccess (h : s.ppu.mode = .vramAccess) :
    ppuTransition s = evalStat (setMode .hblank s) := by
  rw [ppuTransition, h]

theorem ppuTransition_of_hblank (h : s.ppu.mode = .hblank) : ppuTransition s = endOfLine s := by
  rw [ppuTransition, h]

theorem ppuTransition_of_vblank (h : s.ppu.mode = .vblank) : ppuTransition s = vblankLine s := by
  rw [ppuTransition, h]

end

theorem ppuTransition_setModeClock (k : Nat) (s : State) :
    ppuTransition (setModeClock k s) = setModeClock k (ppuTransition s) := by
  cases h : s.ppu.mode with
  | oamScan =>
    rw [ppuTransition_of_oamScan h, ppuTransition_of_oamScan (s := setModeClock k s) h]
    rfl
  | vramAccess =>
    rw [ppuTransition_of_vramAccess h, ppuTransition_of_vramAccess (s := setModeClock k s) h]
    exact evalStat_setModeClock k (setMode .hblank s)
  | hblank =>
    rw [ppuTransition_of_hblank h, ppuTransition_of_hblank (s := setModeClock k s) h, endOfLine_setModeClock]
  | vblank =>
    rw [ppuTransition_of_vblank h, ppuTransition_of_vblank (s := setModeClock k s) h, vblankLine_setModeClock]

theorem ppuTransition_lcdc (s : State) : (ppuTransition s).ppu.lcdc = s.ppu.lcdc := by
  cases h : s.ppu.mode with
  | oamScan => rw [ppuTransition_of_oamScan h, setMode_ppu]
  | vramAccess => rw [ppuTransition_of_vramAccess h, evalStat_eq, setMode_ppu]
  | hblank => rw [ppuTransition_of_hblank h, endOfLine_eq]
  | vblank =>
    rw [ppuTransition_of_vblank h, vblankLine_eq]
    split <;> rfl

/-! ## `PpuRun` as a walk (R362) -/

theorem ppuLoop_of_lt {s : State} (h : s.ppu.modeClock < s.ppu.mode.budget) (k : Nat) : ppuLoop k s = s := by
  cases k with
  | zero => rfl
  | succ k => exact if_neg (Nat.not_le.2 h)

/-- More fuel than the mode clock needs changes nothing. -/
theorem ppuLoop_of_fuel {j k : Nat} {s : State} (hj : s.ppu.modeClock / 80 ≤ j) (hk : s.ppu.modeClock / 80 ≤ k) :
    ppuLoop j s = ppuLoop k s := by
  induction j generalizing k s with
  | zero =>
    have hbudget := s.ppu.mode.budget_ge
    rw [ppuLoop_of_lt (by omega), ppuLoop_of_lt (by omega)]
  | succ j ih =>
    have hbudget := s.ppu.mode.budget_ge
    by_cases hle : s.ppu.mode.budget ≤ s.ppu.modeClock
    · obtain ⟨k, rfl⟩ : ∃ i, k = i + 1 := ⟨k - 1, by omega⟩
      have hclock : (ppuTransition (setModeClock (s.ppu.modeClock - s.ppu.mode.budget) s)).ppu.modeClock =
          s.ppu.modeClock - s.ppu.mode.budget := ppuTransition_modeClock _
      rw [ppuLoop, ppuLoop, if_pos hle, if_pos hle]
      exact ih (by omega) (by omega)
    · rw [ppuLoop_of_lt (by omega), ppuLoop_of_lt (by omega)]

theorem ppuRun_of_off {s : State} (h : lcdcBit s 7 = false) (t : Nat) : ppuRun t s = s := by
  rw [ppuRun, h]
  rfl

theorem ppuRun_of_on {s : State} (h : lcdcBit s 7 = true) (t : Nat) :
    ppuRun t s = ppuLoop ((s.ppu.modeClock + t) / 80) (setModeClock (s.ppu.modeClock + t) s) := if_pos h

/-- Inside the mode's budget only the clock moves. -/
theorem ppuRun_of_lt {s : State} (hon : lcdcBit s 7 = true) {t : Nat} (h : s.ppu.modeClock + t < s.ppu.mode.budget) :
    ppuRun t s = setModeClock (s.ppu.modeClock + t) s := by
  rw [ppuRun_of_on hon]
  exact ppuLoop_of_lt h _

/-- The state in which the next mode, or the next line of VBLANK, begins. -/
def ppuNext (s : State) : State := ppuTransition (setModeClock 0 s)

theorem ppuNext_modeClock (s : State) : (ppuNext s).ppu.modeClock = 0 := ppuTransition_modeClock _

theorem ppuNext_on {s : State} (hon : lcdcBit s 7 = true) : lcdcBit (ppuNext s) 7 = true := by
  rwa [lcdcBit, ppuNext, ppuTransition_lcdc]

/-- A budget that is used up leads to the next mode, and the excess is left to run there. -/
theorem ppuRun_of_ge {s : State} (hon : lcdcBit s 7 = true) {t : Nat} (h : s.ppu.mode.budget ≤ s.ppu.modeClock + t) :
    ppuRun t s = ppuRun (s.ppu.modeClock + t - s.ppu.mode.budget) (ppuNext s) := by
  have hbudget := s.ppu.mode.budget_ge
  obtain ⟨k, hk⟩ : ∃ k, (s.ppu.modeClock + t) / 80 = k + 1 := ⟨(s.ppu.modeClock + t) / 80 - 1, by omega⟩
  have hloop : ppuRun t s = ppuLoop k (ppuTransition (setModeClock (s.ppu.modeClock + t - s.ppu.mode.budget) s)) := by
    rw [ppuRun_of_on hon, hk]
    exact if_pos h
  generalize hr : s.ppu.modeClock + t - s.ppu.mode.budget = r at hloop ⊢
  have hnext : setModeClock r (ppuNext s) = ppuTransition (setModeClock r s) :=
    (ppuTransition_setModeClock r (setModeClock 0 s)).symm
  rw [ppuRun_of_on (ppuNext_on hon), ppuNext_modeClock, Nat.zero_add, hnext, hloop]
  have hclock : (ppuTransition (setModeClock r s)).ppu.modeClock = r := ppuTransition_modeClock _
  exact ppuLoop_of_fuel (by omega) (by rw [hclock])

/-- Both cases of the walk end in the same place for two counts and for their sum. -/
theorem ppuRun_add {s : State} (hon : lcdcBit s 7 = true) (a b : Nat) : ppuRun (a + b) s = ppuRun b (ppuRun a s) := by
  have hbudget := s.ppu.mode.budget_ge
  by_cases h : s.ppu.mode.budget ≤ s.ppu.modeClock + a
  · rw [ppuRun_of_ge hon h, ppuRun_of_ge hon (t := a + b) (by omega), ← ppuRun_add (ppuNext_on hon)]
    congr 1
    omega
  · rw [ppuRun_of_lt (t := a) hon (by omega), ppuRun_of_on hon,
      ppuRun_of_on (s := setModeClock (s.ppu.modeClock + a) s) hon, ← Nat.add_assoc]
    rfl
termination_by s.ppu.modeClock + a
decreasing_by
  rw [ppuNext_modeClock]
  omega

/-- Settles O43: switched on, the walk through the modes carries the excess (`ppuRun_add`); switched off, there is
none. -/
theorem ppuAdditive : Obligations.PpuAdditive := by
  refine ⟨fun s a b => ?_, fun s t hoff => ppuRun_of_off hoff t⟩
  cases h : lcdcBit s 7 with
  | true => exact ppuRun_add h a b
  | false => rw [ppuRun_of_off h, ppuRun_of_off h, ppuRun_of_off h]

end Sys2Proof.Machine

/-! PROOFS. The lines of the PPU (60_exceptions.md R361, R366 to R371): what a mode does from its start, then a
visible line phase by phase. -/

namespace Sys2Proof.Machine

/-! ## From the start of a mode -/

section
variable {s : State} (hon : lcdcBit s 7 = true) (hclock : s.ppu.modeClock = 0)
include hon hclock

theorem ppuRun_within {t : Nat} (h : t < s.ppu.mode.budget) : ppuRun t s = setModeClock t s := by
  rw [ppuRun_of_lt hon (by rwa [hclock, Nat.zero_add]), hclock, Nat.zero_add]

theorem ppuRun_zero : ppuRun 0 s = s := by
  have hbudget := s.ppu.mode.budget_ge
  rw [ppuRun_within hon hclock (by omega), ← hclock]
  rfl

theorem ppuRun_budget : ppuRun s.ppu.mode.budget s = ppuTransition s := by
  have hnext : ppuNext s = ppuTransition s := by
    rw [ppuNext, ← hclock]
    rfl
  rw [ppuRun_of_ge hon (by omega), hclock, Nat.zero_add, Nat.sub_self,
    ppuRun_zero (ppuNext_on hon) (ppuNext_modeClock s), hnext]

end

/-! ## A visible line -/

theorem sameButTiming_evalStat (s : State) : s.sameButTiming (evalStat s) :=
  ⟨evalStat s, by rw [evalStat_eq]; rfl⟩

theorem sameButTiming_endOfLine (s : State) : (renderScanline s.ppu.ly.toNat s).sameButTiming (endOfLine s) := by
  obtain ⟨fb, hrow⟩ := (renderScanline_pixels s.ppu.ly.toNat s).1
  refine ⟨endOfLine s, ?_⟩
  rw [endOfLine_eq, hrow]
  rfl

/-- The start of the HBLANK of a line that starts in `s`. -/
def hblankStart (s : State) : State := evalStat (setMode .hblank s)

theorem hblankStart_ppu (s : State) : (hblankStart s).ppu =
    { s.ppu with mode := .hblank, coincidence := decide (s.ppu.ly = s.ppu.lyc) } := by
  rw [hblankStart, evalStat_eq]
  rfl

theorem hblankStart_mode (s : State) : (hblankStart s).ppu.mode = .hblank := by rw [hblankStart_ppu]

/-- The end of that line. -/
def nextLine (s : State) : State := endOfLine (hblankStart s)

theorem sameButTiming_nextLine (s : State) : (renderScanline s.ppu.ly.toNat s).sameButTiming (nextLine s) := by
  have hstart : s.sameButTiming (hblankStart s) := (sameButTiming_setMode s .hblank).trans (sameButTiming_evalStat _)
  have hend := sameButTiming_endOfLine (hblankStart s)
  rw [hblankStart_ppu] at hend
  exact (hstart.renderScanline _).trans hend

theorem nextLine_ppu (s : State) : (nextLine s).ppu =
    { s.ppu with
      ly := s.ppu.ly + 1
      coincidence := decide (s.ppu.ly = s.ppu.lyc)
      mode := if s.ppu.ly + 1 = 144 then .vblank else .oamScan
      framebuffer := (renderScanline s.ppu.ly.toNat s).ppu.framebuffer } := by
  rw [← (sameButTiming_nextLine s).framebuffer, nextLine, endOfLine_eq, hblankStart_ppu]

theorem nextLine_vblankRequest (s : State) :
    (nextLine s).irq.iflag.getLsbD 0 = (s.irq.iflag.getLsbD 0 || decide (s.ppu.ly + 1 = 144)) := by
  have hstat : (hblankStart s).irq.iflag.getLsbD 0 = s.irq.iflag.getLsbD 0 := by
    rw [hblankStart, evalStat_eq]
    split <;> simp
  have hly : (hblankStart s).ppu.ly = s.ppu.ly := by rw [hblankStart_ppu]
  rw [← hstat, nextLine, endOfLine_eq, hly]
  by_cases hlast : s.ppu.ly + 1 = 144
  · rw [if_pos hlast, decide_eq_true hlast, Bool.or_true, BitVec.getLsbD_or]
    exact Bool.or_true _
  · rw [if_neg hlast, decide_eq_false hlast, Bool.or_false]

/-- The start of a visible line, with the PPU on. -/
structure State.LineStart (s : State) : Prop where
  on : lcdcBit s 7 = true
  mode : s.ppu.mode = .oamScan
  clock : s.ppu.modeClock = 0

namespace State.LineStart
variable {s : State} (h : s.LineStart)
include h

theorem run_oamScan {t : Nat} (ht : t < 80) : ppuRun t s = setModeClock t s :=
  ppuRun_within h.on h.clock (by rwa [h.mode])

theorem run_80 : ppuRun 80 s = setMode .vramAccess s := by
  have hrun := ppuRun_budget h.on h.clock
  rwa [h.mode, ppuTransition_of_oamScan h.mode] at hrun

theorem run_vramAccess {t : Nat} (ht : t < 172) : ppuRun (80 + t) s = setModeClock t (setMode .vramAccess s) := by
  rw [ppuRun_add h.on, h.run_80]
  exact ppuRun_within (s := setMode .vramAccess s) h.on h.clock ht

theorem run_252 : ppuRun 252 s = hblankStart s := by
  have hrun : ppuRun 172 (setMode .vramAccess s) = hblankStart s :=
    (ppuRun_budget (s := setMode .vramAccess s) h.on h.clock).trans (ppuTransition_of_vramAccess rfl)
  rw [← hrun, ← h.run_80]
  exact ppuRun_add h.on 80 172

theorem hblank_on : lcdcBit (hblankStart s) 7 = true := by
  rw [lcdcBit, hblankStart_ppu]
  exact h.on

theorem hblank_clock : (hblankStart s).ppu.modeClock = 0 := by
  rw [hblankStart_ppu]
  exact h.clock

theorem run_hblank {t : Nat} (ht : t < 204) : ppuRun (252 + t) s = setModeClock t (hblankStart s) := by
  rw [ppuRun_add h.on, h.run_252]
  exact ppuRun_within h.hblank_on h.hblank_clock (by rwa [hblankStart_mode])

theorem run_456 : ppuRun 456 s = nextLine s := by
  have hrun := ppuRun_budget h.hblank_on h.hblank_clock
  rw [hblankStart_mode, ppuTransition_of_hblank (hblankStart_mode s)] at hrun
  rw [nextLine, ← hrun, ← h.run_252]
  exact ppuRun_add h.on 252 204

theorem next_on : lcdcBit (nextLine s) 7 = true := by
  rw [lcdcBit, nextLine_ppu]
  exact h.on

theorem next_clock : (nextLine s).ppu.modeClock = 0 := by
  rw [nextLine_ppu]
  exact h.clock

end State.LineStart

theorem ly_add_one_eq_144_iff (ly : Byte) : ly + 1 = 144 ↔ ly.toNat = 143 := by bv_omega

theorem evalStat_statRequest (s : State) : (evalStat s).irq.iflag.getLsbD 1 =
    (s.irq.iflag.getLsbD 1 || s.ppu.statEnable.getLsbD 0
      || (s.ppu.statEnable.getLsbD 3 && decide (s.ppu.ly = s.ppu.lyc))) := by
  rw [evalStat_eq, Bool.or_assoc]
  generalize (s.ppu.statEnable.getLsbD 0 || (s.ppu.statEnable.getLsbD 3 && decide (s.ppu.ly = s.ppu.lyc))) = request
  cases request with
  | true => exact BitVec.getLsbD_or
  | false => exact (Bool.or_false _).symm

/-- Settles O44: the line is run phase by phase from its start. -/
theorem ppuVisibleLine : Obligations.PpuVisibleLine := by
  intro s hon hmode hclock hly ly co u w
  have h : s.LineStart := ⟨hon, hmode, hclock⟩
  have hu : u = hblankStart s := h.run_252
  have hw : w = nextLine s := h.run_456
  have hvblank : s.ppu.ly + 1 = 144 ↔ ly = 143 := ly_add_one_eq_144_iff s.ppu.ly
  have hfb : w.ppu.framebuffer = (renderScanline ly s).ppu.framebuffer := by rw [hw, nextLine_ppu]
  refine ⟨?m79, ?m80, ?m251, ?m252, ?co, ?stat, ?ly455, ?fb455, ?ly456, ?clock, ?mode, ?vblank, hfb, ?pixels⟩
  case m79 => rw [h.run_oamScan (by decide)]; exact hmode
  case m80 => rw [h.run_vramAccess (t := 0) (by decide)]; rfl
  case m251 => rw [h.run_vramAccess (t := 171) (by decide)]; rfl
  case m252 => rw [hu, hblankStart_mode]
  case co => rw [hu, hblankStart_ppu]
  case stat =>
    rw [hu]
    exact evalStat_statRequest (setMode .hblank s)
  case ly455 => rw [h.run_hblank (t := 203) (by decide), setModeClock_ppu, hblankStart_ppu]
  case fb455 => rw [h.run_hblank (t := 203) (by decide), setModeClock_ppu, hblankStart_ppu]
  case ly456 => rw [hw, nextLine_ppu]
  case clock => rw [hw, h.next_clock]
  case mode => simp only [hw, nextLine_ppu, hvblank]
  case vblank => simp only [hw, nextLine_vblankRequest, hvblank]
  case pixels =>
    intro hinv y x hy hx
    have hrow := pixelAt_renderScanline (State.drawing_of_inv hinv) ly hy hx
    have hsame : pixelAt w y x = pixelAt (renderScanline ly s) y x := by rw [pixelAt, pixelAt, hfb]
    rw [hsame]
    split
    case isTrue => rfl
    case isFalse hother => rw [hrow, if_neg hother]

end Sys2Proof.Machine

/-! PROOFS. The frame of the PPU (60_exceptions.md R361, R370, R371): the 144 visible lines one after the other, then
the ten lines of VBLANK. -/

namespace Sys2Proof.Machine

/-! ## The visible lines -/

/-- `RenderScanline` of lines 0 to `n - 1` in turn. -/
def renderRows (n : Nat) (s : State) : State := (List.range n).foldl (fun t ly => renderScanline ly t) s

theorem renderRows_succ (n : Nat) (s : State) : renderRows (n + 1) s = renderScanline n (renderRows n s) := by
  rw [renderRows, renderRows, List.range_succ, List.foldl_append, List.foldl_cons, List.foldl_nil]

/-- `t` stands at the start of line `n` of the frame that began in `s`. -/
structure State.AtLine (s : State) (n : Nat) (t : State) : Prop where
  on : lcdcBit t 7 = true
  mode : t.ppu.mode = if n = 144 then .vblank else .oamScan
  clock : t.ppu.modeClock = 0
  ly : t.ppu.ly = BitVec.ofNat 8 n
  ready : t.ppu.frameReady = s.ppu.frameReady
  rows : (renderRows n s).sameButTiming t
  request : n = 144 → t.irq.iflag.getLsbD 0 = true

theorem State.AtLine.next {s t : State} {n : Nat} (hn : n < 144) (h : s.AtLine n t) :
    s.AtLine (n + 1) (ppuRun 456 t) := by
  have hstart : t.LineStart := ⟨h.on, h.mode.trans (if_neg (by omega)), h.clock⟩
  have hly : t.ppu.ly.toNat = n := by
    rw [h.ly]
    exact Nat.mod_eq_of_lt (by omega)
  have hvblank : t.ppu.ly + 1 = 144 ↔ n + 1 = 144 := by
    rw [ly_add_one_eq_144_iff, hly]
    omega
  rw [hstart.run_456]
  refine ⟨hstart.next_on, ?mode, hstart.next_clock, ?ly, ?ready, ?rows, fun h144 => ?request⟩
  case mode => simp only [nextLine_ppu, hvblank]
  case ly =>
    rw [nextLine_ppu, BitVec.ofNat_add, h.ly]
    rfl
  case ready => rw [nextLine_ppu, ← h.ready]
  case rows =>
    rw [renderRows_succ]
    exact (h.rows.renderScanline n).trans (hly ▸ sameButTiming_nextLine t)
  case request => rw [nextLine_vblankRequest, decide_eq_true (hvblank.2 h144), Bool.or_true]

theorem atLine_of_start {s : State} (h : s.LineStart) (hly : s.ppu.ly = 0) :
    ∀ n ≤ 144, s.AtLine n (ppuRun (456 * n) s)
  | 0, _ => by
    rw [Nat.mul_zero, ppuRun_zero h.on h.clock]
    exact ⟨h.on, h.mode, h.clock, hly, rfl, .refl s, fun h => by omega⟩
  | n + 1, hn => by
    rw [Nat.mul_succ, ppuRun_add h.on]
    exact (atLine_of_start h hly n (by omega)).next hn

/-! ## VBLANK -/

section
variable {v : State} (hon : lcdcBit v 7 = true) (hmode : v.ppu.mode = .vblank) (hclock : v.ppu.modeClock = 0)
include hon hmode hclock

theorem ppuRun_vblank_within {t : Nat} (ht : t < 456) : ppuRun t v = setModeClock t v :=
  ppuRun_within hon hclock (by rwa [hmode])

theorem ppuRun_vblank_line : ppuRun 456 v = vblankLine v := by
  have hrun := ppuRun_budget hon hclock
  rwa [hmode, ppuTransition_of_vblank hmode] at hrun

/-- The lines of VBLANK before the last count LY and do nothing else. -/
theorem ppuRun_vblank_lines (hly : v.ppu.ly = 144) :
    ∀ k ≤ 9, ppuRun (456 * k) v = setLy (BitVec.ofNat 8 (144 + k)) v
  | 0, _ => by
    rw [Nat.mul_zero, ppuRun_zero hon hclock, Nat.add_zero, ← BitVec.ofNat_eq_ofNat, ← hly]
    rfl
  | k + 1, hk => by
    have hnext : BitVec.ofNat 8 (144 + k) + 1 = BitVec.ofNat 8 (144 + (k + 1)) := (BitVec.ofNat_add ..).symm
    have hlast : ¬BitVec.ofNat 8 (144 + k) + 1 = 154 := by bv_omega
    rw [Nat.mul_succ, ppuRun_add hon, ppuRun_vblank_lines hly k (by omega),
      ppuRun_vblank_line (v := setLy (BitVec.ofNat 8 (144 + k)) v) hon hmode hclock, vblankLine_eq]
    exact (if_neg hlast).trans (by rw [← hnext]; rfl)

end

/-- Settles O45: the visible lines end in VBLANK at line 144 (`atLine_of_start`), nine lines of it lead to line 153, and
the end of that line is the end of the frame. -/
theorem ppuFrameLength : Obligations.PpuFrameLength := by
  intro s hon hmode hclock hly v w
  have hv : s.AtLine 144 v := atLine_of_start ⟨hon, hmode, hclock⟩ hly 144 (Nat.le_refl _)
  have hline : ppuRun (65664 + 4104) s = setLy 153 v :=
    (ppuRun_add hon 65664 4104).trans (ppuRun_vblank_lines hv.on hv.mode hv.clock hv.ly 9 (Nat.le_refl _))
  have hlast : ppuRun 70223 s = setModeClock 455 (setLy 153 v) := by
    refine (ppuRun_add hon (65664 + 4104) 455).trans ?_
    rw [hline]
    exact ppuRun_vblank_within (v := setLy 153 v) hv.on hv.mode hv.clock (by decide)
  have hend : w = endOfFrame (setLy 153 v) := by
    refine (ppuRun_add hon (65664 + 4104) 456).trans ?_
    rw [hline]
    refine (ppuRun_vblank_line (v := setLy 153 v) hv.on hv.mode hv.clock).trans ?_
    exact (vblankLine_eq _).trans (if_pos rfl)
  have hsprites : (renderSprites (setLy 153 v)).ppu.framebuffer = (renderSprites v).ppu.framebuffer :=
    (sameButTiming_setLy v 153).renderSprites.framebuffer
  rw [hlast, hend]
  exact ⟨hv.mode, hv.ly, hv.request rfl, hv.ready, hv.rows.framebuffer, rfl, rfl, rfl, rfl, hv.clock, rfl, hsprites⟩

end Sys2Proof.Machine
